-- ==== Sys2Proof/Word.lean ====
section
/-! DEFINITION. The value types that cross the engine's interfaces: whole bytes and unsigned 32-bit words
(spec/00_scope.md R11, R12; 20_memory.md R64: the engine sees whole bytes only, bit order belongs to the transport). -/

namespace Sys2Proof

/-- `u8` of R11: one byte of the bus, of a frame, of a reply or of the host buffer. -/
abbrev Byte := BitVec 8

/-- `u32` of R11: a command argument, a sector index, a geometry register or a tick sample. -/
abbrev Word := BitVec 32

/-- A command index, 0 to 63 (R32, R44). -/
abbrev CmdIndex := BitVec 6

end Sys2Proof
end

