-- ==== Sys2Proof/Config.lean ====
section
/-! DEFINITION. What is fixed for the machine: the constants of spec/00_scope.md R7 and R8, the levels of the three
transport lines, and the free values (opaque, so that no proof can see one). -/

namespace Sys2Proof

/-- Levels of the chip-select line (R133): LOW selects the card, HIGH deselects it. -/
inductive CsLevel where
  | high
  | low
  deriving DecidableEq, Repr, Inhabited

/-- Levels of the card's supply line (R134). -/
inductive PowerLevel where
  | on
  | off
  deriving DecidableEq, Repr, Inhabited

/-- The two symbolic clock rates (R135); no frequency is attached to either. -/
inductive ClockRate where
  | fast
  | slow
  deriving DecidableEq, Repr, Inhabited

/-! ## Constants fixed by the source (R7) -/

/-- `SECTOR_SIZE`, bytes per sector and per written data block. -/
def Config.sectorSize : Nat := 512
/-- `T_READY_MS`, the card-ready wait of select and of transmitBlock. -/
def Config.tReadyMs : Nat := 500
/-- `T_TOKEN_MS`, the start-of-data token wait. -/
def Config.tTokenMs : Nat := 200
/-- `T_INIT_MS`, the initialization-phase deadline. -/
def Config.tInitMs : Nat := 1000
/-- `T_POWERDOWN_MS`, the power-down pause. -/
def Config.tPowerDownMs : Nat := 10
/-- `T_ERASE_MS`, the erase completion wait. -/
def Config.tEraseMs : Nat := 30000
/-- `N_R1_POLL`, the maximum number of exchanges spent polling for an R1. -/
def Config.nR1Poll : Nat := 10
/-- `N_IDLE_CLOCKS`, idle clock cycles emitted before CMD0. -/
def Config.nIdleClocks : Nat := 80
/-- `N_IDLE_CLOCKS` counted in byte exchanges of eight clocks each (R144). -/
def Config.nIdleBytes : Nat := Config.nIdleClocks / 8
/-- `IDLE_BYTE`, the value the bus returns when the card is ready or idle. -/
def Config.idleByte : Byte := 0xFF
/-- `FILL_BYTE` (R8, D6), the byte sent when the engine only reads or clocks. -/
def Config.fillByte : Byte := 0xFF
/-- `R1_SENTINEL`, what sendCommand returns when selection times out. -/
def Config.r1Sentinel : Byte := 0xFF
/-- `CRC_PLACEHOLDER`, the sixth frame byte of every command except CMD0 and CMD8. -/
def Config.crcPlaceholder : Byte := 0x01
/-- `CRC_CMD0`. -/
def Config.crcCmd0 : Byte := 0x95
/-- `CRC_CMD8`. -/
def Config.crcCmd8 : Byte := 0x87
/-- `TOKEN_START`. -/
def Config.tokenStart : Byte := 0xFE
/-- `TOKEN_MULTI`. -/
def Config.tokenMulti : Byte := 0xFC
/-- `TOKEN_STOP`. -/
def Config.tokenStop : Byte := 0xFD
/-- `DRESP_MASK`. -/
def Config.drespMask : Byte := 0x1F
/-- `DRESP_ACCEPT`, 0b00101. -/
def Config.drespAccept : Byte := 0x05
/-- `CMD8_PATTERN`, the argument of CMD8. -/
def Config.cmd8Pattern : Word := 0x000001AA
/-- `BLOCKLEN_ARG`, the argument of CMD16. -/
def Config.blockLenArg : Word := 512
/-- `CSD_LEN`, bytes of the CSD and of the CID. -/
def Config.csdLen : Nat := 16
/-- `SDSTAT_HEAD`, bytes of the SD status the erase-size decoder keeps. -/
def Config.sdStatHead : Nat := 16
/-- `SDSTAT_TAIL`, bytes of the SD status the erase-size decoder purges. -/
def Config.sdStatTail : Nat := 48
/-- Bytes of the whole SD status block (R49). -/
def Config.sdStatLen : Nat := 64
/-- `CSIZE_V2_SHIFT`. -/
def Config.cSizeV2Shift : Nat := 10
/-- `COUNT_MIN`, the least sector count the host contract allows in one `read` or `write`. -/
def Config.countMin : Nat := 1
/-- `COUNT_MAX`, the greatest; the engine runs a greater one all the same (R73). -/
def Config.countMax : Nat := 128
/-- `TICK_WIDTH`, the width of a tick sample in bits. -/
def Config.tickWidth : Nat := 32

/-! ## Parameters the spec decides (R8) -/

/-- `HCS_ARG`, ACMD41's argument with the host-capacity-support bit (D18). -/
def Config.hcsArg : Word := 0x40000000
/-- `CCS_MASK`, the card-capacity-status bit within the first OCR byte (D19). -/
def Config.ccsMask : Byte := 0x40
/-- `WBL_SHIFT_SDV1` (D31). -/
def Config.wblShiftSdv1 : Nat := 0

/-! ## Parameters and free values the spec leaves open

Each constant is opaque: nothing in Lean can evaluate it or prove a value of it, so whatever is proved holds for every value. -/

/-- `RESULT_CODES` (R8, R33, D3: OPEN), a one-to-one map from the five Results to numbers.  A field left out takes D3's
suggested number.  Log 15. -/
structure ResultCodes where
  ok               : Nat := 0
  error            : Nat := 1
  writeProtect     : Nat := 2
  notReady         : Nat := 3
  invalidParameter : Nat := 4
  oneToOne : [ok, error, writeProtect, notReady, invalidParameter].Nodup := by decide
  deriving DecidableEq, Repr, Inhabited

/-- The numbering of the machine that is reset.  Log 15. -/
opaque Config.resultCodes : ResultCodes

/-- `T_POWERON_WAIT_MS` (R8, R142, D14: OPEN), the length of the power-on wait in milliseconds.  Log 4. -/
opaque Config.tPowerOnWaitMs : Nat

/-- `L.cs` at engine reset (R321: "A model draws the three levels freely").  Log 3. -/
opaque Config.resetCs : CsLevel
/-- `L.pwr` at engine reset (R321).  Log 3. -/
opaque Config.resetPower : PowerLevel
/-- `L.clk` at engine reset (R321).  Log 3. -/
opaque Config.resetClock : ClockRate
/-- The value the tick shows at engine reset (R46, R300: any u32).  Log 3. -/
opaque Config.resetTick : Word
/-- `NoMedia` at engine reset (R46: unspecified, an environment input).  Log 3. -/
opaque Config.resetNoMedia : Bool
/-- `WriteProtected` at engine reset (R46: unspecified, an environment input).  Log 3. -/
opaque Config.resetWriteProtected : Bool

/-- The byte an exchange receives once the answers written down in the state are used up (R130, R145).  Log 1. -/
opaque Config.freeByte : Nat → Byte
/-- From which the milliseconds are taken that pass from one tick sample to the next once the samples written down in the
state are used up (R136): any amount (R300 (b)) within what R300 (a) leaves (`tickBehind`).  Log 1. -/
opaque Config.freeAdvance : Nat → Word
/-- How many further times a wait samples the free tick before the tick has passed its deadline (R300 (c)).  Log 2. -/
opaque Config.freePolls : Nat → Nat
/-- The unspecified u32 of a version 1 CSD whose shift factor is below 9 (R235, D30).  Log 5. -/
opaque Config.freeSectors : Nat → Word

end Sys2Proof
end

