-- ==== Sys2Proof/Syntax.lean ====
section
/-! DEFINITION. The instructions: one constructor per row of spec/opcode_table.json, that is the 13 host operations
of spec/30_encoding.md R91, the 19 wire commands of R96 and the 3 tokens of R103, with the request that carries one
(R92: an ordinal or a frame, and typed operands beside it). -/

namespace Sys2Proof

/-- The buffer a host lends to `read` or `write` (R42): where it lies in the host's memory, and its length in bytes. -/
structure HostBuf where
  base : Nat
  len  : Nat
  deriving DecidableEq, Repr

/-- The two uses of the start-of-data token 0xFE (R103): it is awaited before a received packet (R190), and sent
before the 512 bytes of a single-block write (R193).  `dst` and `src` are host-memory addresses. -/
inductive TokenUse where
  | receive (dst len : Nat)
  | transmit (src : Nat)
  deriving DecidableEq, Repr

/-- The instruction set.  A host operation that takes a drive index has it first (R93, R298). -/
inductive Instr where
  /-- `initialize` (R200). -/
  | initializeCard (drv : Nat)
  /-- `status` (R270). -/
  | status (drv : Nat)
  /-- `read` (R250). -/
  | read (drv : Nat) (buf : HostBuf) (sector : Word) (count : Nat)
  /-- `write` (R254). -/
  | write (drv : Nat) (buf : HostBuf) (sector : Word) (count : Nat)
  /-- `sync` (R271). -/
  | sync
  /-- `sectorCount` (R273). -/
  | sectorCount
  /-- `sectorSize` (R274). -/
  | sectorSize
  /-- `eraseBlockSectors` (R275). -/
  | eraseBlockSectors
  /-- `ioctl TRIM` (R260). -/
  | ioctlTrim (drv : Nat) (startSector endSector : Word)
  /-- `ioctl GET_CID` (R278). -/
  | ioctlGetCid (drv : Nat)
  /-- `ioctl GET_OCR` (R279). -/
  | ioctlGetOcr (drv : Nat)
  /-- `ioctl GET_SD_STATUS` (R280). -/
  | ioctlGetSdStatus (drv : Nat)
  /-- `ioctl GET_CARD_CLASS` (R281). -/
  | ioctlGetCardClass (drv : Nat)
  /-- CMD0, go idle (R160). -/
  | cmd0
  /-- CMD1, MMC operating-condition poll (R161). -/
  | cmd1
  /-- CMD8, interface-condition check (R162). -/
  | cmd8
  /-- CMD9, send CSD (R163). -/
  | cmd9
  /-- CMD10, send CID (R164). -/
  | cmd10
  /-- CMD12, stop transmission (R165). -/
  | cmd12
  /-- ACMD13, SD status (R166). -/
  | acmd13
  /-- CMD16, set block length (R167). -/
  | cmd16
  /-- CMD17, read single block (R168). -/
  | cmd17 (arg : Word)
  /-- CMD18, read multiple blocks (R169). -/
  | cmd18 (arg : Word)
  /-- ACMD23, pre-erase count (R170). -/
  | acmd23 (arg : Word)
  /-- CMD24, write single block (R171). -/
  | cmd24 (arg : Word)
  /-- CMD25, write multiple blocks (R172). -/
  | cmd25 (arg : Word)
  /-- CMD32, erase start (R173). -/
  | cmd32 (arg : Word)
  /-- CMD33, erase end (R174). -/
  | cmd33 (arg : Word)
  /-- CMD38, erase (R175). -/
  | cmd38
  /-- ACMD41, SD operating-condition poll (R176); its argument is 0 or `HCS_ARG`. -/
  | acmd41 (arg : Word)
  /-- CMD55, the application announcement that precedes every ACMD (R177). -/
  | cmd55
  /-- CMD58, read OCR (R178). -/
  | cmd58
  /-- Token 0xFE (R190, R193). -/
  | tokStartData (use : TokenUse)
  /-- Token 0xFC with the 512-byte block it opens (R193); `src` is a host-memory address. -/
  | tokMultiWrite (src : Nat)
  /-- Token 0xFD (R195). -/
  | tokStopTran
  deriving DecidableEq, Repr

/-- Is the instruction one of the 13 host operations of R91?  (The others are wire level: R10.) -/
def Instr.isHost : Instr → Bool
  | .initializeCard _ | .status _ | .read _ _ _ _ | .write _ _ _ _ | .sync | .sectorCount | .sectorSize
  | .eraseBlockSectors | .ioctlTrim _ _ _ | .ioctlGetCid _ | .ioctlGetOcr _ | .ioctlGetSdStatus _
  | .ioctlGetCardClass _ => true
  | .cmd0 | .cmd1 | .cmd8 | .cmd9 | .cmd10 | .cmd12 | .acmd13 | .cmd16 | .cmd17 _ | .cmd18 _ | .acmd23 _
  | .cmd24 _ | .cmd25 _ | .cmd32 _ | .cmd33 _ | .cmd38 | .acmd41 _ | .cmd55 | .cmd58
  | .tokStartData _ | .tokMultiWrite _ | .tokStopTran => false

/-- The typed operand values carried beside an ordinal, a frame or a token (R92).  All zero when nothing is given;
the drive index defaults to 0 (R93). -/
structure Operands where
  drv       : Nat := 0
  buf       : HostBuf := ⟨0, 0⟩
  sector    : Word := 0
  endSector : Word := 0
  count     : Nat := 0
  use       : TokenUse := .receive 0 0
  deriving DecidableEq, Repr

/-- Where a request comes in, which is what its bytes are read as: a numeric code of the host's (R92, R108), or what
stands on the wire, a frame or a token (R94, R103). -/
inductive Port where
  | host
  | wire
  deriving DecidableEq, Repr

/-- One request: the bytes that name the instruction, first byte on the wire first, and the operands beside them. -/
structure Request where
  port  : Port
  bytes : List Byte
  ops   : Operands := {}
  deriving DecidableEq, Repr

/-- Why a request names no instruction. -/
inductive DecodeError where
  /-- No byte at all. -/
  | empty
  /-- A host code of more than one byte; on the wire neither one byte nor a whole 6-byte frame (R90: exactly one length
  for each format). -/
  | badLength
  /-- A host code outside R91 (R108). -/
  | unknownCode (code : Byte)
  /-- One byte on the wire that is no token of R103. -/
  | notAToken (code : Byte)
  /-- Six bytes whose first has not the start and transmission bits 0, 1 (R94). -/
  | notAFrame
  /-- A frame whose index is none of R96's (R106). -/
  | unlistedCommand (index : CmdIndex)
  /-- A frame whose checksum byte is not the one R98 gives its index. -/
  | badChecksum
  /-- A frame whose argument the engine never sends with its index (R96, R97). -/
  | badArgument
  deriving DecidableEq, Repr

end Sys2Proof
end

