-- ==== Sys2Proof/WellFormed.lean ====
section
/-! DEFINITION. Which terms of `Instr` are instructions of the machine: the types carry every width; what is left is
the argument of ACMD41, of which spec/30_encoding.md R96, R97 and the opcode table leave one bit free. -/

namespace Sys2Proof

/-- R96, R97: ACMD41 is sent with 0x40000000 (SDv2 branch) or 0 (SDv1 probe and loop) and with nothing else; every
other operand may hold any value of its type (R72, R73: no range check on sectors or count). -/
def Instr.wellFormed : Instr → Bool
  | .acmd41 arg => arg == 0 || arg == Config.hcsArg
  | .initializeCard _ | .status _ | .read _ _ _ _ | .write _ _ _ _ | .sync | .sectorCount | .sectorSize
  | .eraseBlockSectors | .ioctlTrim _ _ _ | .ioctlGetCid _ | .ioctlGetOcr _ | .ioctlGetSdStatus _
  | .ioctlGetCardClass _ | .cmd0 | .cmd1 | .cmd8 | .cmd9 | .cmd10 | .cmd12 | .acmd13 | .cmd16 | .cmd17 _
  | .cmd18 _ | .acmd23 _ | .cmd24 _ | .cmd25 _ | .cmd32 _ | .cmd33 _ | .cmd38 | .cmd55 | .cmd58
  | .tokStartData _ | .tokMultiWrite _ | .tokStopTran => true

end Sys2Proof
end

