-- ==== Sys2Proof/Decode.lean ====
section
/-! DEFINITION. The encodings of spec/30_encoding.md: the 6-byte command frame (R94, R95, R98), the ordinals of the
host operations (R91, R92), the tokens (R103); the decoder, total on any bytes, and after it the encoder. -/

namespace Sys2Proof

/-! ## The frame -/

/-- R98: the checksum byte depends on the index alone. -/
def checksumByte (index : CmdIndex) : Byte :=
  if index = 0 then Config.crcCmd0 else if index = 8 then Config.crcCmd8 else Config.crcPlaceholder

/-- R95: frame byte 0 is `0x40 | c[5:0]`, a start bit 0, a transmission bit 1 and the six index bits. -/
def frameHead (index : CmdIndex) : Byte :=
  0x40 ||| index.setWidth 8

/-- R60: the argument, most significant byte first. -/
def argBytes (arg : Word) : List Byte :=
  [arg.extractLsb' 24 8, arg.extractLsb' 16 8, arg.extractLsb' 8 8, arg.extractLsb' 0 8]

/-- R94: the six bytes of a command frame, first on the wire first. -/
def frameBytes (index : CmdIndex) (arg : Word) : List Byte :=
  frameHead index :: (argBytes arg ++ [checksumByte index])

/-- R94: the argument that frame bytes 1 to 4 carry. -/
def joinArg (a3 a2 a1 a0 : Byte) : Word :=
  a3 ++ a2 ++ a1 ++ a0

/-! ## The decoder -/

/-- The host operation of an ordinal (R91, R92, D38), its operands taken from beside it. -/
def decodeHost (code : Byte) (o : Operands) : Option Instr :=
  if code = 0x00 then some (.initializeCard o.drv)
  else if code = 0x01 then some (.status o.drv)
  else if code = 0x02 then some (.read o.drv o.buf o.sector o.count)
  else if code = 0x03 then some (.write o.drv o.buf o.sector o.count)
  else if code = 0x04 then some .sync
  else if code = 0x05 then some .sectorCount
  else if code = 0x06 then some .sectorSize
  else if code = 0x07 then some .eraseBlockSectors
  else if code = 0x08 then some (.ioctlTrim o.drv o.sector o.endSector)
  else if code = 0x09 then some (.ioctlGetCid o.drv)
  else if code = 0x0A then some (.ioctlGetOcr o.drv)
  else if code = 0x0B then some (.ioctlGetSdStatus o.drv)
  else if code = 0x0C then some (.ioctlGetCardClass o.drv)
  else none

/-- The token of a byte (R103), its operands taken from beside it. -/
def decodeToken (code : Byte) (o : Operands) : Option Instr :=
  if code = Config.tokenStart then some (.tokStartData o.use)
  else if code = Config.tokenMulti then some (.tokMultiWrite o.buf.base)
  else if code = Config.tokenStop then some .tokStopTran
  else none

/-- A command the engine always sends with one argument (R96, R97). -/
def fixedArg (want arg : Word) (i : Instr) : Except DecodeError Instr :=
  if arg = want then .ok i else .error .badArgument

/-- R96: the command of a frame's index and argument.  The frame of an application command is that of the plain
command of its index (R95, R99); the table lists indices 13, 23 and 41 as application commands only. -/
def decodeCommand (index : CmdIndex) (arg : Word) : Except DecodeError Instr :=
  if index = 0 then fixedArg 0 arg .cmd0
  else if index = 1 then fixedArg 0 arg .cmd1
  else if index = 8 then fixedArg Config.cmd8Pattern arg .cmd8
  else if index = 9 then fixedArg 0 arg .cmd9
  else if index = 10 then fixedArg 0 arg .cmd10
  else if index = 12 then fixedArg 0 arg .cmd12
  else if index = 13 then fixedArg 0 arg .acmd13
  else if index = 16 then fixedArg Config.blockLenArg arg .cmd16
  else if index = 17 then .ok (.cmd17 arg)
  else if index = 18 then .ok (.cmd18 arg)
  else if index = 23 then .ok (.acmd23 arg)
  else if index = 24 then .ok (.cmd24 arg)
  else if index = 25 then .ok (.cmd25 arg)
  else if index = 32 then .ok (.cmd32 arg)
  else if index = 33 then .ok (.cmd33 arg)
  else if index = 38 then fixedArg 0 arg .cmd38
  else if index = 41 then
    if arg = 0 ∨ arg = Config.hcsArg then .ok (.acmd41 arg) else .error .badArgument
  else if index = 55 then fixedArg 0 arg .cmd55
  else if index = 58 then fixedArg 0 arg .cmd58
  else .error (.unlistedCommand index)

/-- The command of six bytes (R94). -/
def decodeFrame (b0 a3 a2 a1 a0 k : Byte) : Except DecodeError Instr :=
  if b0.extractLsb' 6 2 = 1 then
    match decodeCommand (b0.extractLsb' 0 6) (joinArg a3 a2 a1 a0) with
    | .ok i => if k = checksumByte (b0.extractLsb' 0 6) then .ok i else .error .badChecksum
    | .error e => .error e
  else .error .notAFrame

/-- The host operation of a numeric code (R92, R108). -/
def decodeCode (bytes : List Byte) (o : Operands) : Except DecodeError Instr :=
  match bytes with
  | [] => .error .empty
  | [code] =>
    match decodeHost code o with
    | some i => .ok i
    | none => .error (.unknownCode code)
  | _ => .error .badLength

/-- The wire-level instruction of a token's byte or a frame's six (R10). -/
def decodeWire (bytes : List Byte) (o : Operands) : Except DecodeError Instr :=
  match bytes with
  | [] => .error .empty
  | [code] =>
    match decodeToken code o with
    | some i => .ok i
    | none => .error (.notAToken code)
  | [b0, a3, a2, a1, a0, k] => decodeFrame b0 a3 a2 a1 a0 k
  | _ => .error .badLength

/-- The instruction a request names, or by name why it names none. -/
def decode (r : Request) : Except DecodeError Instr :=
  match r.port with
  | .host => decodeCode r.bytes r.ops
  | .wire => decodeWire r.bytes r.ops

/-! ## The encoder -/

/-- The request of a wire command (R94): its frame, nothing beside it. -/
def commandRequest (index : CmdIndex) (arg : Word) : Request :=
  ⟨.wire, frameBytes index arg, {}⟩

/-- The request of an instruction: the ordinal of R91, the frame of R96 or the token of R103, and the operands. -/
def encode : Instr → Request
  | .initializeCard drv => ⟨.host, [0x00], { drv := drv }⟩
  | .status drv => ⟨.host, [0x01], { drv := drv }⟩
  | .read drv buf sector count => ⟨.host, [0x02], { drv := drv, buf := buf, sector := sector, count := count }⟩
  | .write drv buf sector count => ⟨.host, [0x03], { drv := drv, buf := buf, sector := sector, count := count }⟩
  | .sync => ⟨.host, [0x04], {}⟩
  | .sectorCount => ⟨.host, [0x05], {}⟩
  | .sectorSize => ⟨.host, [0x06], {}⟩
  | .eraseBlockSectors => ⟨.host, [0x07], {}⟩
  | .ioctlTrim drv st ed => ⟨.host, [0x08], { drv := drv, sector := st, endSector := ed }⟩
  | .ioctlGetCid drv => ⟨.host, [0x09], { drv := drv }⟩
  | .ioctlGetOcr drv => ⟨.host, [0x0A], { drv := drv }⟩
  | .ioctlGetSdStatus drv => ⟨.host, [0x0B], { drv := drv }⟩
  | .ioctlGetCardClass drv => ⟨.host, [0x0C], { drv := drv }⟩
  | .cmd0 => commandRequest 0 0
  | .cmd1 => commandRequest 1 0
  | .cmd8 => commandRequest 8 Config.cmd8Pattern
  | .cmd9 => commandRequest 9 0
  | .cmd10 => commandRequest 10 0
  | .cmd12 => commandRequest 12 0
  | .acmd13 => commandRequest 13 0
  | .cmd16 => commandRequest 16 Config.blockLenArg
  | .cmd17 arg => commandRequest 17 arg
  | .cmd18 arg => commandRequest 18 arg
  | .acmd23 arg => commandRequest 23 arg
  | .cmd24 arg => commandRequest 24 arg
  | .cmd25 arg => commandRequest 25 arg
  | .cmd32 arg => commandRequest 32 arg
  | .cmd33 arg => commandRequest 33 arg
  | .cmd38 => commandRequest 38 0
  | .acmd41 arg => commandRequest 41 arg
  | .cmd55 => commandRequest 55 0
  | .cmd58 => commandRequest 58 0
  | .tokStartData use => ⟨.wire, [Config.tokenStart], { use := use }⟩
  | .tokMultiWrite src => ⟨.wire, [Config.tokenMulti], { buf := ⟨src, 0⟩ }⟩
  | .tokStopTran => ⟨.wire, [Config.tokenStop], {}⟩

/-! ## Words numbered as the opcode table numbers them -/

/-- The lowest `8 * n` bits of `w` as bytes, the most significant first: the table numbers a frame's first byte on
the wire 47:40 and its last 7:0 (spec/opcode_table.json, R94). -/
def wordBytes : Nat → Nat → List Byte
  | 0, _ => []
  | n + 1, w => BitVec.ofNat 8 (w / 256 ^ n) :: wordBytes n w

/-- The format of a row of the table: `TOKEN8` and `FRAME48` stand on the wire, `HOST` is a numeric code. -/
def tablePort (bytes : List Byte) : Port :=
  match bytes with
  | [code] => if (decodeToken code {}).isSome then .wire else .host
  | _ => .wire

/-- The request whose bytes are the table's word `w` of `nbits` bits, every operand zero. -/
def tableRequest (nbits w : Nat) : Request :=
  ⟨tablePort (wordBytes (nbits / 8) w), wordBytes (nbits / 8) w, {}⟩

/-- The instruction the decoder reads from an instruction whose bits are `w`, numbered as spec/opcode_table.json
numbers them. -/
def decodeTableWord (nbits w : Nat) : Option Instr :=
  match decode (tableRequest nbits w) with
  | .ok i => some i
  | .error _ => none

end Sys2Proof
end

