-- ==== Sys2Proof/Machine/State.lean ====
section
/-! DEFINITION. The machine's state as plain data: every register of spec/10_state.md R20, the transport lines
(R40), the event history (R48), the scratch (R30), the host's memory (R42), what the host and the card-and-bus
oracle have in store for the engine, and the state right after engine reset (R46). -/

namespace Sys2Proof.Machine

/-! ## Engine registers -/

/-- The status register, a set over three flags (R21). -/
structure DriveStatus where
  notInitialized : Bool
  noMedia        : Bool
  writeProtected : Bool
  deriving DecidableEq, Repr

/-- How a card's sectors are named in a command argument (R26, R43). -/
inductive Addressing where
  | byteAddressed
  | blockAddressed
  deriving DecidableEq, Repr

/-- The card's family. -/
inductive Family where
  | mmc
  | sdv1
  | sdv2
  deriving DecidableEq, Repr

/-- A classified card.  R26: an MMC and an SDv1 card are byte-addressed, so that the two illegal combinations cannot
be written; the register's sixth value `none` is `Option`'s. -/
inductive CardClass where
  | mmc
  | sdv1
  | sdv2 (addressing : Addressing)
  deriving DecidableEq, Repr

/-- The seven values of `S.phase` (R29). -/
inductive Phase where
  | poweredOff
  | probing
  | classifyMmc
  | classifySdv1
  | classifySdv2
  | ready
  | failed
  deriving DecidableEq, Repr

/-- The five results (R33), symbolic as R33 and D3 keep them; their numbers are `Result.code`. -/
inductive Result where
  | ok
  | error
  | invalidParameter
  | notReady
  | writeProtect
  deriving DecidableEq, Repr

/-! ## The transport side -/

/-- The geometry register a failed decode was for (R215). -/
inductive GeometryReg where
  | sectorCount
  | eraseBlockSectors
  deriving DecidableEq, Repr

/-- The diagnostic events (R311). -/
inductive LogEvent where
  | geometryDecodeFailed (reg : GeometryReg)
  deriving DecidableEq, Repr

/-- One event of the history (R16): `X(o,i)`, `CS(l)`, `PWR(l)`, `CLK(r)`, `NOW(v)`, `LOG(e)`. -/
inductive Event where
  | xchg (o i : Byte)
  | cs (level : CsLevel)
  | pwr (level : PowerLevel)
  | clk (rate : ClockRate)
  | now (v : Word)
  | log (e : LogEvent)
  deriving DecidableEq, Repr

/-- The scratch of R30.  `none` is the spec's own "no value": each holds a value only from its first write inside an
operation until that operation returns. -/
structure Scratch where
  csd   : Option (List Byte) := none
  sds   : Option (List Byte) := none
  r7    : Option (List Byte) := none
  ocr   : Option (List Byte) := none
  resp  : Option Byte := none
  tok   : Option Byte := none
  t0    : Option Word := none
  n     : Option Nat := none
  count : Option Nat := none
  off   : Option Nat := none
  ty    : Option (Option CardClass) := none
  deriving DecidableEq, Repr

/-- What the transport side holds: the last driven line levels (R40), the event history newest first (R48), the
answers the card-and-bus oracle and the tick oracle have in store (R130, R136), the value the tick last showed (R300),
the starts of the deadlines now running, innermost first (R307), which bound how far a free sample can lie behind the
last (R300 (a)), how many free answers have been drawn after those in store ran out (both the model's own, log 1), and
the scratch. -/
structure Bus where
  cs        : CsLevel
  pwr       : PowerLevel
  clk       : ClockRate
  trace     : List Event
  rx        : List Byte
  ticks     : List Word
  tick      : Word
  deadlines : List Word
  draws     : Nat
  scratch   : Scratch
  deriving DecidableEq, Repr

/-! ## The host side -/

/-- The host's memory, addresses rising, no entry equal to what an unlisted address reads as. -/
abbrev Memory := List Host.Cell

/-- What an instruction returns: the column "result out" of R91, the response of a wire command (R150), the outcome
of a token (R190, R193).  A payload is `none` where the spec writes `-`. -/
inductive Reply where
  | status (st : DriveStatus)
  | result (r : Result)
  | word (v : Word)
  | bytes (r : Result) (data : Option (List Byte))
  | cardClass (r : Result) (c : Option (Option CardClass))
  | response (resp : Byte)
  | token (ok : Bool)
  deriving DecidableEq, Repr

/-- What comes from outside, in order: a request, or a change of the two environment flags (R24). -/
inductive HostInput where
  | request (r : Request)
  | environment (noMedia writeProtected : Bool)
  deriving DecidableEq, Repr

/-! ## The whole state -/

/-- The machine's state.  `S.sectorSize` is hardwired (R27) and is read through `State.sectorSize`; `powerOnWaitMs`
and `resultCodes` are the machine's open parameters `T_POWERON_WAIT_MS` and `RESULT_CODES` (R8), which no step writes. -/
structure State where
  status            : DriveStatus
  cardClass         : Option CardClass
  sectorCount       : Word
  eraseBlockSectors : Word
  busy              : Bool
  phase             : Phase
  bus               : Bus
  mem               : Memory
  reply             : Option Reply
  inputs            : List HostInput
  powerOnWaitMs     : Nat
  resultCodes       : ResultCodes
  deriving DecidableEq, Repr

/-! ## How a step can stop -/

/-- Faults.  The block has no traps (spec/60_exceptions.md, opening; R304: "No failure is fatal to the engine"): every
failure is a `Result` or the status bitset, delivered in a next state.  What is left is the one wait that cannot end. -/
inductive Fault where
  /-- `initialize`, when `T_POWERON_WAIT_MS` is 2^32 or more: no 32-bit tick is ever that far past a start (R137), so
  that the delay of R142 polls for ever (stuck, as 93 U16).  Safe. -/
  | powerOnWaitNeverEnds
  deriving DecidableEq, Repr

/-- Refusals. -/
inductive Refusal where
  /-- An arm of `exec` whose instruction has no meaning yet; no arm raises it now.  Safe. -/
  | notModelled (mnemonic : String)
  /-- Every host operation, when `S.busy` is true (R28, 93 U1: refuse).  Safe. -/
  | engineBusy
  /-- `read` and `write`, past their admission tests, when the lent buffer is shorter than `count * 512` bytes
  (93 U21: refuse).  Safe. -/
  | bufferTooShort
  /-- `step`, when the environment changes its flags while `S.busy` is true (R24, 93 U14: refuse).  Safe. -/
  | environmentDuringOperation
  /-- `step`, on a request that is no host code and no frame or token of the engine's (R106, 93 U2).  Safe. -/
  | undecodable (e : DecodeError)
  deriving DecidableEq, Repr

/-! ## Reset -/

/-- Engine reset (R46, R322) of a machine whose open parameters (R8) are the power-on wait `waitMs` and the numbering
`codes` of the Results: no bus traffic, no host request waiting, nothing in store from the oracles. -/
def State.resetWith (waitMs : Nat) (codes : ResultCodes) : State where
  status := ⟨true, Config.resetNoMedia, Config.resetWriteProtected⟩
  cardClass := none
  sectorCount := 0
  eraseBlockSectors := 0
  busy := false
  phase := .poweredOff
  bus :=
    { cs := Config.resetCs, pwr := Config.resetPower, clk := Config.resetClock
      trace := [], rx := [], ticks := [], tick := Config.resetTick, deadlines := [], draws := 0
      scratch := {} }
  mem := []
  reply := none
  inputs := []
  powerOnWaitMs := waitMs
  resultCodes := codes

/-- Engine reset. -/
def State.reset : State :=
  State.resetWith Config.tPowerOnWaitMs Config.resultCodes

end Sys2Proof.Machine
end

