-- ==== Sys2Proof/Machine/Flags.lean ====
section
/-! DEFINITION. Every test the engine makes: on the status flags and the admission operands (spec/60_exceptions.md
R296 to R298), on an R1 (10_state.md R34, 41_command_engine.md R158), on a data response (R36), on the tick
(40_transport.md R137), with the samples a free tick can show (60_exceptions.md R300); and the writes of the one flag the
engine writes (R22); and the number of a Result in the machine's numbering (R8). -/

namespace Sys2Proof.Machine

/-! ## Status flags -/

/-- R23: the bitset as a byte, `NotInitialized` 0x01, `NoMedia` 0x02, `WriteProtected` 0x04, bits 7:3 zero. -/
def DriveStatus.toByte (st : DriveStatus) : Byte :=
  (if st.notInitialized then 0x01 else 0) ||| (if st.noMedia then 0x02 else 0)
    ||| (if st.writeProtected then 0x04 else 0)

/-- `S.status \ {NotInitialized}` (R213). -/
def DriveStatus.clearNotInitialized (st : DriveStatus) : DriveStatus :=
  { st with notInitialized := false }

/-- `S.status ∪ {NotInitialized}` (R214). -/
def DriveStatus.setNotInitialized (st : DriveStatus) : DriveStatus :=
  { st with notInitialized := true }

/-- R298: what `initialize` and `status` return for a bad drive index, the set `{NotInitialized}`. -/
def badDriveStatus : DriveStatus :=
  ⟨true, false, false⟩

/-! ## The number of a Result (R8, R33) -/

/-- The number that `RESULT_CODES` gives a Result (D3). -/
def Result.code (c : ResultCodes) : Result → Nat
  | .ok => c.ok
  | .error => c.error
  | .invalidParameter => c.invalidParameter
  | .notReady => c.notReady
  | .writeProtect => c.writeProtect

/-- The Result an instruction hands over, where the column "result out" of R91 holds one. -/
def Reply.outcome : Reply → Option Result
  | .result r => some r
  | .bytes r _ => some r
  | .cardClass r _ => some r
  | .status _ => none
  | .word _ => none
  | .response _ => none
  | .token _ => none

/-- The number of the Result last handed over, in the machine's numbering. -/
def State.resultCode (s : State) : Option Nat :=
  (s.reply.bind Reply.outcome).map (Result.code s.resultCodes)

/-! ## Admission (R297) -/

/-- The result of the first test that fails, the tests being in priority order; `none` when the operation is
admitted. -/
def firstFailure : List (Bool × Result) → Option Result
  | [] => none
  | (failed, r) :: rest => if failed then some r else firstFailure rest

/-- R298: bad drive index. -/
def driveTest (drv : Nat) : Bool × Result :=
  (drv != 0, .invalidParameter)

/-- R297 2: zero count. -/
def countTest (count : Nat) : Bool × Result :=
  (count == 0, .invalidParameter)

/-- R296: the not-ready gate, on the flag `NotInitialized` alone. -/
def readyTest (s : State) : Bool × Result :=
  (s.status.notInitialized, .notReady)

/-- R255: the write-protect gate. -/
def protectTest (s : State) : Bool × Result :=
  (s.status.writeProtected, .writeProtect)

/-- R297 for `read`. -/
def admitRead (drv count : Nat) (s : State) : Option Result :=
  firstFailure [driveTest drv, countTest count, readyTest s]

/-- R297 for `write`. -/
def admitWrite (drv count : Nat) (s : State) : Option Result :=
  firstFailure [driveTest drv, countTest count, readyTest s, protectTest s]

/-- R297 for the five ioctls. -/
def admitIoctl (drv : Nat) (s : State) : Option Result :=
  firstFailure [driveTest drv, readyTest s]

/-- The counts the host contract allows (R7, R73); the engine tests nothing of it but the zero count. -/
def withinContract (count : Nat) : Bool :=
  Config.countMin ≤ count && count ≤ Config.countMax

/-! ## R1 (R34, R158) -/

/-- R34 (a): bit 7 clear means that a valid R1 has arrived. -/
def validR1 (resp : Byte) : Bool :=
  !resp.msb

/-- `idle(resp)`. -/
def idleR1 (resp : Byte) : Bool :=
  resp == 0x01

/-- `okOrIdle(resp)`, compared as an unsigned byte. -/
def okOrIdleR1 (resp : Byte) : Bool :=
  resp.toNat ≤ 1

/-- `accepted(resp)`. -/
def acceptedR1 (resp : Byte) : Bool :=
  resp == 0x00

/-! ## Data response (R36, R104) -/

/-- `(resp & 0x1F) = 0x05`. -/
def dataAccepted (resp : Byte) : Bool :=
  (resp &&& Config.drespMask) == Config.drespAccept

/-! ## Deadlines (R137) -/

/-- `((v - t0) mod 2^32) >= T`. -/
def pastDeadline (t0 : Word) (T : Nat) (v : Word) : Bool :=
  T ≤ (v - t0).toNat

/-- Can a delay of `T` end?  A sample is at most 2^32 - 1 past its start (R137). -/
def canExpire (T : Nat) : Bool :=
  T < 2 ^ Config.tickWidth

/-- How many milliseconds the sample `tick` lies behind the sample `t0`. -/
def sinceStart (t0 tick : Word) : Nat :=
  (tick - t0).toNat

/-- The longest of these times, over the deadlines that began at `starts`. -/
def longest (tick : Word) : List Word → Nat
  | [] => 0
  | t0 :: rest => max (sinceStart t0 tick) (longest tick rest)

/-- How many milliseconds after `tick` the tick makes its first whole turn since one of `starts`: fewer may pass
(R300 (a)). -/
def roomLeft (starts : List Word) (tick : Word) : Nat :=
  2 ^ Config.tickWidth - longest tick starts

/-- The sample behind `tick` while the deadlines that began at `starts` are running: any amount behind it (R300 (b))
that keeps less than 2^32 milliseconds between each of them and the sample (R300 (a)). -/
def tickBehind (starts : List Word) (tick : Word) (advance : Nat) : Word :=
  tick + BitVec.ofNat 32 (advance % roomLeft starts tick)

/-- The same of a sample that has passed the deadline `T` of a wait that began at `t0` (R300 (c)).  Where no such sample
keeps (a) for the deadlines around the wait, it keeps it for the wait's own (log 1). -/
def tickPast (t0 : Word) (T : Nat) (starts : List Word) (tick : Word) (advance : Nat) : Word :=
  let need := T - sinceStart t0 tick
  let room := if need < roomLeft (t0 :: starts) tick then roomLeft (t0 :: starts) tick else roomLeft [t0] tick
  tick + BitVec.ofNat 32 (need + advance % (room - need))

end Sys2Proof.Machine
end

