-- ==== Sys2Proof/Machine/Operands.lean ====
section
/-! DEFINITION. How operands are formed: the command code (spec/10_state.md R32), the address of a sector
(20_memory.md R70, R71), the count of ACMD23 (R97), and the fields the engine extracts from the card's registers
(R37 to R39, R49) with the formulas over them (44_geometry.md R233 to R239). -/

namespace Sys2Proof.Machine

/-! ## Command codes (R32) -/

/-- A command code: the application flag `c[7]` and the index `c[5:0]`.  Bit 6 is 0 and has no place here, so that a
code with `c[6] = 1` (U2) cannot be formed. -/
structure CommandCode where
  app   : Bool
  index : CmdIndex
  deriving DecidableEq, Repr

/-- The 8-bit value of a code. -/
def CommandCode.toByte (c : CommandCode) : Byte :=
  (if c.app then 0x80 else 0) ||| c.index.setWidth 8

/-- `CMDn`, the code `n`. -/
def cmd (n : CmdIndex) : CommandCode :=
  ⟨false, n⟩

/-- `ACMDn`, the code `0x80 | n`. -/
def acmd (n : CmdIndex) : CommandCode :=
  ⟨true, n⟩

/-! ## Card class -/

/-- The family of a class. -/
def CardClass.family : CardClass → Family
  | .mmc => .mmc
  | .sdv1 => .sdv1
  | .sdv2 _ => .sdv2

/-- The addressing mode of a class (R26). -/
def CardClass.addressing : CardClass → Addressing
  | .mmc => .byteAddressed
  | .sdv1 => .byteAddressed
  | .sdv2 a => a

/-- D27: an SD-family card is one of class SDv1 or SDv2. -/
def isSdFamily (c : Option CardClass) : Bool :=
  match c with
  | none => false
  | some k => k.family != .mmc

/-! ## Arguments -/

/-- R70: the command argument for a sector index, `s` itself for a block-addressed card, else `s * 512` modulo 2^32
(R71). -/
def addr (c : Option CardClass) (sector : Word) : Word :=
  match c.map CardClass.addressing with
  | some .blockAddressed => sector
  | _ => sector * 512

/-- R97, R170: the argument of ACMD23, `count` modulo 2^32. -/
def eraseCountArg (count : Nat) : Word :=
  BitVec.ofNat 32 count

/-! ## Fields of the card's registers -/

/-- Byte `i` of a byte sequence, counted in arrival order (R12, R61). -/
def byteAt (b : List Byte) (i : Nat) : Byte :=
  b.getD i 0

/-- R205: `r7[2] = 0x01 and r7[3] = 0xAA`. -/
def echoMatches (r7 : List Byte) : Bool :=
  byteAt r7 2 == 0x01 && byteAt r7 3 == 0xAA

/-- R37: the card-capacity-status bit of the OCR. -/
def ocrCapacityBit (ocr : List Byte) : Bool :=
  (byteAt ocr 0 &&& Config.ccsMask) != 0

/-- R207: the addressing mode an OCR tells. -/
def ocrAddressing (ocr : List Byte) : Addressing :=
  if ocrCapacityBit ocr then .blockAddressed else .byteAddressed

/-- `CSD_STRUCTURE`, `csd[0][7:6]` (R39). -/
def csdStructure (csd : List Byte) : Nat :=
  (byteAt csd 0 >>> 6).toNat

/-- `C_SIZE_V2` (R39). -/
def cSizeV2 (csd : List Byte) : Nat :=
  (byteAt csd 9).toNat + ((byteAt csd 8).toNat <<< 8) + ((byteAt csd 7 &&& 0x3F).toNat <<< 16)

/-- `READ_BL_LEN` (R39). -/
def readBlLen (csd : List Byte) : Nat :=
  (byteAt csd 5 &&& 0x0F).toNat

/-- `C_SIZE_MULT` (R39). -/
def cSizeMult (csd : List Byte) : Nat :=
  ((byteAt csd 9 &&& 0x03).toNat <<< 1) + (byteAt csd 10 >>> 7).toNat

/-- `C_SIZE_V1` (R39). -/
def cSizeV1 (csd : List Byte) : Nat :=
  (byteAt csd 8 >>> 6).toNat + ((byteAt csd 7).toNat <<< 2) + ((byteAt csd 6 &&& 0x03).toNat <<< 10)

/-- `ERASE_BLK_EN` (R39). -/
def eraseBlkEn (csd : List Byte) : Bool :=
  (byteAt csd 10 &&& 0x40) != 0

/-- `SECTOR_SIZE_SD` (R39). -/
def sectorSizeSd (csd : List Byte) : Nat :=
  ((byteAt csd 10 &&& 0x3F).toNat <<< 1) + (byteAt csd 11 >>> 7).toNat

/-- `ERASE_GRP_SIZE` (R39). -/
def eraseGrpSize (csd : List Byte) : Nat :=
  ((byteAt csd 10 &&& 0x7C) >>> 2).toNat

/-- `ERASE_GRP_MULT` (R39). -/
def eraseGrpMult (csd : List Byte) : Nat :=
  ((byteAt csd 10 &&& 0x03).toNat <<< 3) + (byteAt csd 11 >>> 5).toNat

/-- `AU`, the allocation-unit code of the SD status (R49). -/
def auCode (sds : List Byte) : Nat :=
  (byteAt sds 10 >>> 4).toNat

/-! ## Geometry formulas: exact in `Nat`, narrowed at the end (R241) -/

/-- R233: `(c_size << 10) mod 2^32`, `c_size` being the field plus 1. -/
def sectorsV2 (csd : List Byte) : Word :=
  BitVec.ofNat 32 ((cSizeV2 csd + 1) <<< Config.cSizeV2Shift)

/-- R234: the shift factor `n` of a version 1 CSD. -/
def shiftV1 (csd : List Byte) : Nat :=
  readBlLen csd + cSizeMult csd + 2

/-- R234: `c_size << (n - 9)`, for `n ≥ 9`. -/
def sectorsV1 (csd : List Byte) : Word :=
  BitVec.ofNat 32 ((cSizeV1 csd + 1) <<< (shiftV1 csd - 9))

/-- R237: `16 << AU`. -/
def eraseSectorsSdv2 (sds : List Byte) : Word :=
  BitVec.ofNat 32 (16 <<< auCode sds)

/-- R238: `(SECTOR_SIZE + 1) << WBL_SHIFT_SDV1`. -/
def eraseSectorsSdv1 (csd : List Byte) : Word :=
  BitVec.ofNat 32 ((sectorSizeSd csd + 1) <<< Config.wblShiftSdv1)

/-- R239: `(size + 1) * (mult + 1)`. -/
def eraseSectorsMmc (csd : List Byte) : Word :=
  BitVec.ofNat 32 ((eraseGrpSize csd + 1) * (eraseGrpMult csd + 1))

/-- R261: a CSD shows erase support when its structure is not version 1 (0) or its `ERASE_BLK_EN` is set. -/
def csdSupportsErase (csd : List Byte) : Bool :=
  csdStructure csd != 0 || eraseBlkEn csd

/-- R27: `S.sectorSize` is hardwired. -/
def State.sectorSize (_ : State) : Word :=
  BitVec.ofNat 32 Config.sectorSize

end Sys2Proof.Machine
end

