-- ==== Sys2Proof/Machine/Ops.lean ====
section
/-! DEFINITION. The operations every meaning is built from: host memory (spec/10_state.md R42), the seven transport
primitives (40_transport.md R130 to R136), deadlines and waits (R137 to R139), select and deselect (R140, R141),
power and idle clocks (R142 to R144), the diagnostic event (60_exceptions.md R311), and how an operation is accepted
and how its reply, a failure's Result included, is delivered (R28, R297, R301, R304). -/

namespace Sys2Proof.Machine

/-- A procedure of the transport side: it reads and writes the lines, the history, the oracles' answers and the
scratch, and cannot touch an engine register or the host's memory. -/
abbrev Transport (α : Type) := StateM Bus α

/-- A procedure of the whole engine. -/
abbrev Engine (α : Type) := StateM State α

/-- A transport procedure run by the engine. -/
def onBus {α : Type} (m : Transport α) : Engine α := fun s =>
  ((m s.bus).1, { s with bus := (m s.bus).2 })

/-! ## Host memory -/

/-- What an address the list does not hold reads as: 0x00.  DESIGN CHOICE, unsafe (log 6). -/
def Memory.unlisted : Byte := 0x00

/-- One byte of the host's memory. -/
def Memory.read (m : Memory) (a : Nat) : Byte :=
  match m with
  | [] => Memory.unlisted
  | (k, b) :: rest => if a = k then b else if a < k then Memory.unlisted else Memory.read rest a

/-- `m` with `v` at `a`, an entry only where `v` is not what an unlisted address reads as. -/
def Memory.write (m : Memory) (a : Nat) (v : Byte) : Memory :=
  match m with
  | [] => if v = Memory.unlisted then [] else [(a, v)]
  | (k, b) :: rest =>
    if a < k then (if v = Memory.unlisted then (k, b) :: rest else (a, v) :: (k, b) :: rest)
    else if a = k then (if v = Memory.unlisted then rest else (a, v) :: rest)
    else (k, b) :: Memory.write rest a v

/-- `n` bytes from `a` up. -/
def Memory.readBytes (m : Memory) (a : Nat) : Nat → List Byte
  | 0 => []
  | n + 1 => m.read a :: Memory.readBytes m (a + 1) n

/-- The bytes stored from `a` up, in order (R62). -/
def Memory.writeBytes (m : Memory) (a : Nat) : List Byte → Memory
  | [] => m
  | v :: rest => (Memory.writeBytes m (a + 1) rest).write a v

/-- The canonical form: addresses strictly rising from `lo` up, no entry that an unlisted address reads as. -/
def Memory.wfFrom (lo : Nat) : Memory → Bool
  | [] => true
  | (k, b) :: rest => decide (lo ≤ k) && b != Memory.unlisted && Memory.wfFrom (k + 1) rest

/-- The canonical form holds. -/
def Memory.wf (m : Memory) : Bool :=
  Memory.wfFrom 0 m

/-- `BufRead` (R13): `n` bytes of the host buffer, by address. -/
def bufRead (a n : Nat) : Engine (List Byte) := fun s =>
  (s.mem.readBytes a n, s)

/-- `BufWrite` (R13). -/
def bufWrite (a : Nat) (data : List Byte) : Engine Unit := fun s =>
  ((), { s with mem := s.mem.writeBytes a data })

/-! ## The transport primitives -/

/-- One event appended to the history (R16, R48). -/
def Bus.append (b : Bus) (e : Event) : Bus :=
  { b with trace := e :: b.trace }

/-- The event history in call order (R16). -/
def Bus.history (b : Bus) : List Event :=
  b.trace.reverse

/-- R130: one full-duplex byte exchange; the answer is the oracle's next, a free one when none is in store. -/
def xchg (o : Byte) : Transport Byte := fun b =>
  match b.rx with
  | i :: rest => (i, { b with rx := rest, trace := .xchg o i :: b.trace })
  | [] =>
    (Config.freeByte b.draws,
      { b with draws := b.draws + 1, trace := .xchg o (Config.freeByte b.draws) :: b.trace })

/-- The tick shows `v`. -/
def Bus.shown (v : Word) (b : Bus) : Bus :=
  { b with tick := v, trace := .now v :: b.trace }

/-- A free tick sample (R300 (a), (b)). -/
def Bus.freeSample (b : Bus) : Word :=
  tickBehind b.deadlines b.tick (Config.freeAdvance b.draws).toNat

/-- R136: the transport's millisecond tick, an oracle answer as in `xchg`. -/
def now : Transport Word := fun b =>
  match b.ticks with
  | v :: rest => (v, { b with ticks := rest }.shown v)
  | [] => (b.freeSample, { b with draws := b.draws + 1 }.shown b.freeSample)

/-- R133. -/
def setCS (level : CsLevel) : Transport Unit := fun b =>
  ((), { b with cs := level, trace := .cs level :: b.trace })

/-- R134. -/
def setPwr (level : PowerLevel) : Transport Unit := fun b =>
  ((), { b with pwr := level, trace := .pwr level :: b.trace })

/-- R135. -/
def setClk (rate : ClockRate) : Transport Unit := fun b =>
  ((), { b with clk := rate, trace := .clk rate :: b.trace })

/-- R311: `log(e)` appends an event and has no other effect. -/
def logEvent (e : LogEvent) : Transport Unit := fun b =>
  ((), b.append (.log e))

/-- R131: `n` exchanges that send the fill byte, the received bytes in order. -/
def burstRead : Nat → Transport (List Byte)
  | 0 => pure []
  | n + 1 => do
    let i ← xchg Config.fillByte
    let rest ← burstRead n
    pure (i :: rest)

/-- R132: the bytes sent in order, the received ones discarded. -/
def burstWrite : List Byte → Transport Unit
  | [] => pure ()
  | o :: rest => do
    let _ ← xchg o
    burstWrite rest

/-- `n` exchanges of the fill byte whose answers are discarded. -/
def fillBytes : Nat → Transport Unit
  | 0 => pure ()
  | n + 1 => do
    let _ ← xchg Config.fillByte
    fillBytes n

/-- `t0 <- v` in the scratch. -/
def Scratch.noteT0 (v : Word) (c : Scratch) : Scratch := { c with t0 := some v }
/-- The response and the poll counter in the scratch. -/
def Scratch.noteR1 (resp : Byte) (n : Nat) (c : Scratch) : Scratch := { c with resp := some resp, n := some n }
/-- The data response in the scratch. -/
def Scratch.noteResp (resp : Byte) (c : Scratch) : Scratch := { c with resp := some resp }
/-- The token in the scratch. -/
def Scratch.noteTok (tok : Byte) (c : Scratch) : Scratch := { c with tok := some tok }
/-- The CMD8 tail in the scratch. -/
def Scratch.noteR7 (r7 : List Byte) (c : Scratch) : Scratch := { c with r7 := some r7 }
/-- The OCR in the scratch. -/
def Scratch.noteOcr (ocr : List Byte) (c : Scratch) : Scratch := { c with ocr := some ocr }
/-- The CSD in the scratch. -/
def Scratch.noteCsd (csd : List Byte) (c : Scratch) : Scratch := { c with csd := some csd }
/-- The head of the SD status in the scratch. -/
def Scratch.noteSds (sds : List Byte) (c : Scratch) : Scratch := { c with sds := some sds }
/-- The remaining count and the buffer offset in the scratch. -/
def Scratch.noteProgress (count off : Nat) (c : Scratch) : Scratch :=
  { c with count := some count, off := some off }
/-- The candidate card class in the scratch. -/
def Scratch.noteTy (ty : Option CardClass) (c : Scratch) : Scratch := { c with ty := some ty }

/-- A write of the scratch (R30). -/
def setScratch (f : Scratch → Scratch) : Transport Unit := fun b =>
  ((), { b with scratch := f b.scratch })

/-- The unspecified u32 of R235, a fresh draw. -/
def drawSectors : Transport Word := fun b =>
  (Config.freeSectors b.draws, { b with draws := b.draws + 1 })

/-! ## Deadlines and waits -/

/-- `t0 <- now()`, the start of a wait; kept in the scratch register `t0` (R30). -/
def startWait : Transport Word := do
  let t0 ← now
  setScratch (.noteT0 t0)
  pure t0

/-- The deadlines that began at `starts` are running. -/
def Bus.withDeadlines (starts : List Word) (b : Bus) : Bus :=
  { b with deadlines := starts }

/-- A procedure run while the deadline that began at `t0` is running, besides those running already (R307).  Only the
free samples depend on it (log 1). -/
def under {α : Type} (t0 : Word) (m : Transport α) : Transport α := fun b =>
  match m (b.withDeadlines (t0 :: b.deadlines)) with
  | (x, c) => (x, c.withDeadlines b.deadlines)

/-- R137: one sample of the tick, tested. -/
def expired (t0 : Word) (T : Nat) : Transport Bool := do
  let v ← now
  pure (pastDeadline t0 T v)

/-- The sample by which a fair tick has passed the deadline (R300 (c), R147): the waits below come to it only when
every sample in store is used up and `Config.freePolls` further free samples found the deadline not yet reached. -/
def lastSample (t0 : Word) (T : Nat) : Transport Unit := fun b =>
  ((), { b with draws := b.draws + 1 }.shown
    (tickPast t0 T b.deadlines b.tick (Config.freeAdvance b.draws).toNat))

/-- The most samples a wait entered now may take without finding its deadline passed: every sample in store, and
a free number of free ones. -/
def pollBound (b : Bus) : Nat :=
  Config.freePolls b.draws + b.ticks.length

/-- The loop of R138. -/
def delayLoop (t0 : Word) (T : Nat) : Nat → Transport Unit
  | 0 => lastSample t0 T
  | n + 1 => do
    let e ← expired t0 T
    if e then pure () else delayLoop t0 T n

/-- R138: `delay(T)`. -/
def delay (T : Nat) : Transport Unit := do
  let t0 ← startWait
  under t0 fun b => delayLoop t0 T (pollBound b) b

/-- The loop of R139: the data test before the time test. -/
def readyLoop (t0 : Word) (T : Nat) : Nat → Transport Bool
  | 0 => do
    let d ← xchg Config.fillByte
    if d = Config.idleByte then pure true else do
      lastSample t0 T
      pure false
  | n + 1 => do
    let d ← xchg Config.fillByte
    if d = Config.idleByte then pure true else do
      let e ← expired t0 T
      if e then pure false else readyLoop t0 T n

/-- R139: `waitReady(T)`. -/
def waitReady (T : Nat) : Transport Bool := do
  let t0 ← startWait
  under t0 fun b => readyLoop t0 T (pollBound b) b

/-! ## Select, deselect, power -/

/-- R141. -/
def deselect : Transport Unit := do
  setCS .high
  let _ ← xchg Config.fillByte
  pure ()

/-- R140: false after a timeout, the card then deselected again. -/
def select : Transport Bool := do
  setCS .low
  let _ ← xchg Config.fillByte
  let ok ← waitReady Config.tReadyMs
  if ok then pure true else do
    deselect
    pure false

/-- R142, with the open parameter's value as argument. -/
def powerOn (waitMs : Nat) : Transport Unit := do
  setPwr .on
  setCS .high
  delay waitMs

/-- R143. -/
def powerOff : Transport Unit := do
  setPwr .off
  delay Config.tPowerDownMs

/-- R144: 80 clocks are 10 byte exchanges. -/
def idleClocks : Transport Unit :=
  fillBytes Config.nIdleBytes

/-! ## Accepting an operation and delivering its reply -/

/-- The return to the host (R28, R304): the operation's scratch is gone, the engine is idle again, and the reply
stands. -/
def deliver (r : Reply) (s : State) : State :=
  { s with busy := false, reply := some r, bus := { s.bus with scratch := {} } }

/-- An admitted operation run from acceptance to reply (R28). -/
def runOperation (op : Engine Reply) (s : State) : State :=
  deliver (op { s with busy := true }).1 (op { s with busy := true }).2

/-- A host operation (R28, R297): refused while another is in progress (U1); turned away with the Result of the
first admission test that fails, with no event and no other effect; else run. -/
def hostCall (admission : Option Result) (turnedAway : Result → Reply) (op : Engine Reply) (s : State) :
    Host.Outcome State Fault Refusal :=
  if s.busy then .refused .engineBusy
  else
    match admission with
    | some r => .next (deliver (turnedAway r) s)
    | none => .next (runOperation op s)

/-- The same for an operation over a lent buffer: once admitted, a buffer shorter than `count * 512` bytes is refused
(U21). -/
def bufferCall (admission : Option Result) (buf : HostBuf) (count : Nat) (op : Engine Reply) (s : State) :
    Host.Outcome State Fault Refusal :=
  if s.busy then .refused .engineBusy
  else
    match admission with
    | some r => .next (deliver (.result r) s)
    | none =>
      if buf.len < count * Config.sectorSize then .refused .bufferTooShort
      else .next (runOperation op s)

/-- The same for an operation that begins with a wait of `waitMs`: once admitted, a wait that cannot end leaves the
engine polling for ever (R137, R138, R147). -/
def waitCall (admission : Option Result) (turnedAway : Result → Reply) (waitMs : Nat) (op : Engine Reply) (s : State) :
    Host.Outcome State Fault Refusal :=
  if s.busy then .refused .engineBusy
  else
    match admission with
    | some r => .next (deliver (turnedAway r) s)
    | none => if canExpire waitMs then .next (runOperation op s) else .fault .powerOnWaitNeverEnds

/-- A wire-level instruction (R10): one command transaction or one token packet of the engine's; it returns a value
to the procedure it is part of, and its scratch and its selection of the card stay (R159, R197). -/
def wireCall (op : Engine Reply) (s : State) : Host.Outcome State Fault Refusal :=
  .next { (op s).2 with reply := some (op s).1 }

/-! ## What a step does with an input that is no instruction -/

/-- The environment changes its two flags, between host operations only (R24, U14). -/
def environmentStep (noMedia writeProtected : Bool) (s : State) : Host.Outcome State Fault Refusal :=
  if s.busy then .refused .environmentDuringOperation
  else .next { s with status := { s.status with noMedia := noMedia, writeProtected := writeProtected } }

/-- A request that names no instruction: a code outside R91 returns `InvalidParameter` with no bus traffic (R108,
D43); a frame or a token the engine never sends, or no code at all, is refused (R106, U2). -/
def undecodableStep (e : DecodeError) (s : State) : Host.Outcome State Fault Refusal :=
  match e with
  | .unknownCode _ => hostCall (some .invalidParameter) .result (pure (.result .invalidParameter)) s
  | .empty => .refused (.undecodable e)
  | .notAToken _ => .refused (.undecodable e)
  | .badLength => .refused (.undecodable e)
  | .notAFrame => .refused (.undecodable e)
  | .unlistedCommand _ => .refused (.undecodable e)
  | .badChecksum => .refused (.undecodable e)
  | .badArgument => .refused (.undecodable e)

end Sys2Proof.Machine
end

