-- ==== Sys2Proof/Machine/Command.lean ====
section
/-! DEFINITION. The Command Protocol Engine (spec/41_command_engine.md): `sendCommand` (R150 to R157) and the
meanings of the 19 wire commands (R160 to R178).  A wire command's meaning is its whole transaction: the reselect,
the frame, the stuff byte, the R1 poll, and the reply bytes that follow the R1 unframed (R101); data packets are
the tokens' (Block.lean).  Log 8. -/

namespace Sys2Proof.Machine

/-! ## sendCommand -/

/-- R154: the frame bytes sent in order, what is received meanwhile discarded. -/
def sendFrame (index : CmdIndex) (arg : Word) : Transport Unit :=
  burstWrite (frameBytes index arg)

/-- R156: after the frame of CMD12, and only CMD12, one exchange is discarded. -/
def stuffByte (index : CmdIndex) : Transport Unit :=
  if index = 12 then fillBytes 1 else pure ()

/-- The loop of R157: at least one exchange, at most `n + 1`; the last byte read is the response. -/
def pollLoop : Nat → Transport Byte
  | 0 => do
    let r ← xchg Config.fillByte
    setScratch (.noteR1 r 0)
    pure r
  | n + 1 => do
    let r ← xchg Config.fillByte
    if validR1 r then do
      setScratch (.noteR1 r (n + 1))
      pure r
    else pollLoop n

/-- R157: the R1 poll. -/
def pollR1 : Transport Byte :=
  pollLoop (Config.nR1Poll - 1)

/-- Steps 2 to 5 of R151: one plain command transaction. -/
def sendPlain (index : CmdIndex) (arg : Word) : Transport Byte := do
  deselect
  let ok ← select
  if ok then do
    sendFrame index arg
    stuffByte index
    pollR1
  else pure Config.r1Sentinel

/-- R151, R152: `sendCommand(c, arg)`; an application command is two transactions, the second only when the R1 of
CMD55 is at most 1. -/
def sendCommand (c : CommandCode) (arg : Word) : Transport Byte :=
  if c.app then do
    let r ← sendPlain 55 0
    if okOrIdleR1 r then sendPlain c.index arg else pure r
  else sendPlain c.index arg

/-! ## Unframed reply bytes (R101) -/

/-- The four bytes after CMD8's R1, kept as `r7` (R205). -/
def readR7 : Transport (List Byte) := do
  let r7 ← burstRead 4
  setScratch (.noteR7 r7)
  pure r7

/-- The four bytes after CMD58's R1, kept as `ocr` (R207, R279). -/
def readOcr : Transport (List Byte) := do
  let ocr ← burstRead 4
  setScratch (.noteOcr ocr)
  pure ocr

/-! ## The wire commands -/

/-- A command with nothing after its R1. -/
def plainCommand (c : CommandCode) (arg : Word) (s : State) : Host.Outcome State Fault Refusal :=
  wireCall (do
    let r ← onBus (sendCommand c arg)
    pure (.response r)) s

/-- A command with unframed bytes after an R1 that passes `test`. -/
def tailCommand {α : Type} (c : CommandCode) (arg : Word) (test : Byte → Bool) (tail : Transport α) (s : State) :
    Host.Outcome State Fault Refusal :=
  wireCall (do
    let r ← onBus (sendCommand c arg)
    if test r then do
      let _ ← onBus tail
      pure (.response r)
    else pure (.response r)) s

/-- R160. -/
def execCmd0 (s : State) : Host.Outcome State Fault Refusal := plainCommand (cmd 0) 0 s
/-- R161. -/
def execCmd1 (s : State) : Host.Outcome State Fault Refusal := plainCommand (cmd 1) 0 s
/-- R162, R101: four bytes follow an R1 of 0x01. -/
def execCmd8 (s : State) : Host.Outcome State Fault Refusal :=
  tailCommand (cmd 8) Config.cmd8Pattern idleR1 readR7 s
/-- R163. -/
def execCmd9 (s : State) : Host.Outcome State Fault Refusal := plainCommand (cmd 9) 0 s
/-- R164. -/
def execCmd10 (s : State) : Host.Outcome State Fault Refusal := plainCommand (cmd 10) 0 s
/-- R165. -/
def execCmd12 (s : State) : Host.Outcome State Fault Refusal := plainCommand (cmd 12) 0 s
/-- R166, R101: one discarded byte follows an R1 of 0x00. -/
def execAcmd13 (s : State) : Host.Outcome State Fault Refusal :=
  tailCommand (acmd 13) 0 acceptedR1 (fillBytes 1) s
/-- R167. -/
def execCmd16 (s : State) : Host.Outcome State Fault Refusal := plainCommand (cmd 16) Config.blockLenArg s
/-- R168. -/
def execCmd17 (arg : Word) (s : State) : Host.Outcome State Fault Refusal := plainCommand (cmd 17) arg s
/-- R169. -/
def execCmd18 (arg : Word) (s : State) : Host.Outcome State Fault Refusal := plainCommand (cmd 18) arg s
/-- R170. -/
def execAcmd23 (arg : Word) (s : State) : Host.Outcome State Fault Refusal := plainCommand (acmd 23) arg s
/-- R171. -/
def execCmd24 (arg : Word) (s : State) : Host.Outcome State Fault Refusal := plainCommand (cmd 24) arg s
/-- R172. -/
def execCmd25 (arg : Word) (s : State) : Host.Outcome State Fault Refusal := plainCommand (cmd 25) arg s
/-- R173. -/
def execCmd32 (arg : Word) (s : State) : Host.Outcome State Fault Refusal := plainCommand (cmd 32) arg s
/-- R174. -/
def execCmd33 (arg : Word) (s : State) : Host.Outcome State Fault Refusal := plainCommand (cmd 33) arg s
/-- R175. -/
def execCmd38 (s : State) : Host.Outcome State Fault Refusal := plainCommand (cmd 38) 0 s
/-- R176. -/
def execAcmd41 (arg : Word) (s : State) : Host.Outcome State Fault Refusal := plainCommand (acmd 41) arg s
/-- R177. -/
def execCmd55 (s : State) : Host.Outcome State Fault Refusal := plainCommand (cmd 55) 0 s
/-- R178, R101: four bytes follow an R1 of 0x00. -/
def execCmd58 (s : State) : Host.Outcome State Fault Refusal :=
  tailCommand (cmd 58) 0 acceptedR1 readOcr s

end Sys2Proof.Machine
end

