-- ==== Sys2Proof/Machine/Block.lean ====
section
/-! DEFINITION. The Block Transfer Engine (spec/42_block_transfer.md): `receiveBlock` (R190 to R192), `transmitBlock`
(R193 to R196), and the meanings of the three tokens (R103).  Neither touches the chip-select line (R197). -/

namespace Sys2Proof.Machine

/-! ## receiveBlock -/

/-- The token wait of R190, R191: the data test before the time test; the last byte read is the token. -/
def tokenLoop (t0 : Word) : Nat → Transport Byte
  | 0 => do
    let tok ← xchg Config.fillByte
    if tok = Config.idleByte then do
      lastSample t0 Config.tTokenMs
      pure tok
    else pure tok
  | n + 1 => do
    let tok ← xchg Config.fillByte
    if tok = Config.idleByte then do
      let e ← expired t0 Config.tTokenMs
      if e then pure tok else tokenLoop t0 n
    else pure tok

/-- The start of a received packet: the wait and the token it ends with, kept as `tok`. -/
def awaitToken : Transport Byte := do
  let t0 ← startWait
  let tok ← under t0 fun b => tokenLoop t0 (pollBound b) b
  setScratch (.noteTok tok)
  pure tok

/-- R190: the block's bytes, or `none` when it failed; nothing is read past a token that is not 0xFE. -/
def receiveBlock (length : Nat) : Transport (Option (List Byte)) := do
  let tok ← awaitToken
  if tok = Config.tokenStart then do
    let data ← burstRead length
    fillBytes 2
    pure (some data)
  else pure none

/-! ## transmitBlock -/

/-- The data path of R193: the block, two dummy check bytes, and one data response, kept as `resp` (R194). -/
def sendData (data : List Byte) : Transport Bool := do
  burstWrite data
  fillBytes 2
  let resp ← xchg Config.fillByte
  setScratch (.noteResp resp)
  pure (dataAccepted resp)

/-- R193: `data` is the 512 bytes to send, and is not accessed with the stop token (R195). -/
def transmitBlock (data : List Byte) (token : Byte) : Transport Bool := do
  let ok ← waitReady Config.tReadyMs
  if ok then do
    let _ ← xchg token
    if token = Config.tokenStop then pure true else sendData data
  else pure false

/-- The stop token (R195, R258). -/
def sendStop : Transport Bool :=
  transmitBlock [] Config.tokenStop

/-! ## The tokens -/

/-- A received packet stored from `dst` up: the destination is written only on success, and then whole (R190). -/
def receiveTo (dst len : Nat) : Engine Bool := do
  let got ← onBus (receiveBlock len)
  match got with
  | some data => do
    bufWrite dst data
    pure true
  | none => pure false

/-- A transmitted packet whose 512 bytes lie from `src` up. -/
def transmitFrom (src : Nat) (token : Byte) : Engine Bool := do
  let data ← bufRead src Config.sectorSize
  onBus (transmitBlock data token)

/-- A token's outcome as its reply. -/
def tokenReply (m : Engine Bool) : Engine Reply := do
  let ok ← m
  pure (.token ok)

/-- R190 for the token awaited, R193 for the token sent. -/
def execTokStartData (use : TokenUse) (s : State) : Host.Outcome State Fault Refusal :=
  match use with
  | .receive dst len => wireCall (tokenReply (receiveTo dst len)) s
  | .transmit src => wireCall (tokenReply (transmitFrom src Config.tokenStart)) s

/-- R193. -/
def execTokMultiWrite (src : Nat) (s : State) : Host.Outcome State Fault Refusal :=
  wireCall (tokenReply (transmitFrom src Config.tokenMulti)) s

/-- R195. -/
def execTokStopTran (s : State) : Host.Outcome State Fault Refusal :=
  wireCall (tokenReply (onBus sendStop)) s

end Sys2Proof.Machine
end

