-- ==== Sys2Proof/Machine/Geometry.lean ====
section
/-! DEFINITION. The Geometry/Capacity Decoder (spec/44_geometry.md): fetching the CSD (R230), the sector count
(R231 to R235) and the erase-block size (R236 to R239).  A decode answers a value computed from a complete register,
or `none` (R240). -/

namespace Sys2Proof.Machine

/-- R230: CMD9 and a packet of 16, kept as `csd`. -/
def readCSD : Transport (Option (List Byte)) := do
  let r ← sendCommand (cmd 9) 0
  if acceptedR1 r then do
    let got ← receiveBlock Config.csdLen
    match got with
    | some csd => do
      setScratch (.noteCsd csd)
      pure (some csd)
    | none => pure none
  else pure none

/-- R231 to R235: the sector count a CSD tells; a version 1 CSD whose shift factor is below 9 tells an unspecified
u32, drawn afresh (R235). -/
def sectorsOf (csd : List Byte) : Transport Word :=
  if csdStructure csd = 1 then pure (sectorsV2 csd)
  else if 9 ≤ shiftV1 csd then pure (sectorsV1 csd)
  else drawSectors

/-- R231. -/
def readSectorCount : Transport (Option Word) := do
  let got ← readCSD
  match got with
  | some csd => do
    let v ← sectorsOf csd
    pure (some v)
  | none => pure none

/-- R237: 16 bytes of the SD status kept as `sds`, two discarded as check bytes, 48 purged. -/
def eraseSdv2 : Transport (Option Word) := do
  let r ← sendCommand (acmd 13) 0
  if acceptedR1 r then do
    fillBytes 1
    let got ← receiveBlock Config.sdStatHead
    match got with
    | some sds => do
      setScratch (.noteSds sds)
      fillBytes Config.sdStatTail
      pure (some (eraseSectorsSdv2 sds))
    | none => pure none
  else pure none

/-- R238, R239: a formula over a CSD of its own. -/
def eraseFromCsd (formula : List Byte → Word) : Transport (Option Word) := do
  let got ← readCSD
  match got with
  | some csd => pure (some (formula csd))
  | none => pure none

/-- R236: by family; the addressing mode plays no part.  It runs only with a card classified (R213); with none it
decodes nothing. -/
def readEraseBlockSectors (c : Option CardClass) : Transport (Option Word) :=
  match c.map CardClass.family with
  | some .sdv2 => eraseSdv2
  | some .sdv1 => eraseFromCsd eraseSectorsSdv1
  | some .mmc => eraseFromCsd eraseSectorsMmc
  | none => pure none

end Sys2Proof.Machine
end

