-- ==== Sys2Proof/Machine/BlockIO.lean ====
section
/-! DEFINITION. The Block I/O Engine (spec/45_block_io.md): read (R250 to R265), write (R254 to R259) and erase
(R260 to R262). -/

namespace Sys2Proof.Machine

/-- The class register. -/
def readClass : Engine (Option CardClass) := fun s =>
  (s.cardClass, s)

/-- The remaining count and the buffer offset of the loops, as the scratch keeps them (R30). -/
def noteProgress (count off : Nat) : Engine Unit :=
  onBus (setScratch (.noteProgress count off))

/-- The close of read, write and TRIM (R263, R265, R259): always deselect, and `Ok` iff nothing remains. -/
def closeBlockIO (remaining : Nat) : Engine Reply := do
  onBus deselect
  pure (.result (if remaining = 0 then .ok else .error))

/-! ## read -/

/-- The block loop of R252: `count` blocks at `base + off` and up; answers how many are still missing. -/
def readBlocks (base : Nat) : (count off : Nat) → Engine Nat
  | 0, _ => pure 0
  | count + 1, off => do
    let ok ← receiveTo (base + off) Config.sectorSize
    if ok then do
      noteProgress count (off + Config.sectorSize)
      readBlocks base count (off + Config.sectorSize)
    else pure (count + 1)

/-- R251: CMD17 and one block at offset 0. -/
def readSingle (base : Nat) (a : Word) : Engine Nat := do
  let r ← onBus (sendCommand (cmd 17) a)
  if acceptedR1 r then do
    let ok ← receiveTo base Config.sectorSize
    pure (if ok then 0 else 1)
  else pure 1

/-- R252, R253: CMD18, the loop, and CMD12 once however the loop ended, its R1 not examined. -/
def readMultiple (base count : Nat) (a : Word) : Engine Nat := do
  let r ← onBus (sendCommand (cmd 18) a)
  if acceptedR1 r then do
    noteProgress count 0
    let remaining ← readBlocks base count 0
    let _ ← onBus (sendCommand (cmd 12) 0)
    pure remaining
  else pure count

/-- R250, past the admission tests. -/
def readOperation (buf : HostBuf) (sector : Word) (count : Nat) : Engine Reply := do
  let c ← readClass
  let remaining ←
    if count = 1 then readSingle buf.base (addr c sector) else readMultiple buf.base count (addr c sector)
  closeBlockIO remaining

/-- R250. -/
def execRead (drv : Nat) (buf : HostBuf) (sector : Word) (count : Nat) (s : State) :
    Host.Outcome State Fault Refusal :=
  bufferCall (admitRead drv count s) buf count (readOperation buf sector count) s

/-! ## write -/

/-- The block loop of R257, until the first block that fails; answers how many are still to be sent. -/
def writeBlocks (base : Nat) : (count off : Nat) → Engine Nat
  | 0, _ => pure 0
  | count + 1, off => do
    let ok ← transmitFrom (base + off) Config.tokenMulti
    if ok then do
      noteProgress count (off + Config.sectorSize)
      writeBlocks base count (off + Config.sectorSize)
    else pure (count + 1)

/-- R256: CMD24 and one block with token 0xFE. -/
def writeSingle (base : Nat) (a : Word) : Engine Nat := do
  let r ← onBus (sendCommand (cmd 24) a)
  if acceptedR1 r then do
    let ok ← transmitFrom base Config.tokenStart
    pure (if ok then 0 else 1)
  else pure 1

/-- R257: ACMD23 for an SD-family card, its result ignored. -/
def declareErase (c : Option CardClass) (count : Nat) : Engine Unit :=
  if isSdFamily c then do
    let _ ← onBus (sendCommand (acmd 23) (eraseCountArg count))
    pure ()
  else pure ()

/-- R257, R258: CMD25, the loop, and one stop token however the loop ended; a stop token that failed leaves 1. -/
def writeMultiple (base count : Nat) (c : Option CardClass) (a : Word) : Engine Nat := do
  declareErase c count
  let r ← onBus (sendCommand (cmd 25) a)
  if acceptedR1 r then do
    noteProgress count 0
    let remaining ← writeBlocks base count 0
    let ok ← onBus sendStop
    pure (if ok then remaining else 1)
  else pure count

/-- R254, past the admission tests. -/
def writeOperation (buf : HostBuf) (sector : Word) (count : Nat) : Engine Reply := do
  let c ← readClass
  let remaining ←
    if count = 1 then writeSingle buf.base (addr c sector) else writeMultiple buf.base count c (addr c sector)
  closeBlockIO remaining

/-- R254, R255. -/
def execWrite (drv : Nat) (buf : HostBuf) (sector : Word) (count : Nat) (s : State) :
    Host.Outcome State Fault Refusal :=
  bufferCall (admitWrite drv count s) buf count (writeOperation buf sector count) s

/-! ## erase -/

/-- One step of R262's sequence: a command, true iff accepted. -/
def accepts (n : CmdIndex) (arg : Word) : Transport Bool := do
  let r ← sendCommand (cmd n) arg
  pure (acceptedR1 r)

/-- R262: CMD32, CMD33, CMD38 and the 30-second ready wait, each only if what came before it succeeded. -/
def eraseSequence (st ed : Word) : Transport Bool := do
  let ok32 ← accepts 32 st
  if ok32 then do
    let ok33 ← accepts 33 ed
    if ok33 then do
      let ok38 ← accepts 38 0
      if ok38 then waitReady Config.tEraseMs else pure false
    else pure false
  else pure false

/-- R261: for an SD-family card a fresh CSD must show erase support; for any other card no command is sent. -/
def trimCard (c : Option CardClass) (st ed : Word) : Transport Bool :=
  if isSdFamily c then do
    let got ← readCSD
    match got with
    | some csd => if csdSupportsErase csd then eraseSequence (addr c st) (addr c ed) else pure false
    | none => pure false
  else pure false

/-- R260, past the admission test. -/
def trimOperation (st ed : Word) : Engine Reply := do
  let c ← readClass
  let ok ← onBus (trimCard c st ed)
  closeBlockIO (if ok then 0 else 1)

/-- R260: not gated by `WriteProtected` (R74). -/
def execIoctlTrim (drv : Nat) (st ed : Word) (s : State) : Host.Outcome State Fault Refusal :=
  hostCall (admitIoctl drv s) .result (trimOperation st ed) s

end Sys2Proof.Machine
end

