-- ==== Sys2Proof/Machine/Init.lean ====
section
/-! DEFINITION. The Initialization State Machine (spec/43_init_fsm.md R200 to R215). -/

namespace Sys2Proof.Machine

/-! ## Register writes -/

/-- `S.phase <- p` (R29). -/
def setPhase (p : Phase) : Engine Unit := fun s =>
  ((), { s with phase := p })

/-- `S.cardClass <- ty` (R212). -/
def setClass (ty : Option CardClass) : Engine Unit := fun s =>
  ((), { s with cardClass := ty })

/-- `S.status <- S.status \ {NotInitialized}` (R213). -/
def clearNotInitialized : Engine Unit := fun s =>
  ((), { s with status := s.status.clearNotInitialized })

/-- `S.status <- S.status ∪ {NotInitialized}` (R214). -/
def setNotInitialized : Engine Unit := fun s =>
  ((), { s with status := s.status.setNotInitialized })

/-! ## Classification -/

/-- The deadlines that began at `starts` are running. -/
def State.withDeadlines (starts : List Word) (s : State) : State :=
  { s with bus := s.bus.withDeadlines starts }

/-- `under` for a procedure of the whole engine. -/
def underDeadline {α : Type} (t0 : Word) (m : Engine α) : Engine α := fun s =>
  match m (s.withDeadlines (t0 :: s.bus.deadlines)) with
  | (x, t) => (x, t.withDeadlines s.bus.deadlines)

/-- The loop of R206 and R209: the deadline, then the command, until the deadline has passed or the R1 is 0x00. -/
def initLoop (c : CommandCode) (arg : Word) (t0 : Word) : Nat → Transport Unit
  | 0 => lastSample t0 Config.tInitMs
  | n + 1 => do
    let e ← expired t0 Config.tInitMs
    if e then pure () else do
      let r ← sendCommand c arg
      if acceptedR1 r then pure () else initLoop c arg t0 n

/-- R206, R209. -/
def pollInit (c : CommandCode) (arg : Word) (t0 : Word) : Transport Unit := fun b =>
  initLoop c arg t0 (pollBound b) b

/-- R207, R210: a command sent only if the deadline has not passed; true iff it was sent and accepted. -/
def withinDeadline (t0 : Word) (c : CommandCode) (arg : Word) : Transport Bool := do
  let e ← expired t0 Config.tInitMs
  if e then pure false else do
    let r ← sendCommand c arg
    pure (acceptedR1 r)

/-- R205 to R207: the SDv2 branch. -/
def classifySdv2 (t0 : Word) : Transport (Option CardClass) := do
  let r7 ← readR7
  if echoMatches r7 then do
    pollInit (acmd 41) Config.hcsArg t0
    let ok ← withinDeadline t0 (cmd 58) 0
    if ok then do
      let ocr ← readOcr
      pure (some (.sdv2 (ocrAddressing ocr)))
    else pure none
  else pure none

/-- R209, R210: the rest of the SDv1/MMC branch, with the command the probe chose. -/
def classifyLegacy (c : CommandCode) (k : CardClass) (t0 : Word) : Transport (Option CardClass) := do
  pollInit c 0 t0
  let ok ← withinDeadline t0 (cmd 16) Config.blockLenArg
  if ok then pure (some k) else pure none

/-- The part of R202 behind the sample `t0` (R204, R208). -/
def classifyBranch (t0 : Word) : Engine (Option CardClass) := do
  let r8 ← onBus (sendCommand (cmd 8) Config.cmd8Pattern)
  if idleR1 r8 then do
    setPhase .classifySdv2
    onBus (classifySdv2 t0)
  else do
    let r ← onBus (sendCommand (acmd 41) 0)
    if okOrIdleR1 r then do
      setPhase .classifySdv1
      onBus (classifyLegacy (acmd 41) .sdv1 t0)
    else do
      setPhase .classifyMmc
      onBus (classifyLegacy (cmd 1) .mmc t0)

/-- The part of R202 after an idle CMD0: its sample starts the deadline that runs until the classification ends
(R211). -/
def classifyIdle : Engine (Option CardClass) := do
  let t0 ← onBus startWait
  underDeadline t0 (classifyBranch t0)

/-- R203, R204: CMD0 once, and what follows if the card is then idle. -/
def classify : Engine (Option CardClass) := do
  let r0 ← onBus (sendCommand (cmd 0) 0)
  if idleR1 r0 then classifyIdle else pure none

/-! ## Geometry update (R215) -/

/-- The first half of R215. -/
def updateSectorCount : Engine Unit := do
  let got ← onBus readSectorCount
  onBus deselect
  match got with
  | some v => fun s => ((), { s with sectorCount := v })
  | none => onBus (logEvent (.geometryDecodeFailed .sectorCount))

/-- The second half of R215. -/
def updateEraseBlockSectors : Engine Unit := do
  let c ← fun s => (s.cardClass, s)
  let got ← onBus (readEraseBlockSectors c)
  onBus deselect
  match got with
  | some v => fun s => ((), { s with eraseBlockSectors := v })
  | none => onBus (logEvent (.geometryDecodeFailed .eraseBlockSectors))

/-- R215. -/
def updateGeometry : Engine Unit := do
  updateSectorCount
  updateEraseBlockSectors

/-! ## The operation -/

/-- R213. -/
def initSucceeded : Engine Unit := do
  onBus (setClk .fast)
  clearNotInitialized
  setPhase .ready
  updateGeometry

/-- R214, R302. -/
def initFailed : Engine Unit := do
  onBus powerOff
  setNotInitialized
  setPhase .failed

/-- R203: power on, slow clock, idle clocks. -/
def powerUp : Engine Unit := do
  let waitMs ← fun s => (s.powerOnWaitMs, s)
  onBus (powerOn waitMs)
  onBus (setClk .slow)
  onBus idleClocks
  setPhase .probing

/-- R202, past the drive-index test: the status register after the operation is the reply (R200). -/
def initOperation : Engine Reply := do
  powerUp
  let ty ← classify
  onBus (setScratch (.noteTy ty))
  setClass ty
  onBus deselect
  match ty with
  | some _ => initSucceeded
  | none => initFailed
  fun s => (.status s.status, s)

/-- R200, R201, R298: refused on account of no flag. -/
def execInitializeCard (drv : Nat) (s : State) : Host.Outcome State Fault Refusal :=
  waitCall (firstFailure [driveTest drv]) (fun _ => .status badDriveStatus) s.powerOnWaitMs initOperation s

end Sys2Proof.Machine
end

