-- ==== Sys2Proof/Machine/Surface.lean ====
section
/-! DEFINITION. The Control/Status Surface (spec/46_control_surface.md): the operations without bus traffic (R270 to
R276, R281) and the three register queries (R277 to R280). -/

namespace Sys2Proof.Machine

/-! ## Operations without bus traffic -/

/-- An operation that returns a value computed from the state and does nothing else. -/
def answer (f : State → Reply) : Engine Reply := fun s =>
  (f s, s)

/-- R270: the status register whole; R298 for a bad drive index. -/
def execStatus (drv : Nat) (s : State) : Host.Outcome State Fault Refusal :=
  hostCall (firstFailure [driveTest drv]) (fun _ => .status badDriveStatus) (answer fun s => .status s.status) s

/-- R271: `Ok` in every state. -/
def execSync (s : State) : Host.Outcome State Fault Refusal :=
  hostCall none .result (answer fun _ => .result .ok) s

/-- R273: not gated (R276). -/
def execSectorCount (s : State) : Host.Outcome State Fault Refusal :=
  hostCall none .result (answer fun s => .word s.sectorCount) s

/-- R274. -/
def execSectorSize (s : State) : Host.Outcome State Fault Refusal :=
  hostCall none .result (answer fun s => .word s.sectorSize) s

/-- R275: not gated (R276). -/
def execEraseBlockSectors (s : State) : Host.Outcome State Fault Refusal :=
  hostCall none .result (answer fun s => .word s.eraseBlockSectors) s

/-- R281. -/
def execIoctlGetCardClass (drv : Nat) (s : State) : Host.Outcome State Fault Refusal :=
  hostCall (admitIoctl drv s) (fun r => .cardClass r none) (answer fun s => .cardClass .ok (some s.cardClass)) s

/-! ## Register queries -/

/-- The frame of R277, past the gate: the body, deselect, and `Ok` with the bytes or `Error` without. -/
def query (body : Transport (Option (List Byte))) : Engine Reply := do
  let got ← onBus body
  onBus deselect
  match got with
  | some data => pure (.bytes .ok (some data))
  | none => pure (.bytes .error none)

/-- R277: the gate and the frame. -/
def queryCall (drv : Nat) (body : Transport (Option (List Byte))) (s : State) :
    Host.Outcome State Fault Refusal :=
  hostCall (admitIoctl drv s) (fun r => .bytes r none) (query body) s

/-- The body of R278: CMD10 and a packet of 16. -/
def cidBody : Transport (Option (List Byte)) := do
  let r ← sendCommand (cmd 10) 0
  if acceptedR1 r then receiveBlock Config.csdLen else pure none

/-- The body of R279: CMD58 and four unframed bytes. -/
def ocrBody : Transport (Option (List Byte)) := do
  let r ← sendCommand (cmd 58) 0
  if acceptedR1 r then do
    let ocr ← readOcr
    pure (some ocr)
  else pure none

/-- The body of R280: ACMD13, one discarded byte, and a packet of 64; the class is not tested. -/
def sdStatusBody : Transport (Option (List Byte)) := do
  let r ← sendCommand (acmd 13) 0
  if acceptedR1 r then do
    fillBytes 1
    receiveBlock Config.sdStatLen
  else pure none

/-- R278. -/
def execIoctlGetCid (drv : Nat) (s : State) : Host.Outcome State Fault Refusal :=
  queryCall drv cidBody s

/-- R279. -/
def execIoctlGetOcr (drv : Nat) (s : State) : Host.Outcome State Fault Refusal :=
  queryCall drv ocrBody s

/-- R280. -/
def execIoctlGetSdStatus (drv : Nat) (s : State) : Host.Outcome State Fault Refusal :=
  queryCall drv sdStatusBody s

end Sys2Proof.Machine
end

