-- ==== Sys2Proof/Machine/Dispatch.lean ====
section
/-! DEFINITION. One arm per instruction: the meaning it has. -/

namespace Sys2Proof.Machine

-- what an instruction does
def exec (i : Instr) (s : State) : Host.Outcome State Fault Refusal :=
  match i with
  | .initializeCard drv => Sys2Proof.Machine.execInitializeCard drv s
  | .status drv => Sys2Proof.Machine.execStatus drv s
  | .read drv buf sector count => Sys2Proof.Machine.execRead drv buf sector count s
  | .write drv buf sector count => Sys2Proof.Machine.execWrite drv buf sector count s
  | .sync => Sys2Proof.Machine.execSync s
  | .sectorCount => Sys2Proof.Machine.execSectorCount s
  | .sectorSize => Sys2Proof.Machine.execSectorSize s
  | .eraseBlockSectors => Sys2Proof.Machine.execEraseBlockSectors s
  | .ioctlTrim drv st ed => Sys2Proof.Machine.execIoctlTrim drv st ed s
  | .ioctlGetCid drv => Sys2Proof.Machine.execIoctlGetCid drv s
  | .ioctlGetOcr drv => Sys2Proof.Machine.execIoctlGetOcr drv s
  | .ioctlGetSdStatus drv => Sys2Proof.Machine.execIoctlGetSdStatus drv s
  | .ioctlGetCardClass drv => Sys2Proof.Machine.execIoctlGetCardClass drv s
  | .cmd0 => Sys2Proof.Machine.execCmd0 s
  | .cmd1 => Sys2Proof.Machine.execCmd1 s
  | .cmd8 => Sys2Proof.Machine.execCmd8 s
  | .cmd9 => Sys2Proof.Machine.execCmd9 s
  | .cmd10 => Sys2Proof.Machine.execCmd10 s
  | .cmd12 => Sys2Proof.Machine.execCmd12 s
  | .acmd13 => Sys2Proof.Machine.execAcmd13 s
  | .cmd16 => Sys2Proof.Machine.execCmd16 s
  | .cmd17 arg => Sys2Proof.Machine.execCmd17 arg s
  | .cmd18 arg => Sys2Proof.Machine.execCmd18 arg s
  | .acmd23 arg => Sys2Proof.Machine.execAcmd23 arg s
  | .cmd24 arg => Sys2Proof.Machine.execCmd24 arg s
  | .cmd25 arg => Sys2Proof.Machine.execCmd25 arg s
  | .cmd32 arg => Sys2Proof.Machine.execCmd32 arg s
  | .cmd33 arg => Sys2Proof.Machine.execCmd33 arg s
  | .cmd38 => Sys2Proof.Machine.execCmd38 s
  | .acmd41 arg => Sys2Proof.Machine.execAcmd41 arg s
  | .cmd55 => Sys2Proof.Machine.execCmd55 s
  | .cmd58 => Sys2Proof.Machine.execCmd58 s
  | .tokStartData use => Sys2Proof.Machine.execTokStartData use s
  | .tokMultiWrite src => Sys2Proof.Machine.execTokMultiWrite src s
  | .tokStopTran => Sys2Proof.Machine.execTokStopTran s

end Sys2Proof.Machine
end

