-- ==== Sys2Proof/Machine/Step.lean ====
section
/-! DEFINITION. One step: the next thing from outside, taken in order (spec/10_state.md R24, R28; 70_reset_and_hazards.md
R324), and where a table word is put so that the next step runs it. -/

namespace Sys2Proof.Machine

/-- One step.  With nothing waiting the engine idles (R324).  A change of the environment flags lands between
operations (R24).  A request is decoded and run. -/
def step (s : State) : Host.Outcome State Fault Refusal :=
  match s.inputs with
  | [] => .next s
  | .environment noMedia writeProtected :: rest => environmentStep noMedia writeProtected { s with inputs := rest }
  | .request r :: rest =>
    match decode r with
    | .ok i => exec i { s with inputs := rest }
    | .error e => undecodableStep e { s with inputs := rest }

/-- `s` with the instruction of the table's word `w` as the request the next step takes. -/
def State.withFetchWord (s : State) (nbits w : Nat) : State :=
  { s with inputs := .request (tableRequest nbits w) :: s.inputs }

end Sys2Proof.Machine
end

