-- ==== Sys2Proof/Safety.lean ====
section
/-! DEFINITION. The terms claims are stated in: what the oracles say in one piece of a conversation (`Talk`), the
ways a card can answer a wait, a command, a block (spec/30_encoding.md section 5), and the invariant of the machine at
rest. -/

namespace Sys2Proof.Machine

/-! ## A piece of the conversation between the engine and the oracles -/

/-- The bytes the bus answers, the tick samples taken, and the events that stand in the history, in call order. -/
structure Talk where
  rx     : List Byte
  ticks  : List Word
  events : List Event
  deriving DecidableEq, Repr

/-- One piece after another. -/
def Talk.append (k l : Talk) : Talk :=
  ⟨k.rx ++ l.rx, k.ticks ++ l.ticks, k.events ++ l.events⟩

/-- Several pieces, one after another. -/
def Talk.join : List Talk → Talk
  | [] => ⟨[], [], []⟩
  | k :: rest => k.append (Talk.join rest)

/-- The oracles have the answers of `k` in store, ahead of what is there. -/
def Bus.feed (k : Talk) (b : Bus) : Bus :=
  { b with rx := k.rx ++ b.rx, ticks := k.ticks ++ b.ticks }

/-- The events of `k` stand in the history, and the tick last showed the last sample of `k`. -/
def Bus.heard (k : Talk) (b : Bus) : Bus :=
  { b with trace := k.events.reverse ++ b.trace, tick := k.ticks.getLastD b.tick }

/-- The chip-select line at `level`. -/
def Bus.withCs (level : CsLevel) (b : Bus) : Bus :=
  { b with cs := level }

/-- The supply line at `level`. -/
def Bus.withPwr (level : PowerLevel) (b : Bus) : Bus :=
  { b with pwr := level }

/-- The clock at `rate`. -/
def Bus.withClk (rate : ClockRate) (b : Bus) : Bus :=
  { b with clk := rate }

/-- The scratch changed by `f`. -/
def Bus.withScratch (f : Scratch → Scratch) (b : Bus) : Bus :=
  { b with scratch := f b.scratch }

/-- A state whose oracles have the answers of `k` in store. -/
def State.feed (k : Talk) (s : State) : State :=
  { s with bus := s.bus.feed k }

/-- A state whose history has grown by the events of `k`. -/
def State.heard (k : Talk) (s : State) : State :=
  { s with bus := s.bus.heard k }

/-- The same state with another transport side. -/
def State.withBus (b : Bus) (s : State) : State :=
  { s with bus := b }

/-- The state after a host operation returned `r` and left the transport side `b`: idle, the scratch without a value
(R28, R30), everything else as it was. -/
def State.returning (r : Reply) (b : Bus) (s : State) : State :=
  { s with busy := false, reply := some r, bus := b.withScratch fun _ => {} }

/-- Exchanges that send the fill byte. -/
def fillTalk (received : List Byte) : Talk :=
  ⟨received, [], received.map (Event.xchg Config.fillByte)⟩

/-- Exchanges that send `sent` while `received` arrives. -/
def sendTalk (sent received : List Byte) : Talk :=
  ⟨received, [], List.zipWith Event.xchg sent received⟩

/-- One tick sample. -/
def nowTalk (v : Word) : Talk :=
  ⟨[], [v], [.now v]⟩

/-- One line event. -/
def lineTalk (e : Event) : Talk :=
  ⟨[], [], [e]⟩

/-- The events of `deselect` (R141), whatever the bus answers. -/
def deselectTalk (received : Byte) : Talk :=
  Talk.join [lineTalk (.cs .high), fillTalk [received]]

/-! ## Tick samples (R300) -/

/-- The milliseconds from the sample `v` to the last of the samples behind it, each step read forward (R300 (a)). -/
def elapsedFrom (v : Word) : List Word → Nat
  | [] => 0
  | w :: rest => (w - v).toNat + elapsedFrom w rest

/-- R300 (a), the premise of a claim on the tick (93 U17): between any two of the samples, of which `v` is the first,
less than 2^32 milliseconds pass. -/
def ticksHold (v : Word) (later : List Word) : Bool :=
  elapsedFrom v later < 2 ^ Config.tickWidth

/-- The sample an event records. -/
def Event.sample : Event → Option Word
  | .now v => some v
  | .xchg _ _ | .cs _ | .pwr _ | .clk _ | .log _ => none

/-- The tick samples taken so far, in order (R136). -/
def Bus.samples (b : Bus) : List Word :=
  b.history.filterMap Event.sample

/-- The samples taken are those of the stream `l`, each once and in its order, for as long as it lasts: what of `l` is
not yet taken stands in store; and the tick shows the last sample taken. -/
structure Bus.TakesFrom (l : List Word) (b : Bus) : Prop where
  stream : l <+: b.samples ++ b.ticks
  last : ∀ v, b.samples.getLast? = some v → b.tick = v

/-- The samples taken from `b` to `c`, of which there is one at least, keep R300 (a). -/
def Bus.SamplesHold (b c : Bus) : Prop :=
  ∃ start later, c.samples = b.samples ++ start :: later
    ∧ ticksHold start later = true

/-! ## Waits (R139, R190) -/

/-- Polls that did not end a wait: each byte, and the sample taken after it. -/
def pollsTalk (polls : List (Byte × Word)) : Talk :=
  Talk.join (polls.map fun p => (fillTalk [p.1]).append (nowTalk p.2))

/-- A ready wait that ends with the idle byte: the sample it starts with, and the busy polls before the idle byte. -/
structure ReadyWait where
  start : Word
  busy  : List (Byte × Word)
  deriving DecidableEq, Repr

/-- Every poll before the last read a busy byte with the deadline `T` not reached. -/
def ReadyWait.valid (w : ReadyWait) (T : Nat) : Bool :=
  w.busy.all fun p => p.1 != Config.idleByte && !pastDeadline w.start T p.2

/-- Its conversation. -/
def ReadyWait.talk (w : ReadyWait) : Talk :=
  Talk.join [nowTalk w.start, pollsTalk w.busy, fillTalk [Config.idleByte]]

/-- A ready wait that times out: busy bytes only, the last sample at or past the deadline. -/
structure BusyWait where
  start    : Word
  busy     : List (Byte × Word)
  lastByte : Byte
  lastTick : Word
  deriving DecidableEq, Repr

/-- No poll read the idle byte, and only the last sample found the deadline `T` reached. -/
def BusyWait.valid (w : BusyWait) (T : Nat) : Bool :=
  (w.busy.all fun p => p.1 != Config.idleByte && !pastDeadline w.start T p.2)
    && w.lastByte != Config.idleByte && pastDeadline w.start T w.lastTick

/-- Its conversation. -/
def BusyWait.talk (w : BusyWait) : Talk :=
  Talk.join [nowTalk w.start, pollsTalk (w.busy ++ [(w.lastByte, w.lastTick)])]

/-- A ready wait, whichever way it ends. -/
inductive Wait where
  | ready (w : ReadyWait)
  | busy (w : BusyWait)
  deriving DecidableEq, Repr

/-- It ends as it says, by the deadline `T`. -/
def Wait.valid (T : Nat) : Wait → Bool
  | .ready w => w.valid T
  | .busy w => w.valid T

/-- Its conversation. -/
def Wait.talk : Wait → Talk
  | .ready w => w.talk
  | .busy w => w.talk

/-- The sample it starts with. -/
def Wait.start : Wait → Word
  | .ready w => w.start
  | .busy w => w.start

/-- The result is true iff the last byte read was the idle byte (R139). -/
def Wait.ok : Wait → Bool
  | .ready _ => true
  | .busy _ => false

/-- A pure delay (R138): the sample it starts with, those that found the deadline not reached, and the one that found
it reached. -/
structure Delay where
  start : Word
  early : List Word
  last  : Word
  deriving DecidableEq, Repr

/-- Only the last sample found `T` reached. -/
def Delay.valid (d : Delay) (T : Nat) : Bool :=
  (d.early.all fun v => !pastDeadline d.start T v) && pastDeadline d.start T d.last

/-- Its conversation: no exchange. -/
def Delay.talk (d : Delay) : Talk :=
  Talk.join (nowTalk d.start :: (d.early ++ [d.last]).map nowTalk)

/-! ## Command transactions (R151) -/

/-- How the bus answers one plain command transaction in which the card gets selected. -/
structure Answer where
  onDeselect : Byte
  onSelect   : Byte
  wait       : ReadyWait
  onFrame    : List Byte
  onStuff    : Byte
  polled     : List Byte
  deriving DecidableEq, Repr

/-- The last byte polled (R102). -/
def Answer.resp (a : Answer) : Byte :=
  a.polled.getLastD 0

/-- The wait ends in time; six bytes arrive during the frame; at most ten bytes are polled, every one but the last
with bit 7 set, the last with bit 7 clear or the tenth (R102, R157). -/
def Answer.valid (a : Answer) : Bool :=
  a.wait.valid Config.tReadyMs && a.onFrame.length == 6 && a.polled.length != 0
    && decide (a.polled.length ≤ Config.nR1Poll) && (a.polled.dropLast.all fun x => !validR1 x)
    && (validR1 a.resp || a.polled.length == Config.nR1Poll)

/-- The events of `select` (R140) up to the end of its ready wait `wait`. -/
def selectTalk (onSelect : Byte) (wait : Talk) : Talk :=
  Talk.join [lineTalk (.cs .low), fillTalk [onSelect], wait]

/-- The bytes discarded after the frame of CMD12 only (R156). -/
def Answer.stuff (a : Answer) (index : CmdIndex) : List Byte :=
  if index = 12 then [a.onStuff] else []

/-- The conversation of one plain command transaction. -/
def Answer.talk (a : Answer) (index : CmdIndex) (arg : Word) : Talk :=
  Talk.join [deselectTalk a.onDeselect, selectTalk a.onSelect a.wait.talk, sendTalk (frameBytes index arg) a.onFrame,
    fillTalk (a.stuff index), fillTalk a.polled]

/-- The scratch after it: `t0` of its wait, the response, and the poll counter. -/
def Answer.note (a : Answer) (c : Scratch) : Scratch :=
  (c.noteT0 a.wait.start).noteR1 a.resp (Config.nR1Poll - a.polled.length)

/-- How the bus answers a transaction whose selection times out. -/
structure NoSelect where
  onDeselect : Byte
  onSelect   : Byte
  wait       : BusyWait
  onRelease  : Byte
  deriving DecidableEq, Repr

/-- Its wait times out. -/
def NoSelect.valid (a : NoSelect) : Bool :=
  a.wait.valid Config.tReadyMs

/-- Its conversation: no frame byte is sent. -/
def NoSelect.talk (a : NoSelect) : Talk :=
  Talk.join [deselectTalk a.onDeselect, selectTalk a.onSelect a.wait.talk, deselectTalk a.onRelease]

/-- One plain command transaction, whether or not the card gets selected. -/
inductive Transaction where
  | answered (a : Answer)
  | unselected (a : NoSelect)
  deriving DecidableEq, Repr

def Transaction.valid : Transaction → Bool
  | .answered a => a.valid
  | .unselected a => a.valid

/-- Its response, the sentinel when the card was not selected (R153). -/
def Transaction.resp : Transaction → Byte
  | .answered a => a.resp
  | .unselected _ => Config.r1Sentinel

/-- Its conversation. -/
def Transaction.talk (index : CmdIndex) (arg : Word) : Transaction → Talk
  | .answered a => a.talk index arg
  | .unselected a => a.talk

/-- The scratch after it. -/
def Transaction.note : Transaction → Scratch → Scratch
  | .answered a => a.note
  | .unselected a => .noteT0 a.wait.start

/-- The chip-select line after it (R159). -/
def Transaction.level : Transaction → CsLevel
  | .answered _ => .low
  | .unselected _ => .high

/-- One `sendCommand` (R151): a plain command's transaction, or an application command's two, of which the second
stands only when the R1 of CMD55 is at most 1 (R152). -/
inductive CommandRun where
  | plain (p : Transaction)
  | app (announce : Transaction) (command : Option Transaction)
  deriving DecidableEq, Repr

/-- The run is one of the command code `c`. -/
def CommandRun.valid (c : CommandCode) : CommandRun → Bool
  | .plain p => !c.app && p.valid
  | .app p q => c.app && p.valid && q.isSome == okOrIdleR1 p.resp && q.all Transaction.valid

/-- What `sendCommand` returns (R150). -/
def CommandRun.resp : CommandRun → Byte
  | .plain p => p.resp
  | .app p q => (q.map Transaction.resp).getD p.resp

/-- Its conversation. -/
def CommandRun.talk (c : CommandCode) (arg : Word) : CommandRun → Talk
  | .plain p => p.talk c.index arg
  | .app p q => Talk.join (p.talk 55 0 :: q.toList.map (Transaction.talk c.index arg))

/-- The scratch after it. -/
def CommandRun.note : CommandRun → Scratch → Scratch
  | .plain p => p.note
  | .app p none => p.note
  | .app p (some q) => fun c => q.note (p.note c)

/-- The chip-select line after it. -/
def CommandRun.level : CommandRun → CsLevel
  | .plain p => p.level
  | .app p q => (q.map Transaction.level).getD p.level

/-- The card accepted the command (R158). -/
def CommandRun.accepted (r : CommandRun) : Bool :=
  acceptedR1 r.resp

/-! ## Data packets (R105) -/

/-- A received packet: the sample the token wait starts with, one sample after each idle byte, the data, the two
check bytes. -/
structure Packet where
  start  : Word
  idle   : List Word
  data   : List Byte
  check0 : Byte
  check1 : Byte
  deriving DecidableEq, Repr

/-- The token arrives while the 200 ms have not passed. -/
def Packet.valid (p : Packet) (length : Nat) : Bool :=
  (p.idle.all fun v => !pastDeadline p.start Config.tTokenMs v) && p.data.length == length

/-- The token wait's conversation. -/
def tokenTalk (start : Word) (idle : List Word) : Talk :=
  Talk.join [nowTalk start, pollsTalk (idle.map fun v => (Config.idleByte, v))]

/-- Its conversation. -/
def Packet.talk (p : Packet) : Talk :=
  Talk.join [tokenTalk p.start p.idle, fillTalk [Config.tokenStart], fillTalk p.data,
    fillTalk [p.check0, p.check1]]

/-- A packet that does not come: some other byte than the token after the idle bytes. -/
structure BadToken where
  start : Word
  idle  : List Word
  tok   : Byte
  deriving DecidableEq, Repr

/-- The byte is neither idle nor the start token, and came while the 200 ms had not passed. -/
def BadToken.valid (p : BadToken) : Bool :=
  (p.idle.all fun v => !pastDeadline p.start Config.tTokenMs v)
    && p.tok != Config.idleByte && p.tok != Config.tokenStart

/-- Its conversation: nothing is read past the byte. -/
def BadToken.talk (p : BadToken) : Talk :=
  Talk.join [tokenTalk p.start p.idle, fillTalk [p.tok]]

/-- A token wait that times out: idle bytes only. -/
structure NoToken where
  start    : Word
  idle     : List Word
  lastTick : Word
  deriving DecidableEq, Repr

/-- Only the last sample found the 200 ms passed. -/
def NoToken.valid (p : NoToken) : Bool :=
  (p.idle.all fun v => !pastDeadline p.start Config.tTokenMs v) && pastDeadline p.start Config.tTokenMs p.lastTick

/-- Its conversation. -/
def NoToken.talk (p : NoToken) : Talk :=
  tokenTalk p.start (p.idle ++ [p.lastTick])

/-- One `receiveBlock` (R190), whichever way it ends. -/
inductive Reception where
  | packet (p : Packet)
  | badToken (p : BadToken)
  | noToken (p : NoToken)
  deriving DecidableEq, Repr

def Reception.valid (length : Nat) : Reception → Bool
  | .packet p => p.valid length
  | .badToken p => p.valid
  | .noToken p => p.valid

/-- Its conversation. -/
def Reception.talk : Reception → Talk
  | .packet p => p.talk
  | .badToken p => p.talk
  | .noToken p => p.talk

/-- The data, all of it or none (R67). -/
def Reception.data : Reception → Option (List Byte)
  | .packet p => some p.data
  | .badToken _ => none
  | .noToken _ => none

/-- The scratch after it: the sample its wait starts with, and its token. -/
def Reception.note : Reception → Scratch → Scratch
  | .packet p => fun c => (c.noteT0 p.start).noteTok Config.tokenStart
  | .badToken p => fun c => (c.noteT0 p.start).noteTok p.tok
  | .noToken p => fun c => (c.noteT0 p.start).noteTok Config.idleByte

/-- A transmitted packet: the ready wait, what arrives while the token, the 512 bytes and the two dummy bytes are
sent, and the data response. -/
structure Sent where
  wait    : ReadyWait
  onToken : Byte
  onData  : List Byte
  check0  : Byte
  check1  : Byte
  resp    : Byte
  deriving DecidableEq, Repr

/-- The card got ready in time, and 512 bytes arrived while the data went out. -/
def Sent.valid (p : Sent) : Bool :=
  p.wait.valid Config.tReadyMs && p.onData.length == Config.sectorSize

/-- Its conversation when `data` is sent behind `token`. -/
def Sent.talk (p : Sent) (token : Byte) (data : List Byte) : Talk :=
  Talk.join [p.wait.talk, sendTalk [token] [p.onToken], sendTalk data p.onData, fillTalk [p.check0, p.check1],
    fillTalk [p.resp]]

/-- A stop token that could be sent: the ready wait and what arrives while the token goes out. -/
structure Stopped where
  wait    : ReadyWait
  onToken : Byte
  deriving DecidableEq, Repr

/-- The card got ready in time. -/
def Stopped.valid (p : Stopped) : Bool :=
  p.wait.valid Config.tReadyMs

/-- Its conversation: no data, no response read (R195). -/
def Stopped.talk (p : Stopped) : Talk :=
  Talk.join [p.wait.talk, sendTalk [Config.tokenStop] [p.onToken]]

/-- One `transmitBlock` of data (R193), whichever way it ends. -/
inductive Transmission where
  | sent (p : Sent)
  | busy (w : BusyWait)
  deriving DecidableEq, Repr

def Transmission.valid : Transmission → Bool
  | .sent p => p.valid
  | .busy w => w.valid Config.tReadyMs

/-- Its conversation when `data` is sent behind `token`; a card that stays busy gets neither. -/
def Transmission.talk (token : Byte) (data : List Byte) : Transmission → Talk
  | .sent p => p.talk token data
  | .busy w => w.talk

/-- The data response was an acceptance (R104). -/
def Transmission.ok : Transmission → Bool
  | .sent p => dataAccepted p.resp
  | .busy _ => false

/-- The scratch after it. -/
def Transmission.note : Transmission → Scratch → Scratch
  | .sent p => fun c => (c.noteT0 p.wait.start).noteResp p.resp
  | .busy w => .noteT0 w.start

/-- One attempt to send the stop token (R258). -/
inductive StopRun where
  | stopped (p : Stopped)
  | busy (w : BusyWait)
  deriving DecidableEq, Repr

def StopRun.valid : StopRun → Bool
  | .stopped p => p.valid
  | .busy w => w.valid Config.tReadyMs

/-- Its conversation. -/
def StopRun.talk : StopRun → Talk
  | .stopped p => p.talk
  | .busy w => w.talk

/-- The token was sent. -/
def StopRun.ok : StopRun → Bool
  | .stopped _ => true
  | .busy _ => false

/-- The scratch after it. -/
def StopRun.note : StopRun → Scratch → Scratch
  | .stopped p => .noteT0 p.wait.start
  | .busy w => .noteT0 w.start

/-! ## Whole operations -/

/-- A command and the one packet that follows its acceptance: the CSD (R230), the CID (R278). -/
structure FetchRun where
  command : CommandRun
  packet  : Option Reception
  deriving DecidableEq, Repr

/-- The packet is received iff the command was accepted. -/
def FetchRun.valid (c : CommandCode) (length : Nat) (r : FetchRun) : Bool :=
  r.command.valid c && r.packet.isSome == r.command.accepted && r.packet.all (Reception.valid length)

/-- Its conversation. -/
def FetchRun.talk (c : CommandCode) (r : FetchRun) : Talk :=
  Talk.join (r.command.talk c 0 :: r.packet.toList.map Reception.talk)

/-- The register's bytes, all of them or none. -/
def FetchRun.data (r : FetchRun) : Option (List Byte) :=
  r.packet.bind Reception.data

/-- ACMD13, the byte discarded after its acceptance, and the packet behind it (R237, R280). -/
structure SdStatusRun where
  command : CommandRun
  packet  : Option (Byte × Reception)
  deriving DecidableEq, Repr

def SdStatusRun.valid (length : Nat) (r : SdStatusRun) : Bool :=
  r.command.valid (acmd 13) && r.packet.isSome == r.command.accepted && r.packet.all fun p => p.2.valid length

/-- Its conversation. -/
def SdStatusRun.talk (r : SdStatusRun) : Talk :=
  Talk.join (r.command.talk (acmd 13) 0 :: r.packet.toList.map fun p => Talk.join [fillTalk [p.1], p.2.talk])

/-- The bytes of the packet, all of them or none. -/
def SdStatusRun.data (r : SdStatusRun) : Option (List Byte) :=
  r.packet.bind fun p => p.2.data

/-- CMD58 and the four bytes after its acceptance (R279). -/
structure OcrRun where
  command : CommandRun
  ocr     : Option (List Byte)
  deriving DecidableEq, Repr

def OcrRun.valid (r : OcrRun) : Bool :=
  r.command.valid (cmd 58) && r.ocr.isSome == r.command.accepted && r.ocr.all fun x => x.length == 4

/-- Its conversation. -/
def OcrRun.talk (r : OcrRun) : Talk :=
  Talk.join (r.command.talk (cmd 58) 0 :: r.ocr.toList.map fillTalk)

/-- The command that starts a transfer of `count` blocks, the one for a single block or the other (R251, R252, R256,
R257). -/
def transferCommand (single multiple : CmdIndex) (count : Nat) : CommandCode :=
  cmd (if count = 1 then single else multiple)

/-- How the bus can answer a `read` past its admission (R250): the command, the blocks up to the last or the first
that fails, CMD12 behind the blocks of CMD18 (R253), the fill byte of the closing deselect. -/
structure ReadRun where
  command : CommandRun
  blocks  : List Reception
  stop    : Option CommandRun
  release : Byte
  deriving DecidableEq, Repr

/-- Every block but the last arrived, and the last did or ended the loop; nothing follows a rejected command; CMD12
is sent exactly once per accepted CMD18. -/
def ReadRun.valid (count : Nat) (r : ReadRun) : Bool :=
  r.command.valid (transferCommand 17 18 count) && r.blocks.all (Reception.valid Config.sectorSize)
    && r.stop.all (CommandRun.valid (cmd 12)) && r.stop.isSome == (r.command.accepted && count != 1)
    && (if r.command.accepted then
          decide (r.blocks.length ≤ count) && (r.blocks.dropLast.all fun x => x.data.isSome)
            && (r.blocks.getLast?.any fun x => x.data.isNone || r.blocks.length == count)
        else r.blocks.isEmpty)

/-- Its conversation, `a` being the argument of its command. -/
def ReadRun.talk (count : Nat) (a : Word) (r : ReadRun) : Talk :=
  Talk.join ([r.command.talk (transferCommand 17 18 count) a, Talk.join (r.blocks.map Reception.talk)]
    ++ r.stop.toList.map (CommandRun.talk (cmd 12) 0) ++ [deselectTalk r.release])

/-- The bytes stored, block behind block (R42, R67). -/
def ReadRun.stored (r : ReadRun) : List Byte :=
  (r.blocks.filterMap Reception.data).flatten

/-- `Ok` iff every requested block arrived (R265). -/
def ReadRun.result (count : Nat) (r : ReadRun) : Result :=
  if (r.blocks.filterMap Reception.data).length = count then .ok else .error

/-- How the bus can answer a `write` past its admission (R254): ACMD23 for an SD-family card, the command, the blocks
up to the last or the first that fails, the stop token, the fill byte of the closing deselect. -/
structure WriteRun where
  declare : Option CommandRun
  command : CommandRun
  blocks  : List Transmission
  stop    : Option StopRun
  release : Byte
  deriving DecidableEq, Repr

/-- ACMD23 is sent for a multi-block write to an SD-family card, whatever comes of it; every block but the last was
accepted, and the last was or ended the loop; nothing follows a rejected command; the stop token is attempted exactly
once per accepted CMD25. -/
def WriteRun.valid (sd : Bool) (count : Nat) (r : WriteRun) : Bool :=
  r.declare.isSome == (sd && count != 1) && r.declare.all (CommandRun.valid (acmd 23))
    && r.command.valid (transferCommand 24 25 count) && r.blocks.all Transmission.valid
    && r.stop.all StopRun.valid && r.stop.isSome == (r.command.accepted && count != 1)
    && (if r.command.accepted then
          decide (r.blocks.length ≤ count) && (r.blocks.dropLast.all Transmission.ok)
            && (r.blocks.getLast?.any fun x => !x.ok || r.blocks.length == count)
        else r.blocks.isEmpty)

/-- The conversation of the blocks: each sends the next 512 bytes of the buffer behind `token` (R42, R62). -/
def blocksTalk (mem : Memory) (token : Byte) (a : Nat) : List Transmission → Talk
  | [] => Talk.join []
  | x :: rest =>
    (x.talk token (mem.readBytes a Config.sectorSize)).append (blocksTalk mem token (a + Config.sectorSize) rest)

/-- Its conversation, `a` being the argument of its command and `base` the buffer's address. -/
def WriteRun.talk (mem : Memory) (base count : Nat) (a : Word) (r : WriteRun) : Talk :=
  Talk.join (r.declare.toList.map (CommandRun.talk (acmd 23) (BitVec.ofNat 32 count))
    ++ [r.command.talk (transferCommand 24 25 count) a,
        blocksTalk mem (if count = 1 then Config.tokenStart else Config.tokenMulti) base r.blocks]
    ++ r.stop.toList.map StopRun.talk ++ [deselectTalk r.release])

/-- `Ok` iff every block was accepted and the stop token, where one is due, was sent (R259). -/
def WriteRun.result (count : Nat) (r : WriteRun) : Result :=
  if (r.blocks.filter Transmission.ok).length = count ∧ r.stop.all StopRun.ok then .ok else .error

/-- How the bus can answer the erase sequence (R262): the commands up to the first that is rejected, and the ready
wait after all three. -/
inductive EraseRun where
  | noStart (p : CommandRun)
  | noEnd (p q : CommandRun)
  | noErase (p q r : CommandRun)
  | erased (p q r : CommandRun) (w : Wait)
  deriving DecidableEq, Repr

def EraseRun.valid : EraseRun → Bool
  | .noStart p => p.valid (cmd 32) && !p.accepted
  | .noEnd p q => p.valid (cmd 32) && p.accepted && q.valid (cmd 33) && !q.accepted
  | .noErase p q r =>
    p.valid (cmd 32) && p.accepted && q.valid (cmd 33) && q.accepted && r.valid (cmd 38) && !r.accepted
  | .erased p q r w =>
    p.valid (cmd 32) && p.accepted && q.valid (cmd 33) && q.accepted && r.valid (cmd 38) && r.accepted
      && w.valid Config.tEraseMs

/-- Its conversation, `st` and `ed` being the arguments of CMD32 and CMD33. -/
def EraseRun.talk (st ed : Word) : EraseRun → Talk
  | .noStart p => p.talk (cmd 32) st
  | .noEnd p q => Talk.join [p.talk (cmd 32) st, q.talk (cmd 33) ed]
  | .noErase p q r => Talk.join [p.talk (cmd 32) st, q.talk (cmd 33) ed, r.talk (cmd 38) 0]
  | .erased p q r w => Talk.join [p.talk (cmd 32) st, q.talk (cmd 33) ed, r.talk (cmd 38) 0, w.talk]

/-- All three commands were accepted and the card got ready in 30 s. -/
def EraseRun.ok : EraseRun → Bool
  | .noStart _ | .noEnd _ _ | .noErase _ _ _ => false
  | .erased _ _ _ w => w.ok

/-- How the bus can answer a TRIM past its admission (R260): for an SD-family card the CSD, and the erase sequence
when the CSD shows erase support. -/
structure TrimRun where
  csd     : Option FetchRun
  erase   : Option EraseRun
  release : Byte
  deriving DecidableEq, Repr

/-- The CSD that was read, when one was. -/
def TrimRun.csdBytes (r : TrimRun) : Option (List Byte) :=
  r.csd.bind FetchRun.data

/-- No command for a card that is not of the SD family; no erase command without a CSD that shows erase support. -/
def TrimRun.valid (sd : Bool) (r : TrimRun) : Bool :=
  r.csd.isSome == sd && r.csd.all (FetchRun.valid (cmd 9) Config.csdLen)
    && r.erase.isSome == r.csdBytes.any csdSupportsErase && r.erase.all EraseRun.valid

/-- Its conversation. -/
def TrimRun.talk (st ed : Word) (r : TrimRun) : Talk :=
  Talk.join (r.csd.toList.map (FetchRun.talk (cmd 9)) ++ r.erase.toList.map (EraseRun.talk st ed)
    ++ [deselectTalk r.release])

/-- `Ok` iff the erase sequence ran to its end (R262). -/
def TrimRun.result (r : TrimRun) : Result :=
  if r.erase.any EraseRun.ok then .ok else .error

/-! ## `initialize` (R202) -/

/-- A wait loop of R206 or R209: the polls that were answered with something else than 0x00, each behind a sample that
found the deadline not reached; then a sample, and behind it the poll answered 0x00, unless it found the deadline
reached. -/
structure LoopRun where
  polls : List (Word × CommandRun)
  last  : Word
  won   : Option CommandRun
  deriving DecidableEq, Repr

def LoopRun.valid (c : CommandCode) (t0 : Word) (r : LoopRun) : Bool :=
  (r.polls.all fun p => !pastDeadline t0 Config.tInitMs p.1 && p.2.valid c && !p.2.accepted)
    && (r.won.all fun p => p.valid c && p.accepted) && r.won.isSome == !pastDeadline t0 Config.tInitMs r.last

/-- Its conversation. -/
def LoopRun.talk (c : CommandCode) (arg : Word) (r : LoopRun) : Talk :=
  Talk.join ((r.polls.map fun p => Talk.join [nowTalk p.1, p.2.talk c arg])
    ++ [nowTalk r.last] ++ r.won.toList.map (CommandRun.talk c arg))

/-- A command sent only if the deadline has not passed (R207, R210). -/
structure TimedRun where
  sample  : Word
  command : Option CommandRun
  deriving DecidableEq, Repr

def TimedRun.valid (c : CommandCode) (t0 : Word) (r : TimedRun) : Bool :=
  r.command.isSome == !pastDeadline t0 Config.tInitMs r.sample && r.command.all (CommandRun.valid c)

/-- Its conversation. -/
def TimedRun.talk (c : CommandCode) (arg : Word) (r : TimedRun) : Talk :=
  Talk.join (nowTalk r.sample :: r.command.toList.map (CommandRun.talk c arg))

/-- The command was sent and accepted. -/
def TimedRun.ok (r : TimedRun) : Bool :=
  r.command.any CommandRun.accepted

/-- What follows CMD8 (R204): its tail with a wrong echo (R205), the SDv2 branch (R206, R207), or the SDv1/MMC branch
with its probe (R208 to R210). -/
inductive BranchRun where
  | echoWrong (r7 : List Byte)
  | sdv2 (r7 : List Byte) (loop : LoopRun) (ocrCmd : TimedRun) (ocr : Option (List Byte))
  | legacy (probe : CommandRun) (loop : LoopRun) (lengthCmd : TimedRun)
  deriving DecidableEq, Repr

/-- The command of the SDv1/MMC branch's loop, chosen by the probe (R208). -/
def legacyCommand (probe : CommandRun) : CommandCode :=
  if okOrIdleR1 probe.resp then acmd 41 else cmd 1

/-- The branch follows a CMD8 that was accepted, or one that was not, as the case may be. -/
def BranchRun.valid (t0 : Word) (cmd8Accepted : Bool) : BranchRun → Bool
  | .echoWrong r7 => cmd8Accepted && r7.length == 4 && !echoMatches r7
  | .sdv2 r7 loop ocrCmd ocr =>
    cmd8Accepted && r7.length == 4 && echoMatches r7 && loop.valid (acmd 41) t0 && ocrCmd.valid (cmd 58) t0
      && ocr.isSome == ocrCmd.ok && ocr.all fun x => x.length == 4
  | .legacy probe loop lengthCmd =>
    !cmd8Accepted && probe.valid (acmd 41) && loop.valid (legacyCommand probe) t0 && lengthCmd.valid (cmd 16) t0

/-- Its conversation. -/
def BranchRun.talk : BranchRun → Talk
  | .echoWrong r7 => fillTalk r7
  | .sdv2 r7 loop ocrCmd ocr =>
    Talk.join ([fillTalk r7, loop.talk (acmd 41) Config.hcsArg, ocrCmd.talk (cmd 58) 0] ++ ocr.toList.map fillTalk)
  | .legacy probe loop lengthCmd =>
    Talk.join [probe.talk (acmd 41) 0, loop.talk (legacyCommand probe) 0, lengthCmd.talk (cmd 16) Config.blockLenArg]

/-- The class it ends with (R207, R210). -/
def BranchRun.cardClass : BranchRun → Option CardClass
  | .echoWrong _ => none
  | .sdv2 _ _ _ ocr => ocr.map fun x => .sdv2 (ocrAddressing x)
  | .legacy probe _ lengthCmd =>
    if lengthCmd.ok then some (if okOrIdleR1 probe.resp then .sdv1 else .mmc) else none

/-- The classification (R202): CMD0, and what follows when it found the card idle: the sample that starts the
deadline (R211), CMD8, the branch. -/
structure ClassifyRun where
  cmd0 : CommandRun
  idle : Option (Word × CommandRun × BranchRun)
  deriving DecidableEq, Repr

def ClassifyRun.valid (r : ClassifyRun) : Bool :=
  r.cmd0.valid (cmd 0) && r.idle.isSome == idleR1 r.cmd0.resp
    && r.idle.all fun p => p.2.1.valid (cmd 8) && p.2.2.valid p.1 (idleR1 p.2.1.resp)

/-- Its conversation. -/
def ClassifyRun.talk (r : ClassifyRun) : Talk :=
  Talk.join (r.cmd0.talk (cmd 0) 0
    :: r.idle.toList.map fun p => Talk.join [nowTalk p.1, p.2.1.talk (cmd 8) Config.cmd8Pattern, p.2.2.talk])

/-- The class it ends with. -/
def ClassifyRun.cardClass (r : ClassifyRun) : Option CardClass :=
  r.idle.bind fun p => p.2.2.cardClass

/-- How the bus can answer the erase-size decoder (R236): over the SD status, with the 48 bytes purged behind a packet
that came (R237), or over a CSD (R238, R239). -/
inductive EraseSizeRun where
  | sdStatus (r : SdStatusRun) (purged : Option (List Byte))
  | csd (r : FetchRun)
  deriving DecidableEq, Repr

/-- The family of the card says which of the two it is. -/
def EraseSizeRun.valid (k : CardClass) : EraseSizeRun → Bool
  | .sdStatus r purged =>
    k.family == .sdv2 && r.valid Config.sdStatHead && purged.isSome == r.data.isSome
      && purged.all fun x => x.length == Config.sdStatTail
  | .csd r => k.family != .sdv2 && r.valid (cmd 9) Config.csdLen

/-- Its conversation. -/
def EraseSizeRun.talk : EraseSizeRun → Talk
  | .sdStatus r purged => Talk.join (r.talk :: purged.toList.map fillTalk)
  | .csd r => r.talk (cmd 9)

/-- The value decoded, when one is. -/
def EraseSizeRun.value (k : CardClass) : EraseSizeRun → Option Word
  | .sdStatus r _ => r.data.map eraseSectorsSdv2
  | .csd r => r.data.map (if k.family == .sdv1 then eraseSectorsSdv1 else eraseSectorsMmc)

/-- How the bus can answer the geometry update (R215). -/
structure GeometryRun where
  csd      : FetchRun
  release₁ : Byte
  erase    : EraseSizeRun
  release₂ : Byte
  deriving DecidableEq, Repr

/-- The log event of a decode that failed, none when it succeeded (R215). -/
def logTalk {α : Type} (reg : GeometryReg) (v : Option α) : Talk :=
  ⟨[], [], if v.isNone then [.log (.geometryDecodeFailed reg)] else []⟩

def GeometryRun.valid (k : CardClass) (r : GeometryRun) : Bool :=
  r.csd.valid (cmd 9) Config.csdLen && r.erase.valid k

/-- Its conversation. -/
def GeometryRun.talk (k : CardClass) (r : GeometryRun) : Talk :=
  Talk.join [r.csd.talk (cmd 9), deselectTalk r.release₁, logTalk .sectorCount r.csd.data,
    r.erase.talk, deselectTalk r.release₂, logTalk .eraseBlockSectors (r.erase.value k)]

/-- The sector count a CSD tells is one the spec states (R235 states none for a version 1 shift factor below 9). -/
def sectorsStated (csd : List Byte) : Bool :=
  csdStructure csd == 1 || decide (9 ≤ shiftV1 csd)

/-- R231 to R234 where the spec states a value. -/
def sectorsValue (csd : List Byte) : Word :=
  if csdStructure csd = 1 then sectorsV2 csd else sectorsV1 csd

/-- How the bus can answer an `initialize`: the power-on delay, what arrives during the idle clocks, the
classification, the fill byte of the deselect behind it, and then the geometry update of a card that was classified,
or the power-down pause. -/
structure InitRun where
  powerUp   : Delay
  idle      : List Byte
  classify  : ClassifyRun
  release   : Byte
  geometry  : Option GeometryRun
  powerDown : Option Delay
  deriving DecidableEq, Repr

def InitRun.valid (powerOnMs : Nat) (r : InitRun) : Bool :=
  r.powerUp.valid powerOnMs && r.idle.length == Config.nIdleBytes && r.classify.valid
    && (match r.classify.cardClass with
        | some k => r.geometry.any (GeometryRun.valid k) && r.powerDown.isNone
        | none => r.geometry.isNone && r.powerDown.any (Delay.valid · Config.tPowerDownMs))

/-- Its conversation up to the deselect behind the classification. -/
def InitRun.opening (r : InitRun) : Talk :=
  Talk.join [lineTalk (.pwr .on), lineTalk (.cs .high), r.powerUp.talk, lineTalk (.clk .slow), fillTalk r.idle,
    r.classify.talk, deselectTalk r.release]

/-- Its conversation. -/
def InitRun.talk (r : InitRun) : Talk :=
  match r.classify.cardClass with
  | some k => Talk.join ([r.opening, lineTalk (.clk .fast)] ++ r.geometry.toList.map (GeometryRun.talk k))
  | none => Talk.join ([r.opening, lineTalk (.pwr .off)] ++ r.powerDown.toList.map Delay.talk)

/-! ## The wire commands by the frames they send (R96) -/

/-- The code and the argument of a wire command. -/
def commandOf : Instr → Option (CommandCode × Word)
  | .cmd0 => some (cmd 0, 0)
  | .cmd1 => some (cmd 1, 0)
  | .cmd8 => some (cmd 8, 0x000001AA)
  | .cmd9 => some (cmd 9, 0)
  | .cmd10 => some (cmd 10, 0)
  | .cmd12 => some (cmd 12, 0)
  | .acmd13 => some (acmd 13, 0)
  | .cmd16 => some (cmd 16, 512)
  | .cmd17 arg => some (cmd 17, arg)
  | .cmd18 arg => some (cmd 18, arg)
  | .acmd23 arg => some (acmd 23, arg)
  | .cmd24 arg => some (cmd 24, arg)
  | .cmd25 arg => some (cmd 25, arg)
  | .cmd32 arg => some (cmd 32, arg)
  | .cmd33 arg => some (cmd 33, arg)
  | .cmd38 => some (cmd 38, 0)
  | .acmd41 arg => some (acmd 41, arg)
  | .cmd55 => some (cmd 55, 0)
  | .cmd58 => some (cmd 58, 0)
  | .initializeCard _ | .status _ | .read _ _ _ _ | .write _ _ _ _ | .sync | .sectorCount | .sectorSize
  | .eraseBlockSectors | .ioctlTrim _ _ _ | .ioctlGetCid _ | .ioctlGetOcr _ | .ioctlGetSdStatus _
  | .ioctlGetCardClass _ | .tokStartData _ | .tokMultiWrite _ | .tokStopTran => none

/-- The bytes that follow the R1 unframed (R101): four after CMD8 answered 0x01 and CMD58 answered 0x00, one after
ACMD13 answered 0x00, else none. -/
def tailLength (i : Instr) (resp : Byte) : Nat :=
  if (i = .cmd8 ∧ resp = 0x01) ∨ (i = .cmd58 ∧ resp = 0x00) then 4 else if i = .acmd13 ∧ resp = 0x00 then 1 else 0

/-- The scratch after those bytes: the four of CMD8 are kept as `r7`, those of CMD58 as `ocr`. -/
def tailNote (i : Instr) (tail : List Byte) (c : Scratch) : Scratch :=
  if tail.length ≠ 4 then c else if i = .cmd8 then c.noteR7 tail else c.noteOcr tail

/-! ## The history -/

/-- The last level the chip-select line was driven to (R40), the history being newest first. -/
def lastCs : List Event → Option CsLevel
  | [] => none
  | .cs l :: _ => some l
  | .xchg _ _ :: rest | .pwr _ :: rest | .clk _ :: rest | .now _ :: rest | .log _ :: rest => lastCs rest

/-- The last level the supply line was driven to. -/
def lastPwr : List Event → Option PowerLevel
  | [] => none
  | .pwr l :: _ => some l
  | .xchg _ _ :: rest | .cs _ :: rest | .clk _ :: rest | .now _ :: rest | .log _ :: rest => lastPwr rest

/-- The last rate the clock was set to. -/
def lastClk : List Event → Option ClockRate
  | [] => none
  | .clk r :: _ => some r
  | .xchg _ _ :: rest | .cs _ :: rest | .pwr _ :: rest | .now _ :: rest | .log _ :: rest => lastClk rest

/-- Each line holds the level it was last driven to, where it has been driven at all (R40). -/
structure State.LinesAgree (s : State) : Prop where
  cs : ∀ l, lastCs s.bus.trace = some l → s.bus.cs = l
  pwr : ∀ l, lastPwr s.bus.trace = some l → s.bus.pwr = l
  clk : ∀ r, lastClk s.bus.trace = some r → s.bus.clk = r

/-- R323: until the first event the drive is not initialized, and the first event is `PWR(ON)`. -/
structure State.StartsWithPowerOn (s : State) : Prop where
  silent : s.bus.trace = [] → s.status.notInitialized = true
  first : s.bus.trace ≠ [] → s.bus.trace.getLast? = some (.pwr .on)

/-- The newest events are those of a `deselect` (R141). -/
def endsDeselected : List Event → Bool
  | .xchg o _ :: .cs .high :: _ => o == 0xFF
  | _ => false

/-- The events that may follow the last `deselect` of an `initialize` (R303). -/
def Event.afterDeselect : Event → Bool
  | .pwr .off | .now _ | .log _ => true
  | .pwr .on | .cs _ | .clk _ | .xchg _ _ => false

/-- The byte an exchange sent. -/
def Event.sent : Event → Option Byte
  | .xchg o _ => some o
  | .cs _ | .pwr _ | .clk _ | .now _ | .log _ => none

/-- A state whose history has `older` before its first event. -/
def State.withOlder (older : List Event) (s : State) : State :=
  { s with bus := { s.bus with trace := s.bus.trace ++ older } }

/-! ## What a step leaves alone -/

/-- The host memory an instruction may store to: its first address and its length in bytes (R42). -/
def storeRange : Instr → Option (Nat × Nat)
  | .read _ buf _ count => some (buf.base, count * 512)
  | .tokStartData (.receive dst len) => some (dst, len)
  | .tokStartData (.transmit _) => none
  | .initializeCard _ | .status _ | .write _ _ _ _ | .sync | .sectorCount | .sectorSize
  | .eraseBlockSectors | .ioctlTrim _ _ _ | .ioctlGetCid _ | .ioctlGetOcr _ | .ioctlGetSdStatus _
  | .ioctlGetCardClass _ | .cmd0 | .cmd1 | .cmd8 | .cmd9 | .cmd10 | .cmd12 | .acmd13 | .cmd16 | .cmd17 _
  | .cmd18 _ | .acmd23 _ | .cmd24 _ | .cmd25 _ | .cmd32 _ | .cmd33 _ | .cmd38 | .acmd41 _ | .cmd55 | .cmd58
  | .tokMultiWrite _ | .tokStopTran => none

/-- An outcome with its next state changed by `f`. -/
def mapNext (f : State → State) : Host.Outcome State Fault Refusal → Host.Outcome State Fault Refusal
  | .next s => .next (f s)
  | .fault r => .fault r
  | .refused r => .refused r

/-- The status with the environment's two flags set to `noMedia` and `writeProtected` (R24). -/
def DriveStatus.withFlags (noMedia writeProtected : Bool) (st : DriveStatus) : DriveStatus :=
  { st with noMedia := noMedia, writeProtected := writeProtected }

/-- A reply with the environment's flags set, where it carries a status. -/
def Reply.withFlags (noMedia writeProtected : Bool) : Reply → Reply
  | .status st => .status (st.withFlags noMedia writeProtected)
  | .result r => .result r
  | .word v => .word v
  | .bytes r data => .bytes r data
  | .cardClass r c => .cardClass r c
  | .response resp => .response resp
  | .token ok => .token ok

/-! ## The machine at rest -/

/-- The three resting values of `S.phase` (R29). -/
def Phase.resting : Phase → Bool
  | .poweredOff | .ready | .failed => true
  | .probing | .classifyMmc | .classifySdv1 | .classifySdv2 => false

/-- What holds between host operations: the engine is idle, the phase rests and is `Ready` exactly when
`NotInitialized` is clear (R29), a card is classified exactly then (R26, R212 to R214), the supply and the clock are as
the last `initialize` left them (R213, R214, R313), no deadline is running (R307), and the host's memory is in its
canonical form. -/
structure State.AtRest (s : State) : Prop where
  idle : s.busy = false
  resting : s.phase.resting = true
  ready_iff : s.phase = .ready ↔ s.status.notInitialized = false
  class_iff : s.cardClass = none ↔ s.status.notInitialized = true
  ready_lines : s.phase = .ready → s.bus.pwr = .on ∧ s.bus.clk = .fast
  failed_lines : s.phase = .failed → s.bus.pwr = .off ∧ s.bus.clk = .slow
  deadlines : s.bus.deadlines = []
  memory : s.mem.wf = true

/-- The engine is idle and initialized: the gate of `read`, `write` and the ioctls is open (R306). -/
def State.isOpen (s : State) : Bool :=
  !s.busy && !s.status.notInitialized

end Sys2Proof.Machine
end

