-- ==== Sys2Proof/Certificates/Slice0/Obligations.lean ====
section
/-! DEFINITION. The statements put to the provers. -/

open Sys2Proof Sys2Proof.Machine

/-! ## Encoding -/

/-- 30_encoding.md R91 to R106: no bit of an encoding is dropped. -/
def Obligations.DecodeOfEncode : Prop :=
  ∀ i : Instr, i.wellFormed = true → decode (encode i) = .ok i

/-- 30_encoding.md R91 to R106: each request that is decoded is decoded to a well-formed instruction whose own bytes
it carries. -/
def Obligations.EncodeOfDecode : Prop :=
  ∀ (r : Request) (i : Instr), decode r = .ok i → i.wellFormed = true ∧ (encode i).port = r.port
      ∧ (encode i).bytes = r.bytes

/-- 30_encoding.md R94, with the checksum byte of R98: the frame of every wire command as a 48-bit pattern. -/
def Obligations.FrameBits : Prop :=
  ∀ (i : Instr) (c : CommandCode) (arg : Word), commandOf i = some (c, arg) →
    ∃ b0 b1 b2 b3 b4 b5 : BitVec 8, (encode i).bytes = [b0, b1, b2, b3, b4, b5] ∧
      ((b0 ++ b1 ++ b2 ++ b3 ++ b4 ++ b5 : BitVec 48) =
        (0b01#2 ++ c.index ++ arg ++
          (if c.index = 0 then 0x95#8 else if c.index = 8 then 0x87#8 else 0x01#8) : BitVec 48))

/-- 30_encoding.md R96, R97, R106: which frames are commands of the engine, by index and argument. -/
def Obligations.ListedFrames : Prop :=
  ∀ (index : CmdIndex) (arg : Word),
    (∃ i, decode ⟨.wire, frameBytes index arg, {}⟩ = .ok i) ↔
      (index ∈ [17, 18, 23, 24, 25, 32, 33]
        ∨ (index ∈ [0, 1, 9, 10, 12, 13, 38, 55, 58] ∧ arg = 0)
        ∨ (index = 8 ∧ arg = 0x000001AA) ∨ (index = 16 ∧ arg = 512)
        ∨ (index = 41 ∧ (arg = 0 ∨ arg = 0x40000000)))

/-- 41_command_engine.md, the examples of R160, R162, R168, R170, R176; 30_encoding.md R91, R103. -/
def Obligations.SampleWords : Prop :=
  decodeTableWord 48 0x400000000095 = some .cmd0
    ∧ decodeTableWord 48 0x48000001AA87 = some .cmd8
    ∧ decodeTableWord 48 0x5100000A0001 = some (.cmd17 0xA00)
    ∧ decodeTableWord 48 0x570000000501 = some (.acmd23 5)
    ∧ decodeTableWord 48 0x694000000001 = some (.acmd41 0x40000000)
    ∧ decodeTableWord 8 0x02 = some (.read 0 ⟨0, 0⟩ 0 0)
    ∧ decodeTableWord 8 0xFC = some (.tokMultiWrite 0)

/-! ## The step -/

/-- A step takes the next request and runs the instruction it decodes to; nothing else happens around it. -/
def Obligations.StepRunsRequest : Prop :=
  ∀ (s : State) (r : Request) (rest : List HostInput) (i : Instr), s.inputs = .request r :: rest →
    decode r = .ok i → step s = exec i { s with inputs := rest }

/-- 70_reset_and_hazards.md R324: nothing runs by itself. -/
def Obligations.StepIdles : Prop :=
  ∀ s : State, s.inputs = [] → step s = .next s

/-- 30_encoding.md R108: any numeric code of the host's outside R91 returns `InvalidParameter` with no bus traffic. -/
def Obligations.UnknownCodeInvalid : Prop :=
  ∀ (s : State) (code : Byte) (ops : Operands) (rest : List HostInput),
    s.inputs = .request ⟨.host, [code], ops⟩ :: rest → s.busy = false →
    0x0D ≤ code.toNat →
    step s = .next (({ s with inputs := rest } : State).returning (.result .invalidParameter) s.bus)

/-- 10_state.md R24: the environment changes its two flags between operations only, and nothing else with them.  That
a change during an operation is refused is the model's choice (log 12; 93 U14). -/
def Obligations.EnvironmentBetweenOperations : Prop :=
  ∀ (s : State) (nm wp : Bool) (rest : List HostInput), s.inputs = .environment nm wp :: rest →
    step s = if s.busy then .refused .environmentDuringOperation
      else .next { s with inputs := rest, status := s.status.withFlags nm wp }

/-- 10_state.md R28, 93_implementation_defined.md U1: a host operation issued while another is in progress is
refused (log 12). -/
def Obligations.BusyRefused : Prop :=
  ∀ (i : Instr) (s : State), i.isHost = true → s.busy = true → exec i s = .refused .engineBusy

/-! ## Reset and invariants -/

/-- 70_reset_and_hazards.md R322. -/
def Obligations.ResetState : Prop :=
  State.reset.status.notInitialized = true ∧ State.reset.cardClass = none ∧ State.reset.sectorCount = 0
    ∧ State.reset.eraseBlockSectors = 0 ∧ State.reset.sectorSize = 512 ∧ State.reset.busy = false
    ∧ State.reset.phase = .poweredOff ∧ State.reset.bus.history = [] ∧ State.reset.bus.scratch = {}

/-- The invariants below hold right after reset. -/
def Obligations.ResetInvariants : Prop :=
  State.reset.AtRest ∧ State.reset.LinesAgree ∧ State.reset.StartsWithPowerOn
    ∧ State.reset.bus.TakesFrom []

/-- 10_state.md R26, R28, R29; 43_init_fsm.md R213, R214; 60_exceptions.md R304: what holds between operations is
kept by every step, whatever the bus answers. -/
def Obligations.StepKeepsAtRest : Prop :=
  ∀ s t : State, s.AtRest → step s = .next t → t.AtRest

/-- 10_state.md R40: the lines hold their last driven levels. -/
def Obligations.StepKeepsLinesAgree : Prop :=
  ∀ s t : State, s.LinesAgree → step s = .next t → t.LinesAgree

/-- 40_transport.md R136, 60_exceptions.md R300: the tick samples an instruction takes are those of the stream in the
state, each once and in order, and free ones only behind it (that the engine has a stream and free values is the model's
choice, log 1). -/
def Obligations.StepKeepsTickStream : Prop :=
  ∀ (l : List Word) (s t : State), s.bus.TakesFrom l → step s = .next t → t.bus.TakesFrom l

/-- 70_reset_and_hazards.md R323: reset causes no event; while not initialized only `initialize` reaches the bus; the
first event is the `PWR(ON)` of the first `initialize`. -/
def Obligations.HistoryStartsWithPowerOn : Prop :=
  State.reset.bus.history = []
    ∧ (∀ (i : Instr) (s t : State), i.isHost = true → (∀ drv, i ≠ .initializeCard drv) →
        s.status.notInitialized = true → exec i s = .next t → t.bus.history = s.bus.history)
    ∧ (∀ (i : Instr) (s t : State), i.isHost = true → s.StartsWithPowerOn → exec i s = .next t →
        t.StartsWithPowerOn)

/-- 10_state.md R48: the history starts empty, only grows, and the engine never reads it. -/
def Obligations.HistoryAppendOnly : Prop :=
  State.reset.bus.history = []
    ∧ (∀ s t : State, step s = .next t → ∃ newer, t.bus.history = s.bus.history ++ newer)
    ∧ (∀ (i : Instr) (s : State) (older : List Event),
        exec i (s.withOlder older) = mapNext (State.withOlder older) (exec i s))

/-! ## Frames -/

/-- 45_block_io.md R264, 10_state.md R22, R47, 46_control_surface.md R282 (e), 41_command_engine.md R150: no
instruction but `initialize` writes the status, the class, the geometry, the phase, the supply or the clock, whatever
its outcome. -/
def Obligations.OnlyInitializeWritesRegisters : Prop :=
  ∀ (i : Instr) (s t : State), (∀ drv, i ≠ .initializeCard drv) → exec i s = .next t →
    t.status = s.status ∧ t.cardClass = s.cardClass ∧ t.sectorCount = s.sectorCount
      ∧ t.eraseBlockSectors = s.eraseBlockSectors ∧ t.phase = s.phase ∧ t.bus.pwr = s.bus.pwr
      ∧ t.bus.clk = s.bus.clk ∧ t.inputs = s.inputs ∧ t.powerOnWaitMs = s.powerOnWaitMs ∧ t.resultCodes = s.resultCodes
      ∧ (i.isHost = false → t.busy = s.busy)

/-- 43_init_fsm.md R213, R214, 10_state.md R22, R24: `initialize` leaves the environment's flags, the host's memory and
the model's own inputs as they were. -/
def Obligations.InitializeFrame : Prop :=
  ∀ (drv : Nat) (s t : State), exec (.initializeCard drv) s = .next t →
    t.status.noMedia = s.status.noMedia ∧ t.status.writeProtected = s.status.writeProtected ∧ t.mem = s.mem
      ∧ t.inputs = s.inputs ∧ t.powerOnWaitMs = s.powerOnWaitMs ∧ t.resultCodes = s.resultCodes

/-- 10_state.md R42, 42_block_transfer.md R190: host memory is stored to by `read` within its buffer and by a received
packet within its destination, and by nothing else. -/
def Obligations.MemoryFrame : Prop :=
  ∀ (i : Instr) (s t : State), s.mem.wf = true → exec i s = .next t →
    match storeRange i with
    | some (base, len) => ∀ a, a < base ∨ base + len ≤ a → t.mem.read a = s.mem.read a
    | none => t.mem = s.mem

/-- 60_exceptions.md R303: a host operation that performs any transport call ends deselected, its last bus event the
fill byte of a `deselect`, behind which only `initialize` has more events; one that performs none leaves the line. -/
def Obligations.HostOperationsEndDeselected : Prop :=
  ∀ (i : Instr) (s t : State), i.isHost = true → exec i s = .next t →
    (t.bus.trace = s.bus.trace ∧ t.bus.cs = s.bus.cs)
      ∨ (t.bus.cs = .high ∧ ∃ newer, t.bus.trace = newer ++ s.bus.trace
          ∧ endsDeselected (newer.dropWhile Event.afterDeselect) = true
          ∧ ((∀ drv, i ≠ .initializeCard drv) → endsDeselected newer = true))

/-- 60_exceptions.md R296: no operation tests `NoMedia`; 20_memory.md R74: none but `write` tests `WriteProtected`,
TRIM included. -/
def Obligations.EnvironmentFlagsNotTested : Prop :=
  ∀ (i : Instr) (s : State) (nm wp : Bool),
    (∀ drv, i = .initializeCard drv ∨ i = .status drv → drv = 0) →
    (∀ drv buf sector count, i = .write drv buf sector count → wp = s.status.writeProtected) →
    exec i { s with status := s.status.withFlags nm wp } =
      mapNext (fun t => { t with
        status := t.status.withFlags nm wp
        reply := t.reply.map (Reply.withFlags nm wp) }) (exec i s)

/-! ## Admission -/

/-- 60_exceptions.md R297, 45_block_io.md R265, 46_control_surface.md R277: the admission tests in their order, each with
no event; past them, `Ok` or `Error`.  That an operation past them completes rests on the fair tick of log 2, and for
`read` and `write` on the buffer premise of log 11; both are the model's choices. -/
def Obligations.AdmissionOrder : Prop :=
  ∀ (s : State) (drv count : Nat) (buf : HostBuf) (sector st ed : Word), s.busy = false →
    (drv ≠ 0 →
      exec (.read drv buf sector count) s = .next (s.returning (.result .invalidParameter) s.bus)
      ∧ exec (.write drv buf sector count) s = .next (s.returning (.result .invalidParameter) s.bus)
      ∧ exec (.ioctlTrim drv st ed) s = .next (s.returning (.result .invalidParameter) s.bus)
      ∧ exec (.ioctlGetCid drv) s = .next (s.returning (.bytes .invalidParameter none) s.bus)
      ∧ exec (.ioctlGetOcr drv) s = .next (s.returning (.bytes .invalidParameter none) s.bus)
      ∧ exec (.ioctlGetSdStatus drv) s = .next (s.returning (.bytes .invalidParameter none) s.bus)
      ∧ exec (.ioctlGetCardClass drv) s = .next (s.returning (.cardClass .invalidParameter none) s.bus))
    ∧ (drv = 0 → count = 0 →
      exec (.read drv buf sector count) s = .next (s.returning (.result .invalidParameter) s.bus)
      ∧ exec (.write drv buf sector count) s = .next (s.returning (.result .invalidParameter) s.bus))
    ∧ (drv = 0 → s.status.notInitialized = true →
      (count ≠ 0 →
        exec (.read drv buf sector count) s = .next (s.returning (.result .notReady) s.bus)
        ∧ exec (.write drv buf sector count) s = .next (s.returning (.result .notReady) s.bus))
      ∧ exec (.ioctlTrim drv st ed) s = .next (s.returning (.result .notReady) s.bus)
      ∧ exec (.ioctlGetCid drv) s = .next (s.returning (.bytes .notReady none) s.bus)
      ∧ exec (.ioctlGetOcr drv) s = .next (s.returning (.bytes .notReady none) s.bus)
      ∧ exec (.ioctlGetSdStatus drv) s = .next (s.returning (.bytes .notReady none) s.bus)
      ∧ exec (.ioctlGetCardClass drv) s = .next (s.returning (.cardClass .notReady none) s.bus))
    ∧ (drv = 0 → s.status.notInitialized = false →
      (count ≠ 0 → s.status.writeProtected = true →
        exec (.write drv buf sector count) s = .next (s.returning (.result .writeProtect) s.bus))
      ∧ (count ≠ 0 → count * 512 ≤ buf.len →
        (∃ t, exec (.read drv buf sector count) s = .next t
          ∧ (t.reply = some (.result .ok) ∨ t.reply = some (.result .error)))
        ∧ (s.status.writeProtected = false → ∃ t, exec (.write drv buf sector count) s = .next t
          ∧ (t.reply = some (.result .ok) ∨ t.reply = some (.result .error))))
      ∧ (∃ t, exec (.ioctlTrim drv st ed) s = .next t
          ∧ (t.reply = some (.result .ok) ∨ t.reply = some (.result .error)))
      ∧ (∀ i ∈ [Instr.ioctlGetCid drv, .ioctlGetOcr drv, .ioctlGetSdStatus drv], ∃ t, exec i s = .next t
          ∧ ((∃ data, t.reply = some (.bytes .ok (some data))) ∨ t.reply = some (.bytes .error none)))
      ∧ exec (.ioctlGetCardClass drv) s = .next (s.returning (.cardClass .ok (some s.cardClass)) s.bus))

/-- 60_exceptions.md R298: the drive index. -/
def Obligations.BadDriveIndex : Prop :=
  ∀ (s : State) (drv : Nat), s.busy = false → drv ≠ 0 →
    exec (.initializeCard drv) s = .next (s.returning (.status ⟨true, false, false⟩) s.bus)
      ∧ exec (.status drv) s = .next (s.returning (.status ⟨true, false, false⟩) s.bus)

/-- 93_implementation_defined.md U21: past its admission an operation over a lent buffer that is too short is refused
(log 11). -/
def Obligations.ShortBufferRefused : Prop :=
  ∀ (s : State) (buf : HostBuf) (sector : Word) (count : Nat), s.isOpen = true → count ≠ 0 →
    buf.len < count * 512 →
    exec (.read 0 buf sector count) s = .refused .bufferTooShort
      ∧ (s.status.writeProtected = false → exec (.write 0 buf sector count) s = .refused .bufferTooShort)

/-! ## Operations without bus traffic -/

/-- 46_control_surface.md R270. -/
def Obligations.StatusReturnsStatus : Prop :=
  ∀ s : State, s.busy = false → exec (.status 0) s = .next (s.returning (.status s.status) s.bus)

/-- 46_control_surface.md R271. -/
def Obligations.SyncReturnsOk : Prop :=
  ∀ s : State, s.busy = false → exec .sync s = .next (s.returning (.result .ok) s.bus)

/-- 46_control_surface.md R273, R274, R275. -/
def Obligations.GettersReturnGeometry : Prop :=
  ∀ s : State, s.busy = false →
    exec .sectorCount s = .next (s.returning (.word s.sectorCount) s.bus)
      ∧ exec .sectorSize s = .next (s.returning (.word 512) s.bus)
      ∧ exec .eraseBlockSectors s = .next (s.returning (.word s.eraseBlockSectors) s.bus)

/-- 46_control_surface.md R281. -/
def Obligations.GetCardClassReturnsClass : Prop :=
  ∀ s : State, s.busy = false →
    exec (.ioctlGetCardClass 0) s =
      if s.status.notInitialized then .next (s.returning (.cardClass .notReady none) s.bus)
      else .next (s.returning (.cardClass .ok (some s.cardClass)) s.bus)

/-! ## Wire commands -/

/-- 41_command_engine.md R150 to R159, 30_encoding.md R101: every wire command, for every way the bus can answer its
transactions: exactly these events, this response, this chip-select level; nothing else changes. -/
def Obligations.CommandConversation : Prop :=
  ∀ (i : Instr) (c : CommandCode) (arg : Word), commandOf i = some (c, arg) →
    ∀ (s : State) (r : CommandRun) (tail : List Byte), r.valid c = true → tail.length = tailLength i r.resp →
      exec i (s.feed (Talk.join [r.talk c arg, fillTalk tail])) =
        .next { s with
          bus := (((s.bus.heard (Talk.join [r.talk c arg, fillTalk tail])).withScratch
            fun x => tailNote i tail (r.note x)).withCs r.level)
          reply := some (.response r.resp) }

/-- 41_command_engine.md R150 to R157, 40_transport.md R139, R145, R147: from every state, whatever the bus answers, a
wire command completes, and what it did is one of those conversations (that the tick passes every deadline is log 2). -/
def Obligations.EveryCommandIsARun : Prop :=
  ∀ (i : Instr) (c : CommandCode) (arg : Word), commandOf i = some (c, arg) →
    ∀ s : State, ∃ (t : State) (r : CommandRun) (tail : List Byte), exec i s = .next t ∧ r.valid c = true
      ∧ tail.length = tailLength i r.resp ∧ t.reply = some (.response r.resp) ∧ t.bus.cs = r.level
      ∧ t.bus.history = s.bus.history ++ (r.talk c arg).events ++ (fillTalk tail).events

/-! ## Data packets -/

/-- 42_block_transfer.md R190: a received packet, for every way it can end; the destination is written only on success,
and then whole. -/
def Obligations.ReceivedPacket : Prop :=
  ∀ (s : State) (dst len : Nat) (r : Reception), r.valid len = true →
    exec (.tokStartData (.receive dst len)) (s.feed r.talk) =
      .next { s with
        bus := (s.bus.heard r.talk).withScratch r.note
        mem := match r.data with
          | some data => s.mem.writeBytes dst data
          | none => s.mem
        reply := some (.token r.data.isSome) }

/-- 42_block_transfer.md R193: a transmitted packet behind either start token, for every way it can end. -/
def Obligations.TransmittedPacket : Prop :=
  ∀ (s : State) (src : Nat) (r : Transmission), r.valid = true →
    exec (.tokStartData (.transmit src)) (s.feed (r.talk 0xFE (s.mem.readBytes src 512))) =
        .next { s with
          bus := (s.bus.heard (r.talk 0xFE (s.mem.readBytes src 512))).withScratch r.note
          reply := some (.token r.ok) }
      ∧ exec (.tokMultiWrite src) (s.feed (r.talk 0xFC (s.mem.readBytes src 512))) =
        .next { s with
          bus := (s.bus.heard (r.talk 0xFC (s.mem.readBytes src 512))).withScratch r.note
          reply := some (.token r.ok) }

/-- 42_block_transfer.md R195: the stop token: the ready wait and the token, no data, no response read. -/
def Obligations.StopToken : Prop :=
  ∀ (s : State) (r : StopRun), r.valid = true →
    exec .tokStopTran (s.feed r.talk) =
      .next { s with bus := (s.bus.heard r.talk).withScratch r.note, reply := some (.token r.ok) }

/-- 42_block_transfer.md R190 to R197, 40_transport.md R145, R147: from every state a packet completes, and what it did
is one of those conversations; the chip-select line is not touched (the tick: log 2). -/
def Obligations.EveryPacketIsARun : Prop :=
  ∀ (s : State) (dst len src : Nat),
    (∃ (t : State) (r : Reception), exec (.tokStartData (.receive dst len)) s = .next t ∧ r.valid len = true
      ∧ t.bus.history = s.bus.history ++ r.talk.events ∧ t.bus.cs = s.bus.cs
      ∧ t.mem = (r.data.map (s.mem.writeBytes dst)).getD s.mem ∧ t.reply = some (.token r.data.isSome))
    ∧ (∃ (t : State) (r : Transmission), exec (.tokStartData (.transmit src)) s = .next t ∧ r.valid = true
      ∧ t.bus.history = s.bus.history ++ (r.talk 0xFE (s.mem.readBytes src 512)).events ∧ t.bus.cs = s.bus.cs
      ∧ t.reply = some (.token r.ok))
    ∧ (∃ (t : State) (r : Transmission), exec (.tokMultiWrite src) s = .next t ∧ r.valid = true
      ∧ t.bus.history = s.bus.history ++ (r.talk 0xFC (s.mem.readBytes src 512)).events ∧ t.bus.cs = s.bus.cs
      ∧ t.reply = some (.token r.ok))
    ∧ (∃ (t : State) (r : StopRun), exec .tokStopTran s = .next t ∧ r.valid = true
      ∧ t.bus.history = s.bus.history ++ r.talk.events ∧ t.bus.cs = s.bus.cs ∧ t.reply = some (.token r.ok))

/-! ## read, write, TRIM -/

/-- 45_block_io.md R250 to R253, R265; 20_memory.md R62, R67; 10_state.md R42: `read`, for every way the bus can
answer it. -/
def Obligations.ReadConversation : Prop :=
  ∀ (s : State) (buf : HostBuf) (sector : Word) (count : Nat) (r : ReadRun), s.isOpen = true → s.mem.wf = true →
    count ≠ 0 → count * 512 ≤ buf.len → r.valid count = true →
    exec (.read 0 buf sector count) (s.feed (r.talk count (addr s.cardClass sector))) =
      .next (({ s with mem := s.mem.writeBytes buf.base r.stored } : State).returning (.result (r.result count))
        ((s.bus.heard (r.talk count (addr s.cardClass sector))).withCs .high))

/-- 20_memory.md R67, 45_block_io.md R265: from every state in which it is admitted, whatever the bus answers, `read`
completes and is one of those conversations; so it stores whole blocks only, and is `Ok` only if all came (the tick:
log 2). -/
def Obligations.EveryReadIsARun : Prop :=
  ∀ (s : State) (buf : HostBuf) (sector : Word) (count : Nat), s.isOpen = true → s.mem.wf = true → count ≠ 0 →
    count * 512 ≤ buf.len →
    ∃ (t : State) (r : ReadRun), exec (.read 0 buf sector count) s = .next t ∧ r.valid count = true
      ∧ t.bus.history = s.bus.history ++ (r.talk count (addr s.cardClass sector)).events
      ∧ t.mem = s.mem.writeBytes buf.base r.stored ∧ t.reply = some (.result (r.result count))
      ∧ r.stored.length ≤ count * 512 ∧ r.stored.length % 512 = 0
      ∧ (r.result count = .ok ↔ r.stored.length = count * 512)

/-- 45_block_io.md R254 to R259; 20_memory.md R62; 10_state.md R42: `write`, for every way the bus can answer it. -/
def Obligations.WriteConversation : Prop :=
  ∀ (s : State) (buf : HostBuf) (sector : Word) (count : Nat) (r : WriteRun), s.isOpen = true →
    s.status.writeProtected = false → count ≠ 0 → count * 512 ≤ buf.len →
    r.valid (isSdFamily s.cardClass) count = true →
    exec (.write 0 buf sector count) (s.feed (r.talk s.mem buf.base count (addr s.cardClass sector))) =
      .next (s.returning (.result (r.result count))
        ((s.bus.heard (r.talk s.mem buf.base count (addr s.cardClass sector))).withCs .high))

/-- 45_block_io.md R257 to R259, 20_memory.md R79: from every state in which it is admitted `write` completes and is
one of those conversations; so the stop token is attempted exactly once per accepted CMD25, and `Ok` means that every
block was accepted (the tick: log 2). -/
def Obligations.EveryWriteIsARun : Prop :=
  ∀ (s : State) (buf : HostBuf) (sector : Word) (count : Nat), s.isOpen = true →
    s.status.writeProtected = false → count ≠ 0 → count * 512 ≤ buf.len →
    ∃ (t : State) (r : WriteRun), exec (.write 0 buf sector count) s = .next t
      ∧ r.valid (isSdFamily s.cardClass) count = true
      ∧ t.bus.history = s.bus.history ++ (r.talk s.mem buf.base count (addr s.cardClass sector)).events
      ∧ t.reply = some (.result (r.result count))

/-- 45_block_io.md R260 to R262: TRIM, for every way the bus can answer it; an MMC gets a deselect and no command. -/
def Obligations.TrimConversation : Prop :=
  ∀ (s : State) (st ed : Word) (r : TrimRun), s.isOpen = true → r.valid (isSdFamily s.cardClass) = true →
    exec (.ioctlTrim 0 st ed) (s.feed (r.talk (addr s.cardClass st) (addr s.cardClass ed))) =
      .next (s.returning (.result r.result)
        ((s.bus.heard (r.talk (addr s.cardClass st) (addr s.cardClass ed))).withCs .high))

/-- 20_memory.md R85: the engine's share of the round trip: what a single-sector `read` stores, of a card that answers
it with the bytes the `write` of that sector put on the bus behind the token, is what the `write`'s buffer held; and
both name the sector by the same argument. -/
def Obligations.RoundTrip : Prop :=
  ∀ (s : State) (src dst : HostBuf) (sector : Word) (w : WriteRun) (p : Sent) (r : ReadRun) (q : Packet) (t : State),
    s.isOpen = true → s.status.writeProtected = false → s.mem.wf = true → 512 ≤ src.len → 512 ≤ dst.len →
    w.valid (isSdFamily s.cardClass) 1 = true → w.blocks = [.sent p] → dataAccepted p.resp = true →
    exec (.write 0 src sector 1) (s.feed (w.talk s.mem src.base 1 (addr s.cardClass sector))) = .next t →
    r.valid 1 = true → r.blocks = [.packet q] →
    q.data = (sendTalk (s.mem.readBytes src.base 512) p.onData).events.filterMap Event.sent →
    t.reply = some (.result .ok)
      ∧ t.bus.history = s.bus.history ++ (w.talk s.mem src.base 1 (addr s.cardClass sector)).events
      ∧ ∃ u, exec (.read 0 dst sector 1) (t.feed (r.talk 1 (addr s.cardClass sector))) = .next u
        ∧ u.reply = some (.result .ok)
        ∧ u.bus.history = t.bus.history ++ (r.talk 1 (addr s.cardClass sector)).events
        ∧ u.mem.readBytes dst.base 512 = s.mem.readBytes src.base 512

/-! ## Register queries -/

/-- 46_control_surface.md R277, R278. -/
def Obligations.GetCidConversation : Prop :=
  ∀ (s : State) (r : FetchRun) (x : Byte), s.isOpen = true → r.valid (cmd 10) 16 = true →
    exec (.ioctlGetCid 0) (s.feed (Talk.join [r.talk (cmd 10), deselectTalk x])) =
      .next (s.returning (.bytes (if r.data.isSome then .ok else .error) r.data)
        ((s.bus.heard (Talk.join [r.talk (cmd 10), deselectTalk x])).withCs .high))

/-- 46_control_surface.md R277, R279. -/
def Obligations.GetOcrConversation : Prop :=
  ∀ (s : State) (r : OcrRun) (x : Byte), s.isOpen = true → r.valid = true →
    exec (.ioctlGetOcr 0) (s.feed (Talk.join [r.talk, deselectTalk x])) =
      .next (s.returning (.bytes (if r.ocr.isSome then .ok else .error) r.ocr)
        ((s.bus.heard (Talk.join [r.talk, deselectTalk x])).withCs .high))

/-- 46_control_surface.md R277, R280. -/
def Obligations.GetSdStatusConversation : Prop :=
  ∀ (s : State) (r : SdStatusRun) (x : Byte), s.isOpen = true → r.valid 64 = true →
    exec (.ioctlGetSdStatus 0) (s.feed (Talk.join [r.talk, deselectTalk x])) =
      .next (s.returning (.bytes (if r.data.isSome then .ok else .error) r.data)
        ((s.bus.heard (Talk.join [r.talk, deselectTalk x])).withCs .high))

/-! ## initialize -/

/-- 43_init_fsm.md R202 to R212, R214, 60_exceptions.md R302: an `initialize` whose classification fails, for every way
the bus can answer it. -/
def Obligations.InitializeFails : Prop :=
  ∀ (s : State) (r : InitRun), s.busy = false → r.valid s.powerOnWaitMs = true → r.classify.cardClass = none →
    exec (.initializeCard 0) (s.feed r.talk) =
      .next (({ s with
          status := { s.status with notInitialized := true }
          cardClass := none
          phase := .failed } : State).returning
        (.status { s.status with notInitialized := true })
        ((((s.bus.heard r.talk).withCs .high).withPwr .off).withClk .slow))

/-- 43_init_fsm.md R202 to R213, R215, 44_geometry.md R231 to R240: an `initialize` that classifies a card, for every
way the bus can answer it.  Of the sector count of a version 1 CSD whose shift factor is below 9 nothing is said but
that the decode reports success (R235; log 5): `n` counts the free values drawn. -/
def Obligations.InitializeSucceeds : Prop :=
  ∀ (s : State) (r : InitRun) (k : CardClass) (g : GeometryRun), s.busy = false →
    r.valid s.powerOnWaitMs = true → r.classify.cardClass = some k → r.geometry = some g →
    ∃ (v : Word) (n : Nat),
      (match g.csd.data with
        | none => v = s.sectorCount ∧ n = s.bus.draws
        | some csd => sectorsStated csd = true → v = sectorsValue csd ∧ n = s.bus.draws)
      ∧ exec (.initializeCard 0) (s.feed r.talk) =
        .next (({ s with
            status := { s.status with notInitialized := false }
            cardClass := some k
            phase := .ready
            sectorCount := v
            eraseBlockSectors := (g.erase.value k).getD s.eraseBlockSectors } : State).returning
          (.status { s.status with notInitialized := false })
          { (((s.bus.heard r.talk).withCs .high).withPwr .on).withClk .fast with draws := n })

/-- 40_transport.md R137, R138, R142, 93_implementation_defined.md U8, U16: a power-on wait of 2^32 milliseconds or more
never ends, and `initialize` with it (log 4). -/
def Obligations.InitializeNeverEnds : Prop :=
  ∀ s : State, s.busy = false → 2 ^ 32 ≤ s.powerOnWaitMs →
    exec (.initializeCard 0) s = .fault .powerOnWaitNeverEnds

/-- 60_exceptions.md R300 (b), 70_reset_and_hazards.md R343: which free samples there are (log 1).  Behind `tick` there
may come any sample that keeps less than 2^32 milliseconds between the start of each running deadline and itself (R300
(a)); behind the polls of a wait (log 2), any of these that has passed the wait's deadline.  Where there is none of the
latter, R300 (a) and (c) exclude each other and the sample keeps (a) for the wait's own deadline. -/
def Obligations.FreeSampleRange : Prop :=
  (∀ b : Bus, b.ticks = [] → (now b).1 = tickBehind b.deadlines b.tick (Config.freeAdvance b.draws).toNat)
    ∧ (∀ (starts : List Word) (tick v : Word), (∃ advance : Word, tickBehind starts tick advance.toNat = v)
        ↔ ∀ t ∈ starts, (tick - t).toNat + (v - tick).toNat < 2 ^ 32)
    ∧ (∀ (t0 : Word) (T : Nat) (starts : List Word) (tick v : Word),
        (∃ u, pastDeadline t0 T u = true ∧ ∀ t ∈ t0 :: starts, (tick - t).toNat + (u - tick).toNat < 2 ^ 32) →
        ((∃ advance : Word, tickPast t0 T starts tick advance.toNat = v)
          ↔ pastDeadline t0 T v = true ∧ ∀ t ∈ t0 :: starts, (tick - t).toNat + (v - tick).toNat < 2 ^ 32))
    ∧ (∀ (t0 : Word) (T : Nat) (starts : List Word) (tick advance : Word), T < 2 ^ 32 →
        pastDeadline t0 T (tickPast t0 T starts tick advance.toNat) = true
          ∧ (tick - t0).toNat + (tickPast t0 T starts tick advance.toNat - tick).toNat < 2 ^ 32)

/-- 60_exceptions.md R300 (a), R307: the samples the model draws itself keep (a) within every deadline, but for a
classification's once no more than 500 ms of its turn are left.  Where nothing is in store, those of a delay, of a ready
wait, of a token wait span less than 2^32 milliseconds from the sample that starts them.  So do those of a whole
classification, or else a first part of them does and leaves no more than 500 of its turn, in which a command can not
wait for a busy card with both (a) and (c): after it (a) may fail for the classification (log 1). -/
def Obligations.FreeSamplesHold : Prop :=
  (∀ (T : Nat) (b : Bus), T < 2 ^ 32 → b.ticks = [] → b.SamplesHold (delay T b).2)
    ∧ (∀ (T : Nat) (b : Bus), T < 2 ^ 32 → b.ticks = [] → b.SamplesHold (waitReady T b).2)
    ∧ (∀ b : Bus, b.ticks = [] → b.SamplesHold (awaitToken b).2)
    ∧ (∀ s : State, s.bus.ticks = [] → s.bus.deadlines = [] → ∃ start later,
        (classifyIdle s).2.bus.samples = s.bus.samples ++ start :: later
          ∧ (ticksHold start later = true ∨ ∃ early, early <+: later ∧ ticksHold start early = true
              ∧ 2 ^ 32 ≤ elapsedFrom start early + 500))

/-- 43_init_fsm.md R206, R207, R209 to R211, 60_exceptions.md R300 (a): on a tick that keeps (a), a wait loop that ran
out of its second is followed by no command: the test behind it finds the deadline passed too. -/
def Obligations.ExpiredDeadlineStaysExpired : Prop :=
  ∀ (r : ClassifyRun) (t0 : Word) (probe : CommandRun) (branch : BranchRun), r.valid = true →
    r.idle = some (t0, probe, branch) →
    ticksHold t0 (Talk.join [probe.talk (cmd 8) 0x000001AA, branch.talk]).ticks = true →
    match branch with
    | .echoWrong _ => True
    | .sdv2 _ loop ocrCmd ocr => loop.won = none → ocrCmd.command = none ∧ ocr = none
    | .legacy _ loop lengthCmd => loop.won = none → lengthCmd.command = none

/-- 60_exceptions.md R300 (a): on a tick that keeps (a), the difference of two samples modulo 2^32 is the time elapsed
between them, so that a later sample finds every deadline passed that an earlier one did. -/
def Obligations.DifferenceIsElapsed : Prop :=
  ∀ (v : Word) (between : List Word) (w : Word) (later : List Word),
    ticksHold v (between ++ w :: later) = true →
    (w - v).toNat = elapsedFrom v (between ++ [w])
      ∧ ∀ u ∈ later, ∀ T, pastDeadline v T w = true → pastDeadline v T u = true

/-- 43_init_fsm.md R200, R213, R214, R218; 60_exceptions.md R302, R313: from every idle state of a machine whose
power-on wait can end, whatever the bus answers, `initialize` completes, and the status it returns says which of its
two ends it came to (the tick: log 2). -/
def Obligations.InitializeOutcome : Prop :=
  ∀ s : State, s.busy = false → s.powerOnWaitMs < 2 ^ 32 → ∃ t, exec (.initializeCard 0) s = .next t ∧ t.busy = false
    ∧ t.reply = some (.status t.status) ∧ t.bus.cs = .high
    ∧ ((t.status.notInitialized = false ∧ t.phase = .ready ∧ t.cardClass ≠ none ∧ t.bus.pwr = .on
        ∧ t.bus.clk = .fast)
      ∨ (t.status.notInitialized = true ∧ t.phase = .failed ∧ t.cardClass = none ∧ t.bus.pwr = .off
        ∧ t.bus.clk = .slow ∧ t.sectorCount = s.sectorCount ∧ t.eraseBlockSectors = s.eraseBlockSectors))

/-! ## Fields and formulas -/

/-- 44_geometry.md R234: byte `k` of the register holds its bits `127-8k … 120-8k`; the fields are the bit ranges the
card registers' layouts give them (R234, R238, R239; 45_block_io.md R261). -/
def Obligations.CsdFieldsAreBitRanges : Prop :=
  ∀ (reg : BitVec 128) (csd : List Byte),
    csd = (List.range 16).map (fun k => reg.extractLsb' (120 - 8 * k) 8) →
    csdStructure csd = (reg.extractLsb' 126 2).toNat
      ∧ readBlLen csd = (reg.extractLsb' 80 4).toNat
      ∧ cSizeV1 csd = (reg.extractLsb' 62 12).toNat
      ∧ cSizeV2 csd = (reg.extractLsb' 48 22).toNat
      ∧ cSizeMult csd = (reg.extractLsb' 47 3).toNat
      ∧ eraseBlkEn csd = reg.getLsbD 46
      ∧ sectorSizeSd csd = (reg.extractLsb' 39 7).toNat
      ∧ eraseGrpSize csd = (reg.extractLsb' 42 5).toNat
      ∧ eraseGrpMult csd = (reg.extractLsb' 37 5).toNat

/-- 44_geometry.md R233 to R239, R241: the values the decoders compute, with their ranges: none overflows but the
version 2 count at its largest field, which is 0. -/
def Obligations.GeometryRanges : Prop :=
  ∀ csd : List Byte,
    (cSizeV2 csd + 1 < 4194304 → (sectorsV2 csd).toNat = (cSizeV2 csd + 1) * 1024)
      ∧ cSizeV2 csd + 1 ≤ 4194304 ∧ (cSizeV2 csd + 1 = 4194304 → sectorsV2 csd = 0)
      ∧ 2 ≤ shiftV1 csd ∧ shiftV1 csd ≤ 24 ∧ cSizeV1 csd + 1 ≤ 4096
      ∧ (9 ≤ shiftV1 csd → (sectorsV1 csd).toNat = (cSizeV1 csd + 1) * 2 ^ (shiftV1 csd - 9)
          ∧ (sectorsV1 csd).toNat ≤ 2 ^ 27)
      ∧ (eraseSectorsSdv2 csd).toNat = 16 * 2 ^ auCode csd ∧ (eraseSectorsSdv2 csd).toNat ≤ 524288
      ∧ (eraseSectorsSdv1 csd).toNat = sectorSizeSd csd + 1 ∧ (eraseSectorsSdv1 csd).toNat ≤ 128
      ∧ (eraseSectorsMmc csd).toNat = (eraseGrpSize csd + 1) * (eraseGrpMult csd + 1)
      ∧ (eraseSectorsMmc csd).toNat ≤ 1024

/-- 20_memory.md R70, R71, R65: the argument that names a sector. -/
def Obligations.AddressConversion : Prop :=
  ∀ sector : Word,
    addr (some (.sdv2 .blockAddressed)) sector = sector
      ∧ ∀ c : Option CardClass, c ≠ some (.sdv2 .blockAddressed) →
        (addr c sector).toNat = sector.toNat * 512 % 2 ^ 32 ∧ (addr c sector).toNat % 512 = 0

/-- 40_transport.md R137, 70_reset_and_hazards.md R338: a deadline is found by modular subtraction, so that a wrap of
the tick neither ends nor prolongs a wait. -/
def Obligations.DeadlineAcrossWrap : Prop :=
  ∀ (t0 elapsed : Word) (T : Nat), pastDeadline t0 T (t0 + elapsed) = decide (T ≤ elapsed.toNat)

/-- 10_state.md R34, 41_command_engine.md R158: the four ways an R1 is decoded, over all its values. -/
def Obligations.ResponseDecoding : Prop :=
  ∀ resp : Byte,
    (validR1 resp = true ↔ resp.toNat < 128) ∧ (idleR1 resp = true ↔ resp.toNat = 1)
      ∧ (acceptedR1 resp = true ↔ resp.toNat = 0) ∧ (okOrIdleR1 resp = true ↔ resp.toNat = 0 ∨ resp.toNat = 1)
      ∧ (dataAccepted resp = true ↔ resp.toNat % 32 = 5)

/-- 00_scope.md R8, 10_state.md R33, 92_eei_decisions.md D3: the parameter `RESULT_CODES` may be any one-to-one map from
the five Results to numbers and nothing else; the number of the Result handed over tells which it is; and no step changes
this or the other open parameter (that the machine holds both in its state is the model's choice, logs 4 and 15). -/
def Obligations.ResultNumbering : Prop :=
  (∀ f : Result → Nat, (∃ c : ResultCodes, ∀ r, r.code c = f r) ↔ ∀ r r', f r = f r' → r = r')
    ∧ (∀ s t : State, s.resultCodes = t.resultCodes →
        (s.resultCode = t.resultCode ↔ s.reply.bind Reply.outcome = t.reply.bind Reply.outcome))
    ∧ (∀ s t : State, step s = .next t → t.resultCodes = s.resultCodes ∧ t.powerOnWaitMs = s.powerOnWaitMs)
end

