-- ==== Sys2Proof/Laws/State.lean ====
section
/-! SUPPORT. One lemma per field per named update of the state, and how the updates of the transport side commute. -/

namespace Sys2Proof.Machine

section BusUpdates
variable (b : Bus) (k l : Talk) (c : CsLevel) (p : PowerLevel) (r : ClockRate) (f : Scratch → Scratch)

@[simp] theorem Bus.feed_cs : (b.feed k).cs = b.cs := rfl
@[simp] theorem Bus.feed_pwr : (b.feed k).pwr = b.pwr := rfl
@[simp] theorem Bus.feed_clk : (b.feed k).clk = b.clk := rfl
@[simp] theorem Bus.feed_trace : (b.feed k).trace = b.trace := rfl
@[simp] theorem Bus.feed_rx : (b.feed k).rx = k.rx ++ b.rx := rfl
@[simp] theorem Bus.feed_ticks : (b.feed k).ticks = k.ticks ++ b.ticks := rfl
@[simp] theorem Bus.feed_tick : (b.feed k).tick = b.tick := rfl
@[simp] theorem Bus.feed_draws : (b.feed k).draws = b.draws := rfl
@[simp] theorem Bus.feed_deadlines : (b.feed k).deadlines = b.deadlines := rfl
@[simp] theorem Bus.feed_scratch : (b.feed k).scratch = b.scratch := rfl

@[simp] theorem Bus.heard_cs : (b.heard k).cs = b.cs := rfl
@[simp] theorem Bus.heard_pwr : (b.heard k).pwr = b.pwr := rfl
@[simp] theorem Bus.heard_clk : (b.heard k).clk = b.clk := rfl
@[simp] theorem Bus.heard_trace : (b.heard k).trace = k.events.reverse ++ b.trace := rfl
@[simp] theorem Bus.heard_rx : (b.heard k).rx = b.rx := rfl
@[simp] theorem Bus.heard_ticks : (b.heard k).ticks = b.ticks := rfl
@[simp] theorem Bus.heard_tick : (b.heard k).tick = k.ticks.getLastD b.tick := rfl
@[simp] theorem Bus.heard_draws : (b.heard k).draws = b.draws := rfl
@[simp] theorem Bus.heard_deadlines : (b.heard k).deadlines = b.deadlines := rfl
@[simp] theorem Bus.heard_scratch : (b.heard k).scratch = b.scratch := rfl

@[simp] theorem Bus.withCs_cs : (b.withCs c).cs = c := rfl
@[simp] theorem Bus.withCs_pwr : (b.withCs c).pwr = b.pwr := rfl
@[simp] theorem Bus.withCs_clk : (b.withCs c).clk = b.clk := rfl
@[simp] theorem Bus.withCs_trace : (b.withCs c).trace = b.trace := rfl
@[simp] theorem Bus.withCs_rx : (b.withCs c).rx = b.rx := rfl
@[simp] theorem Bus.withCs_ticks : (b.withCs c).ticks = b.ticks := rfl
@[simp] theorem Bus.withCs_tick : (b.withCs c).tick = b.tick := rfl
@[simp] theorem Bus.withCs_draws : (b.withCs c).draws = b.draws := rfl
@[simp] theorem Bus.withCs_deadlines : (b.withCs c).deadlines = b.deadlines := rfl
@[simp] theorem Bus.withCs_scratch : (b.withCs c).scratch = b.scratch := rfl

@[simp] theorem Bus.withPwr_cs : (b.withPwr p).cs = b.cs := rfl
@[simp] theorem Bus.withPwr_pwr : (b.withPwr p).pwr = p := rfl
@[simp] theorem Bus.withPwr_clk : (b.withPwr p).clk = b.clk := rfl
@[simp] theorem Bus.withPwr_trace : (b.withPwr p).trace = b.trace := rfl
@[simp] theorem Bus.withPwr_rx : (b.withPwr p).rx = b.rx := rfl
@[simp] theorem Bus.withPwr_ticks : (b.withPwr p).ticks = b.ticks := rfl
@[simp] theorem Bus.withPwr_tick : (b.withPwr p).tick = b.tick := rfl
@[simp] theorem Bus.withPwr_draws : (b.withPwr p).draws = b.draws := rfl
@[simp] theorem Bus.withPwr_deadlines : (b.withPwr p).deadlines = b.deadlines := rfl
@[simp] theorem Bus.withPwr_scratch : (b.withPwr p).scratch = b.scratch := rfl

@[simp] theorem Bus.withClk_cs : (b.withClk r).cs = b.cs := rfl
@[simp] theorem Bus.withClk_pwr : (b.withClk r).pwr = b.pwr := rfl
@[simp] theorem Bus.withClk_clk : (b.withClk r).clk = r := rfl
@[simp] theorem Bus.withClk_trace : (b.withClk r).trace = b.trace := rfl
@[simp] theorem Bus.withClk_rx : (b.withClk r).rx = b.rx := rfl
@[simp] theorem Bus.withClk_ticks : (b.withClk r).ticks = b.ticks := rfl
@[simp] theorem Bus.withClk_tick : (b.withClk r).tick = b.tick := rfl
@[simp] theorem Bus.withClk_draws : (b.withClk r).draws = b.draws := rfl
@[simp] theorem Bus.withClk_deadlines : (b.withClk r).deadlines = b.deadlines := rfl
@[simp] theorem Bus.withClk_scratch : (b.withClk r).scratch = b.scratch := rfl

@[simp] theorem Bus.withScratch_cs : (b.withScratch f).cs = b.cs := rfl
@[simp] theorem Bus.withScratch_pwr : (b.withScratch f).pwr = b.pwr := rfl
@[simp] theorem Bus.withScratch_clk : (b.withScratch f).clk = b.clk := rfl
@[simp] theorem Bus.withScratch_trace : (b.withScratch f).trace = b.trace := rfl
@[simp] theorem Bus.withScratch_rx : (b.withScratch f).rx = b.rx := rfl
@[simp] theorem Bus.withScratch_ticks : (b.withScratch f).ticks = b.ticks := rfl
@[simp] theorem Bus.withScratch_tick : (b.withScratch f).tick = b.tick := rfl
@[simp] theorem Bus.withScratch_draws : (b.withScratch f).draws = b.draws := rfl
@[simp] theorem Bus.withScratch_deadlines : (b.withScratch f).deadlines = b.deadlines := rfl
@[simp] theorem Bus.withScratch_scratch : (b.withScratch f).scratch = f b.scratch := rfl

@[simp] theorem Bus.append_cs (e : Event) : (b.append e).cs = b.cs := rfl
@[simp] theorem Bus.append_pwr (e : Event) : (b.append e).pwr = b.pwr := rfl
@[simp] theorem Bus.append_clk (e : Event) : (b.append e).clk = b.clk := rfl
@[simp] theorem Bus.append_trace (e : Event) : (b.append e).trace = e :: b.trace := rfl
@[simp] theorem Bus.append_rx (e : Event) : (b.append e).rx = b.rx := rfl
@[simp] theorem Bus.append_ticks (e : Event) : (b.append e).ticks = b.ticks := rfl
@[simp] theorem Bus.append_tick (e : Event) : (b.append e).tick = b.tick := rfl
@[simp] theorem Bus.append_draws (e : Event) : (b.append e).draws = b.draws := rfl
@[simp] theorem Bus.append_deadlines (e : Event) : (b.append e).deadlines = b.deadlines := rfl
@[simp] theorem Bus.append_scratch (e : Event) : (b.append e).scratch = b.scratch := rfl

@[simp] theorem Bus.shown_cs (v : Word) : (b.shown v).cs = b.cs := rfl
@[simp] theorem Bus.shown_pwr (v : Word) : (b.shown v).pwr = b.pwr := rfl
@[simp] theorem Bus.shown_clk (v : Word) : (b.shown v).clk = b.clk := rfl
@[simp] theorem Bus.shown_trace (v : Word) : (b.shown v).trace = .now v :: b.trace := rfl
@[simp] theorem Bus.shown_rx (v : Word) : (b.shown v).rx = b.rx := rfl
@[simp] theorem Bus.shown_ticks (v : Word) : (b.shown v).ticks = b.ticks := rfl
@[simp] theorem Bus.shown_tick (v : Word) : (b.shown v).tick = v := rfl
@[simp] theorem Bus.shown_draws (v : Word) : (b.shown v).draws = b.draws := rfl
@[simp] theorem Bus.shown_deadlines (v : Word) : (b.shown v).deadlines = b.deadlines := rfl
@[simp] theorem Bus.shown_scratch (v : Word) : (b.shown v).scratch = b.scratch := rfl

@[simp] theorem Bus.withDeadlines_cs (d : List Word) : (b.withDeadlines d).cs = b.cs := rfl
@[simp] theorem Bus.withDeadlines_pwr (d : List Word) : (b.withDeadlines d).pwr = b.pwr := rfl
@[simp] theorem Bus.withDeadlines_clk (d : List Word) : (b.withDeadlines d).clk = b.clk := rfl
@[simp] theorem Bus.withDeadlines_trace (d : List Word) : (b.withDeadlines d).trace = b.trace := rfl
@[simp] theorem Bus.withDeadlines_rx (d : List Word) : (b.withDeadlines d).rx = b.rx := rfl
@[simp] theorem Bus.withDeadlines_ticks (d : List Word) : (b.withDeadlines d).ticks = b.ticks := rfl
@[simp] theorem Bus.withDeadlines_tick (d : List Word) : (b.withDeadlines d).tick = b.tick := rfl
@[simp] theorem Bus.withDeadlines_draws (d : List Word) : (b.withDeadlines d).draws = b.draws := rfl
@[simp] theorem Bus.withDeadlines_scratch (d : List Word) : (b.withDeadlines d).scratch = b.scratch := rfl
@[simp] theorem Bus.withDeadlines_deadlines (d : List Word) : (b.withDeadlines d).deadlines = d := rfl

/-! What is in store stands outside what has happened, and lines and scratch outside the history: with these and
`Bus.feed_append`, `Bus.heard_append` every composition comes to one form. -/

@[simp] theorem Bus.feed_append : b.feed (k.append l) = (b.feed l).feed k := by
  simp [Bus.feed, Talk.append, List.append_assoc]
@[simp] theorem Bus.heard_append : b.heard (k.append l) = (b.heard k).heard l := by
  simp [Bus.heard, Talk.append, List.append_assoc]
@[simp] theorem Bus.heard_feed : (b.feed l).heard k = (b.heard k).feed l := rfl
@[simp] theorem Bus.withCs_feed : (b.feed k).withCs c = (b.withCs c).feed k := rfl
@[simp] theorem Bus.withPwr_feed : (b.feed k).withPwr p = (b.withPwr p).feed k := rfl
@[simp] theorem Bus.withClk_feed : (b.feed k).withClk r = (b.withClk r).feed k := rfl
@[simp] theorem Bus.withScratch_feed : (b.feed k).withScratch f = (b.withScratch f).feed k := rfl
@[simp] theorem Bus.withDeadlines_feed (d : List Word) :
    (b.feed k).withDeadlines d = (b.withDeadlines d).feed k := rfl
@[simp] theorem Bus.withDeadlines_heard (d : List Word) :
    (b.heard k).withDeadlines d = (b.withDeadlines d).heard k := rfl
@[simp] theorem Bus.withDeadlines_withScratch (d : List Word) :
    (b.withScratch f).withDeadlines d = (b.withDeadlines d).withScratch f := rfl
@[simp] theorem Bus.withDeadlines_withCs (d : List Word) :
    (b.withCs c).withDeadlines d = (b.withDeadlines d).withCs c := rfl
@[simp] theorem Bus.withDeadlines_withDeadlines (d d' : List Word) :
    (b.withDeadlines d').withDeadlines d = b.withDeadlines d := rfl
/-- Back to the deadlines that were running. -/
@[simp] theorem Bus.withDeadlines_self : b.withDeadlines b.deadlines = b := rfl
@[simp] theorem Bus.heard_withCs : (b.withCs c).heard k = (b.heard k).withCs c := rfl
@[simp] theorem Bus.heard_withPwr : (b.withPwr p).heard k = (b.heard k).withPwr p := rfl
@[simp] theorem Bus.heard_withClk : (b.withClk r).heard k = (b.heard k).withClk r := rfl
@[simp] theorem Bus.heard_withScratch : (b.withScratch f).heard k = (b.heard k).withScratch f := rfl
@[simp] theorem Bus.withScratch_withCs : (b.withCs c).withScratch f = (b.withScratch f).withCs c := rfl
@[simp] theorem Bus.withScratch_withPwr : (b.withPwr p).withScratch f = (b.withScratch f).withPwr p := rfl
@[simp] theorem Bus.withScratch_withClk : (b.withClk r).withScratch f = (b.withScratch f).withClk r := rfl
@[simp] theorem Bus.withCs_withPwr : (b.withPwr p).withCs c = (b.withCs c).withPwr p := rfl
@[simp] theorem Bus.withCs_withClk : (b.withClk r).withCs c = (b.withCs c).withClk r := rfl
@[simp] theorem Bus.withPwr_withClk : (b.withClk r).withPwr p = (b.withPwr p).withClk r := rfl
@[simp] theorem Bus.withCs_withCs (c' : CsLevel) : (b.withCs c').withCs c = b.withCs c := rfl
@[simp] theorem Bus.withPwr_withPwr (p' : PowerLevel) : (b.withPwr p').withPwr p = b.withPwr p := rfl
@[simp] theorem Bus.withClk_withClk (r' : ClockRate) : (b.withClk r').withClk r = b.withClk r := rfl
@[simp] theorem Bus.withScratch_withScratch (g : Scratch → Scratch) :
    (b.withScratch g).withScratch f = b.withScratch fun x => f (g x) := rfl

@[simp] theorem Bus.feed_lineTalk (e : Event) : b.feed (lineTalk e) = b := rfl
@[simp] theorem Bus.feed_nil : b.feed ⟨[], [], []⟩ = b := rfl
@[simp] theorem Bus.heard_nil : b.heard ⟨[], [], []⟩ = b := rfl
@[simp] theorem Bus.feed_join_nil : b.feed (Talk.join []) = b := rfl
@[simp] theorem Bus.heard_join_nil : b.heard (Talk.join []) = b := rfl
@[simp] theorem Bus.feed_join_cons (ks : List Talk) :
    b.feed (Talk.join (k :: ks)) = (b.feed (Talk.join ks)).feed k := by
  simp [Talk.join]
@[simp] theorem Bus.heard_join_cons (ks : List Talk) :
    b.heard (Talk.join (k :: ks)) = (b.heard k).heard (Talk.join ks) := by
  simp [Talk.join]
@[simp] theorem Bus.feed_fillTalk_nil : b.feed (fillTalk []) = b := rfl
@[simp] theorem Bus.heard_fillTalk_nil : b.heard (fillTalk []) = b := rfl

end BusUpdates

section StateUpdates
variable (s : State) (k l : Talk) (b : Bus) (r : Reply)

@[simp] theorem State.feed_bus : (s.feed k).bus = s.bus.feed k := rfl
@[simp] theorem State.feed_status : (s.feed k).status = s.status := rfl
@[simp] theorem State.feed_cardClass : (s.feed k).cardClass = s.cardClass := rfl
@[simp] theorem State.feed_sectorCount : (s.feed k).sectorCount = s.sectorCount := rfl
@[simp] theorem State.feed_eraseBlockSectors : (s.feed k).eraseBlockSectors = s.eraseBlockSectors := rfl
@[simp] theorem State.feed_busy : (s.feed k).busy = s.busy := rfl
@[simp] theorem State.feed_phase : (s.feed k).phase = s.phase := rfl
@[simp] theorem State.feed_mem : (s.feed k).mem = s.mem := rfl
@[simp] theorem State.feed_reply : (s.feed k).reply = s.reply := rfl
@[simp] theorem State.feed_inputs : (s.feed k).inputs = s.inputs := rfl
@[simp] theorem State.feed_powerOnWaitMs : (s.feed k).powerOnWaitMs = s.powerOnWaitMs := rfl
@[simp] theorem State.feed_resultCodes : (s.feed k).resultCodes = s.resultCodes := rfl

@[simp] theorem State.withBus_bus : (s.withBus b).bus = b := rfl
@[simp] theorem State.withBus_status : (s.withBus b).status = s.status := rfl
@[simp] theorem State.withBus_cardClass : (s.withBus b).cardClass = s.cardClass := rfl
@[simp] theorem State.withBus_sectorCount : (s.withBus b).sectorCount = s.sectorCount := rfl
@[simp] theorem State.withBus_eraseBlockSectors : (s.withBus b).eraseBlockSectors = s.eraseBlockSectors := rfl
@[simp] theorem State.withBus_busy : (s.withBus b).busy = s.busy := rfl
@[simp] theorem State.withBus_phase : (s.withBus b).phase = s.phase := rfl
@[simp] theorem State.withBus_mem : (s.withBus b).mem = s.mem := rfl
@[simp] theorem State.withBus_reply : (s.withBus b).reply = s.reply := rfl
@[simp] theorem State.withBus_inputs : (s.withBus b).inputs = s.inputs := rfl
@[simp] theorem State.withBus_powerOnWaitMs : (s.withBus b).powerOnWaitMs = s.powerOnWaitMs := rfl
@[simp] theorem State.withBus_resultCodes : (s.withBus b).resultCodes = s.resultCodes := rfl

@[simp] theorem State.withDeadlines_bus (d : List Word) : (s.withDeadlines d).bus = s.bus.withDeadlines d := rfl
@[simp] theorem State.withDeadlines_status (d : List Word) : (s.withDeadlines d).status = s.status := rfl
@[simp] theorem State.withDeadlines_cardClass (d : List Word) : (s.withDeadlines d).cardClass = s.cardClass := rfl
@[simp] theorem State.withDeadlines_sectorCount (d : List Word) : (s.withDeadlines d).sectorCount = s.sectorCount := rfl
@[simp] theorem State.withDeadlines_eraseBlockSectors (d : List Word) :
    (s.withDeadlines d).eraseBlockSectors = s.eraseBlockSectors := rfl
@[simp] theorem State.withDeadlines_busy (d : List Word) : (s.withDeadlines d).busy = s.busy := rfl
@[simp] theorem State.withDeadlines_phase (d : List Word) : (s.withDeadlines d).phase = s.phase := rfl
@[simp] theorem State.withDeadlines_mem (d : List Word) : (s.withDeadlines d).mem = s.mem := rfl
@[simp] theorem State.withDeadlines_reply (d : List Word) : (s.withDeadlines d).reply = s.reply := rfl
@[simp] theorem State.withDeadlines_inputs (d : List Word) : (s.withDeadlines d).inputs = s.inputs := rfl
@[simp] theorem State.withDeadlines_powerOnWaitMs (d : List Word) :
    (s.withDeadlines d).powerOnWaitMs = s.powerOnWaitMs := rfl
@[simp] theorem State.withDeadlines_resultCodes (d : List Word) :
    (s.withDeadlines d).resultCodes = s.resultCodes := rfl

@[simp] theorem deliver_status : (deliver r s).status = s.status := rfl
@[simp] theorem deliver_cardClass : (deliver r s).cardClass = s.cardClass := rfl
@[simp] theorem deliver_sectorCount : (deliver r s).sectorCount = s.sectorCount := rfl
@[simp] theorem deliver_eraseBlockSectors : (deliver r s).eraseBlockSectors = s.eraseBlockSectors := rfl
@[simp] theorem deliver_busy : (deliver r s).busy = false := rfl
@[simp] theorem deliver_phase : (deliver r s).phase = s.phase := rfl
@[simp] theorem deliver_bus : (deliver r s).bus = s.bus.withScratch fun _ => {} := rfl
@[simp] theorem deliver_mem : (deliver r s).mem = s.mem := rfl
@[simp] theorem deliver_reply : (deliver r s).reply = some r := rfl
@[simp] theorem deliver_inputs : (deliver r s).inputs = s.inputs := rfl
@[simp] theorem deliver_powerOnWaitMs : (deliver r s).powerOnWaitMs = s.powerOnWaitMs := rfl
@[simp] theorem deliver_resultCodes : (deliver r s).resultCodes = s.resultCodes := rfl
theorem deliver_eq_returning : deliver r s = s.returning r s.bus := rfl

@[simp] theorem State.returning_status : (s.returning r b).status = s.status := rfl
@[simp] theorem State.returning_cardClass : (s.returning r b).cardClass = s.cardClass := rfl
@[simp] theorem State.returning_sectorCount : (s.returning r b).sectorCount = s.sectorCount := rfl
@[simp] theorem State.returning_eraseBlockSectors :
    (s.returning r b).eraseBlockSectors = s.eraseBlockSectors := rfl
@[simp] theorem State.returning_busy : (s.returning r b).busy = false := rfl
@[simp] theorem State.returning_phase : (s.returning r b).phase = s.phase := rfl
@[simp] theorem State.returning_bus : (s.returning r b).bus = b.withScratch fun _ => {} := rfl
@[simp] theorem State.returning_mem : (s.returning r b).mem = s.mem := rfl
@[simp] theorem State.returning_reply : (s.returning r b).reply = some r := rfl
@[simp] theorem State.returning_inputs : (s.returning r b).inputs = s.inputs := rfl
@[simp] theorem State.returning_powerOnWaitMs : (s.returning r b).powerOnWaitMs = s.powerOnWaitMs := rfl
@[simp] theorem State.returning_resultCodes : (s.returning r b).resultCodes = s.resultCodes := rfl

end StateUpdates

section ResultNumbers
variable (s : State) (r : Reply) (b : Bus)

/-- D3: in every numbering the five numbers differ. -/
theorem Result.code_inj (c : ResultCodes) (x y : Result) : x.code c = y.code c ↔ x = y := by
  have h := c.oneToOne
  simp only [List.nodup_cons, List.mem_cons, List.not_mem_nil, or_false, not_or] at h
  cases x <;> cases y <;> simp [Result.code] <;> omega

@[simp] theorem deliver_resultCode : (deliver r s).resultCode = r.outcome.map (Result.code s.resultCodes) := rfl
@[simp] theorem State.returning_resultCode :
    (s.returning r b).resultCode = r.outcome.map (Result.code s.resultCodes) := rfl

end ResultNumbers

section StatusUpdates
variable (st : DriveStatus)

@[simp] theorem DriveStatus.clearNotInitialized_notInitialized :
    st.clearNotInitialized.notInitialized = false := rfl
@[simp] theorem DriveStatus.clearNotInitialized_noMedia : st.clearNotInitialized.noMedia = st.noMedia := rfl
@[simp] theorem DriveStatus.clearNotInitialized_writeProtected :
    st.clearNotInitialized.writeProtected = st.writeProtected := rfl
@[simp] theorem DriveStatus.setNotInitialized_notInitialized : st.setNotInitialized.notInitialized = true := rfl
@[simp] theorem DriveStatus.setNotInitialized_noMedia : st.setNotInitialized.noMedia = st.noMedia := rfl
@[simp] theorem DriveStatus.setNotInitialized_writeProtected :
    st.setNotInitialized.writeProtected = st.writeProtected := rfl

end StatusUpdates

end Sys2Proof.Machine
end

