-- ==== Sys2Proof/Laws/Transport.lean ====
section
/-! SUPPORT. What each transport operation does when the oracles have its answers in store (`Bus.feed`): the answer
it gives, and the state it leaves, said once.  A caller cites these and does not unfold the operation. -/

namespace Sys2Proof.Machine

/-! ## Sequencing -/

@[simp] theorem bind_apply {σ α β : Type} (m : StateM σ α) (f : α → StateM σ β) (s : σ) :
    (m >>= f) s = f (m s).1 (m s).2 := (rfl)

@[simp] theorem pure_apply {σ α : Type} (a : α) (s : σ) : (pure a : StateM σ α) s = (a, s) := (rfl)

@[simp] theorem map_apply {σ α β : Type} (f : α → β) (m : StateM σ α) (s : σ) :
    (f <$> m) s = (f (m s).1, (m s).2) := (rfl)

@[simp] theorem ite_run {σ α : Type} (c : Prop) [Decidable c] (m n : StateM σ α) (s : σ) :
    (if c then m else n) s = if c then m s else n s := by
  split <;> rfl

@[simp] theorem onBus_apply {α : Type} (m : Transport α) (s : State) :
    onBus m s = ((m s.bus).1, s.withBus (m s.bus).2) := (rfl)

/-! ## Primitives -/

@[simp] theorem setCS_apply (c : CsLevel) (b : Bus) :
    setCS c b = ((), (b.heard (lineTalk (.cs c))).withCs c) := (rfl)

@[simp] theorem setPwr_apply (p : PowerLevel) (b : Bus) :
    setPwr p b = ((), (b.heard (lineTalk (.pwr p))).withPwr p) := (rfl)

@[simp] theorem setClk_apply (r : ClockRate) (b : Bus) :
    setClk r b = ((), (b.heard (lineTalk (.clk r))).withClk r) := (rfl)

@[simp] theorem logEvent_apply (e : LogEvent) (b : Bus) :
    logEvent e b = ((), b.heard (lineTalk (.log e))) := (rfl)

@[simp] theorem setScratch_apply (f : Scratch → Scratch) (b : Bus) :
    setScratch f b = ((), b.withScratch f) := (rfl)

theorem xchg_feed (o i : Byte) (b : Bus) :
    xchg o (b.feed (sendTalk [o] [i])) = (i, b.heard (sendTalk [o] [i])) := (rfl)

@[simp] theorem xchg_fill (i : Byte) (b : Bus) :
    xchg Config.fillByte (b.feed (fillTalk [i])) = (i, b.heard (fillTalk [i])) := (rfl)

@[simp] theorem now_feed (v : Word) (b : Bus) : now (b.feed (nowTalk v)) = (v, b.heard (nowTalk v)) := (rfl)

@[simp] theorem startWait_feed (v : Word) (b : Bus) :
    startWait (b.feed (nowTalk v)) =
      (v, (b.heard (nowTalk v)).withScratch (.noteT0 v)) := (rfl)

@[simp] theorem expired_feed (t0 v : Word) (T : Nat) (b : Bus) :
    expired t0 T (b.feed (nowTalk v)) = (pastDeadline t0 T v, b.heard (nowTalk v)) := (rfl)

theorem fillTalk_cons (i : Byte) (l : List Byte) : fillTalk (i :: l) = (fillTalk [i]).append (fillTalk l) := (rfl)

theorem fillTalk_append (l m : List Byte) : fillTalk (l ++ m) = (fillTalk l).append (fillTalk m) := by
  simp [fillTalk, Talk.append]

theorem sendTalk_cons (o i : Byte) (os is : List Byte) :
    sendTalk (o :: os) (i :: is) = (sendTalk [o] [i]).append (sendTalk os is) := (rfl)

/-- R131: the received bytes, in order. -/
theorem burstRead_feed (data : List Byte) (b : Bus) :
    burstRead data.length (b.feed (fillTalk data)) = (data, b.heard (fillTalk data)) := by
  induction data generalizing b with
  | nil => rfl
  | cons i rest ih =>
    rw [fillTalk_cons, Bus.feed_append, Bus.heard_append]
    simp [burstRead, ih]

/-- As `burstRead_feed`, for a length known to be the data's. -/
theorem burstRead_feed_of_length (n : Nat) (data : List Byte) (b : Bus) (h : data.length = n) :
    burstRead n (b.feed (fillTalk data)) = (data, b.heard (fillTalk data)) := by
  rw [← h, burstRead_feed]

/-- R132: whatever arrives while the bytes go out is discarded. -/
theorem burstWrite_feed (out arrived : List Byte) (b : Bus) (h : arrived.length = out.length) :
    burstWrite out (b.feed (sendTalk out arrived)) = ((), b.heard (sendTalk out arrived)) := by
  induction out generalizing arrived b with
  | nil => cases arrived <;> simp_all [burstWrite]; rfl
  | cons o os ih =>
    cases arrived with
    | nil => simp at h
    | cons i is =>
      rw [sendTalk_cons, Bus.feed_append, Bus.heard_append]
      simp only [burstWrite, bind_apply, xchg_feed, Bus.heard_feed]
      exact ih is _ (by simpa using h)

theorem fillBytes_feed (arrived : List Byte) (b : Bus) :
    fillBytes arrived.length (b.feed (fillTalk arrived)) = ((), b.heard (fillTalk arrived)) := by
  induction arrived generalizing b with
  | nil => rfl
  | cons i rest ih =>
    rw [fillTalk_cons, Bus.feed_append, Bus.heard_append]
    simp [fillBytes, ih]

theorem fillBytes_feed_of_length (n : Nat) (arrived : List Byte) (b : Bus) (h : arrived.length = n) :
    fillBytes n (b.feed (fillTalk arrived)) = ((), b.heard (fillTalk arrived)) := by
  rw [← h, fillBytes_feed]

@[simp] theorem fillBytes_one (x : Byte) (b : Bus) :
    fillBytes 1 (b.feed (fillTalk [x])) = ((), b.heard (fillTalk [x])) := (rfl)

@[simp] theorem fillBytes_two (x y : Byte) (b : Bus) :
    fillBytes 2 (b.feed (fillTalk [x, y])) = ((), b.heard (fillTalk [x, y])) := (rfl)

@[simp] theorem deselect_feed (x : Byte) (b : Bus) :
    deselect (b.feed (deselectTalk x)) = ((), (b.heard (deselectTalk x)).withCs .high) := (rfl)

/-! ## Deadlines -/

theorem canExpire_iff (T : Nat) : canExpire T = true ↔ T < 2 ^ 32 :=
  decide_eq_true_iff

/-- Where some sample finds a deadline passed, it can end. -/
theorem canExpire_of_pastDeadline {t0 v : Word} {T : Nat} (h : pastDeadline t0 T v = true) : canExpire T = true :=
  (canExpire_iff T).2 (Nat.lt_of_le_of_lt (of_decide_eq_true h) (v - t0).isLt)

theorem Delay.canExpire {d : Delay} {T : Nat} (h : d.valid T = true) : Machine.canExpire T = true := by
  rw [Delay.valid, Bool.and_eq_true] at h
  exact canExpire_of_pastDeadline h.2

/-- What is added to a sample is how far the next lies behind it. -/
theorem add_ofNat_sub (tick : Word) (n : Nat) (h : n < 2 ^ 32) : (tick + BitVec.ofNat 32 n - tick).toNat = n := by
  rw [BitVec.add_comm, BitVec.add_sub_cancel, BitVec.toNat_ofNat, Nat.mod_eq_of_lt h]

/-- How far a sample lies behind `t0`, where less than a whole turn has passed. -/
theorem sinceStart_add (t0 tick v : Word) (h : sinceStart t0 tick + (v - tick).toNat < 2 ^ 32) :
    sinceStart t0 v = sinceStart t0 tick + (v - tick).toNat := by
  rw [sinceStart, sinceStart] at *
  rw [show v - t0 = (tick - t0) + (v - tick) by bv_omega, BitVec.toNat_add, Nat.mod_eq_of_lt h]

theorem sinceStart_le_longest (tick : Word) {starts : List Word} {t0 : Word} (h : t0 ∈ starts) :
    sinceStart t0 tick ≤ longest tick starts := by
  induction starts with
  | nil => cases h
  | cons u starts ih =>
    cases h with
    | head => exact Nat.le_max_left ..
    | tail _ h => exact Nat.le_trans (ih h) (Nat.le_max_right ..)

theorem longest_lt (tick : Word) (starts : List Word) : longest tick starts < 2 ^ 32 := by
  induction starts with
  | nil => exact Nat.two_pow_pos 32
  | cons t0 starts ih => exact Nat.max_lt.2 ⟨(tick - t0).isLt, ih⟩

/-- How far a sample may lie behind the last is what R300 (a) says of the deadlines that are running. -/
theorem lt_roomLeft_iff (starts : List Word) (tick : Word) (n : Nat) :
    n < roomLeft starts tick ↔ n < 2 ^ 32 ∧ ∀ t0 ∈ starts, sinceStart t0 tick + n < 2 ^ 32 := by
  have h := longest_lt tick starts
  have hr : roomLeft starts tick = 2 ^ 32 - longest tick starts := rfl
  rw [hr]
  refine ⟨fun hn => ⟨by omega, fun t0 h0 => ?_⟩, fun ⟨h1, h2⟩ => ?_⟩
  · have := sinceStart_le_longest tick h0
    omega
  · have hl : ∀ starts : List Word, (∀ t0 ∈ starts, sinceStart t0 tick + n < 2 ^ 32) →
        longest tick starts + n < 2 ^ 32 := by
      intro starts
      induction starts with
      | nil => exact fun _ => by simpa [longest] using h1
      | cons t0 starts ih =>
        intro hs
        have h3 := ih fun u hu => hs u (.tail _ hu)
        have h4 := hs t0 (.head _)
        rw [longest]
        omega
    have := hl starts h2
    omega

theorem roomLeft_pos (starts : List Word) (tick : Word) : 0 < roomLeft starts tick :=
  (lt_roomLeft_iff starts tick 0).2 ⟨by decide, fun t0 _ => (tick - t0).isLt⟩

/-- How far a free sample lies behind the last. -/
theorem tickBehind_sub (starts : List Word) (tick : Word) (advance : Nat) :
    (tickBehind starts tick advance - tick).toNat = advance % roomLeft starts tick :=
  add_ofNat_sub _ _ ((lt_roomLeft_iff _ _ _).1 (Nat.mod_lt _ (roomLeft_pos starts tick))).1

/-- How far the sample of a passed deadline lies behind the last: the deadline has passed, its own (a) stands, and that
of the deadlines around it where any such sample keeps it. -/
theorem tickPast_sub (t0 : Word) (T : Nat) (starts : List Word) (tick : Word) (advance : Nat) (h : T < 2 ^ 32) :
    ∃ n, (tickPast t0 T starts tick advance - tick).toNat = n ∧ T ≤ sinceStart t0 tick + n
      ∧ sinceStart t0 tick + n < 2 ^ 32
      ∧ (T - sinceStart t0 tick < roomLeft (t0 :: starts) tick → n < roomLeft (t0 :: starts) tick) := by
  have h0 : sinceStart t0 tick < 2 ^ 32 := (tick - t0).isLt
  have h1 : roomLeft [t0] tick = 2 ^ 32 - sinceStart t0 tick := by simp [roomLeft, longest, Config.tickWidth]
  have h2 : roomLeft (t0 :: starts) tick ≤ roomLeft [t0] tick := by
    have := sinceStart_le_longest tick (List.mem_cons_self (a := t0) (l := starts))
    rw [h1, roomLeft, Config.tickWidth]
    omega
  simp only [tickPast]
  generalize hr : (if T - sinceStart t0 tick < roomLeft (t0 :: starts) tick then roomLeft (t0 :: starts) tick
    else roomLeft [t0] tick) = room
  have h3 : T - sinceStart t0 tick < room ∧ room ≤ roomLeft [t0] tick
      ∧ (T - sinceStart t0 tick < roomLeft (t0 :: starts) tick → room = roomLeft (t0 :: starts) tick) := by
    rw [← hr]
    split
    · exact ⟨by assumption, h2, fun _ => rfl⟩
    · exact ⟨by omega, Nat.le_refl _, fun hn => absurd hn (by assumption)⟩
  have h4 : advance % (room - (T - sinceStart t0 tick)) < room - (T - sinceStart t0 tick) := Nat.mod_lt _ (by omega)
  exact ⟨_, add_ofNat_sub _ _ (by omega), by omega, by omega, fun hn => by have := h3.2.2 hn; omega⟩

/-- R137 with the sample `tickPast` makes: whatever came before, the deadline has passed. -/
theorem pastDeadline_tickPast (t0 : Word) (T : Nat) (starts : List Word) (tick : Word) (advance : Nat)
    (h : T < 2 ^ 32) : pastDeadline t0 T (tickPast t0 T starts tick advance) = true := by
  obtain ⟨n, hn, h1, h2, -⟩ := tickPast_sub t0 T starts tick advance h
  refine decide_eq_true ?_
  show T ≤ sinceStart t0 _
  rw [sinceStart_add t0 tick _ (by rw [hn]; exact h2), hn]
  exact h1

@[simp] theorem under_apply {α : Type} (t0 : Word) (m : Transport α) (b : Bus) :
    under t0 m b = ((m (b.withDeadlines (t0 :: b.deadlines))).1,
      (m (b.withDeadlines (t0 :: b.deadlines))).2.withDeadlines b.deadlines) := (rfl)

@[simp] theorem underDeadline_apply {α : Type} (t0 : Word) (m : Engine α) (s : State) :
    underDeadline t0 m s = ((m (s.withDeadlines (t0 :: s.bus.deadlines))).1,
      (m (s.withDeadlines (t0 :: s.bus.deadlines))).2.withDeadlines s.bus.deadlines) := (rfl)

/-! ## Waits -/

theorem pollsTalk_cons (p : Byte × Word) (ps : List (Byte × Word)) :
    pollsTalk (p :: ps) = ((fillTalk [p.1]).append (nowTalk p.2)).append (pollsTalk ps) := rfl

@[simp] theorem pollsTalk_ticks (ps : List (Byte × Word)) : (pollsTalk ps).ticks = ps.map (·.2) := by
  induction ps with
  | nil => rfl
  | cons p ps ih => simp [pollsTalk_cons, Talk.append, ih, fillTalk, nowTalk]

@[simp] theorem Bus.feed_pollsTalk_nil (b : Bus) : b.feed (pollsTalk []) = b := rfl
@[simp] theorem Bus.heard_pollsTalk_nil (b : Bus) : b.heard (pollsTalk []) = b := rfl

/-- The samples a wait has in store are among those it may take. -/
theorem pollBound_polls (ps : List (Byte × Word)) (b : Bus) : ps.length ≤ pollBound (b.feed (pollsTalk ps)) := by
  simp [pollBound]; omega

/-- Busy polls before the idle byte, with fuel for each. -/
theorem readyLoop_feed (t0 : Word) (T n : Nat) (busy : List (Byte × Word)) (b : Bus) (hn : busy.length ≤ n)
    (h : busy.all fun p => p.1 != Config.idleByte && !pastDeadline t0 T p.2) :
    readyLoop t0 T n ((b.feed (fillTalk [Config.idleByte])).feed (pollsTalk busy)) =
      (true, (b.heard (pollsTalk busy)).heard (fillTalk [Config.idleByte])) := by
  induction busy generalizing n b with
  | nil => cases n <;> simp [readyLoop]
  | cons p ps ih =>
    cases n with
    | zero => simp at hn
    | succ n =>
      simp only [List.all_cons, Bool.and_eq_true, bne_iff_ne, ne_eq, Bool.not_eq_true'] at h
      simp only [pollsTalk_cons, Bus.feed_append, Bus.heard_append, readyLoop, bind_apply, xchg_fill, h.1.1, ite_run,
        if_false, Bus.heard_feed, expired_feed, h.1.2, Bool.false_eq_true]
      exact ih n _ (by simpa using hn) h.2

/-- R139: a wait that ends with the idle byte answers true. -/
theorem waitReady_feed (w : ReadyWait) (T : Nat) (b : Bus) (h : w.valid T) :
    waitReady T (b.feed w.talk) = (true, (b.heard w.talk).withScratch (.noteT0 w.start)) := by
  simp only [waitReady, ReadyWait.talk, Bus.feed_join_cons, bind_apply, startWait_feed, Bus.heard_feed,
    Bus.withScratch_feed, Bus.feed_join_nil, under_apply, Bus.withDeadlines_feed,
    Bus.withDeadlines_withScratch, Bus.withDeadlines_heard]
  rw [readyLoop_feed _ _ _ _ _ (pollBound_polls _ _) h]
  simp

/-- Busy polls only, the last sample past the deadline. -/
theorem readyLoop_busy (t0 : Word) (T n : Nat) (busy : List (Byte × Word)) (d : Byte) (v : Word) (b : Bus)
    (hn : busy.length < n) (h : busy.all fun p => p.1 != Config.idleByte && !pastDeadline t0 T p.2)
    (hd : d ≠ Config.idleByte) (hv : pastDeadline t0 T v = true) :
    readyLoop t0 T n (b.feed (pollsTalk (busy ++ [(d, v)]))) = (false, b.heard (pollsTalk (busy ++ [(d, v)]))) := by
  induction busy generalizing n b with
  | nil =>
    cases n with
    | zero => simp at hn
    | succ n => simp [readyLoop, pollsTalk_cons, hd, hv]
  | cons p ps ih =>
    cases n with
    | zero => simp at hn
    | succ n =>
      simp only [List.all_cons, Bool.and_eq_true, bne_iff_ne, ne_eq, Bool.not_eq_true'] at h
      simp only [List.cons_append, pollsTalk_cons, Bus.feed_append, Bus.heard_append, readyLoop, bind_apply, xchg_fill,
        h.1.1, ite_run, if_false, Bus.heard_feed, expired_feed, h.1.2, Bool.false_eq_true]
      exact ih n _ (by simpa using hn) h.2

/-- R139: a wait that times out answers false. -/
theorem waitReady_busy (w : BusyWait) (T : Nat) (b : Bus) (h : w.valid T) :
    waitReady T (b.feed w.talk) = (false, (b.heard w.talk).withScratch (.noteT0 w.start)) := by
  simp only [BusyWait.valid, Bool.and_eq_true, bne_iff_ne, ne_eq] at h
  have hb := pollBound_polls (w.busy ++ [(w.lastByte, w.lastTick)])
    (((b.withDeadlines (w.start :: b.deadlines)).heard (nowTalk w.start)).withScratch (.noteT0 w.start))
  simp only [waitReady, BusyWait.talk, Bus.feed_join_cons, bind_apply, startWait_feed, Bus.heard_feed,
    Bus.withScratch_feed, Bus.feed_join_nil, under_apply, Bus.withDeadlines_feed,
    Bus.withDeadlines_withScratch, Bus.withDeadlines_heard]
  rw [readyLoop_busy _ _ _ _ _ _ _ (by simpa using hb) h.1.1 h.1.2 h.2]
  simp

/-! ## Delay (R138) -/

/-- Samples only: those of `early` find the deadline not reached, the last finds it reached. -/
theorem delayLoop_feed (t0 : Word) (T n : Nat) (early : List Word) (v : Word) (b : Bus) (hn : early.length < n)
    (h : early.all fun x => !pastDeadline t0 T x) (hv : pastDeadline t0 T v = true) :
    delayLoop t0 T n (b.feed (Talk.join ((early ++ [v]).map nowTalk))) =
      ((), b.heard (Talk.join ((early ++ [v]).map nowTalk))) := by
  induction early generalizing n b with
  | nil =>
    cases n with
    | zero => simp at hn
    | succ n => simp [delayLoop, hv]
  | cons x xs ih =>
    cases n with
    | zero => simp at hn
    | succ n =>
      simp only [List.all_cons, Bool.and_eq_true, Bool.not_eq_true'] at h
      simp only [List.cons_append, List.map_cons, Bus.feed_join_cons, Bus.heard_join_cons, delayLoop, bind_apply,
        expired_feed, h.1, ite_run, Bool.false_eq_true, if_false, Bus.heard_feed]
      exact ih n _ (by simpa using hn) h.2

theorem nowTalks_ticks (vs : List Word) : (Talk.join (vs.map nowTalk)).ticks = vs := by
  induction vs with
  | nil => rfl
  | cons v vs ih => simp [Talk.join, Talk.append, ih, nowTalk]

end Sys2Proof.Machine
end

