-- ==== Sys2Proof/Laws/Command.lean ====
section
/-! SUPPORT. What a command transaction does, for every way the bus can answer it (`Answer`, `NoSelect`). -/

namespace Sys2Proof.Machine

@[simp] theorem frameBytes_length (index : CmdIndex) (arg : Word) : (frameBytes index arg).length = 6 := by
  simp [frameBytes, argBytes]

/-- R140: a card that gets ready in time. -/
theorem select_feed (y : Byte) (w : ReadyWait) (b : Bus) (h : w.valid Config.tReadyMs) :
    select (b.feed (selectTalk y w.talk)) =
      (true, ((b.heard (selectTalk y w.talk)).withScratch (.noteT0 w.start)).withCs .low) := by
  simp [select, selectTalk, waitReady_feed w _ _ h]

/-- R140: a card that stays busy; it is deselected again. -/
theorem select_busy (y z : Byte) (w : BusyWait) (b : Bus) (h : w.valid Config.tReadyMs) :
    select ((b.feed (deselectTalk z)).feed (selectTalk y w.talk)) =
      (false, (((b.heard (selectTalk y w.talk)).heard (deselectTalk z)).withScratch
        (.noteT0 w.start)).withCs .high) := by
  simp [select, selectTalk, waitReady_busy w _ _ h]

/-- R157: the poll returns the last byte polled. -/
theorem pollLoop_feed (polled : List Byte) (n : Nat) (b : Bus) (h0 : polled ≠ []) (hn : polled.length ≤ n + 1)
    (hskip : polled.dropLast.all fun x => !validR1 x)
    (hlast : validR1 (polled.getLastD 0) || polled.length == n + 1) :
    pollLoop n (b.feed (fillTalk polled)) =
      (polled.getLastD 0, (b.heard (fillTalk polled)).withScratch
        (.noteR1 (polled.getLastD 0) (n + 1 - polled.length))) := by
  induction polled generalizing n b with
  | nil => exact absurd rfl h0
  | cons x xs ih =>
    cases xs with
    | nil =>
      cases n with
      | zero => simp [pollLoop]
      | succ n =>
        have hv : validR1 x = true := by simpa using hlast
        simp [pollLoop, hv]
    | cons y ys =>
      cases n with
      | zero => simp at hn
      | succ n =>
        have hx : validR1 x = false := by simp at hskip; exact hskip.1
        rw [fillTalk_cons, Bus.feed_append, Bus.heard_append]
        simp only [pollLoop, bind_apply, xchg_fill, Bus.heard_feed, hx, ite_run, Bool.false_eq_true, if_false]
        rw [ih n _ (by simp) (by simpa using hn) (by simp at hskip ⊢; exact hskip.2) (by simpa using hlast)]
        simp

theorem stuffByte_feed (a : Answer) (index : CmdIndex) (b : Bus) :
    stuffByte index (b.feed (fillTalk (a.stuff index))) = ((), b.heard (fillTalk (a.stuff index))) := by
  by_cases h : index = 12
  · subst h; exact fillBytes_one a.onStuff b
  · rw [stuffByte, Answer.stuff, if_neg h, if_neg h]; rfl

/-- R151 (steps 2 to 5): one plain transaction in which the card gets selected. -/
theorem sendPlain_answer (index : CmdIndex) (arg : Word) (a : Answer) (b : Bus) (h : a.valid) :
    sendPlain index arg (b.feed (a.talk index arg)) =
      (a.resp, ((b.heard (a.talk index arg)).withScratch a.note).withCs .low) := by
  simp only [Answer.valid, Bool.and_eq_true, beq_iff_eq, bne_iff_ne, ne_eq, decide_eq_true_eq] at h
  obtain ⟨⟨⟨⟨⟨hw, hf⟩, h0⟩, hn⟩, hskip⟩, hlast⟩ := h
  have hsend := fun b => burstWrite_feed (frameBytes index arg) a.onFrame b (by simp [hf])
  have hsel := fun b => select_feed a.onSelect a.wait b hw
  have hpoll : ∀ b : Bus, pollR1 (b.feed (fillTalk a.polled)) = (a.resp, (b.heard (fillTalk a.polled)).withScratch
      (.noteR1 a.resp (Config.nR1Poll - a.polled.length))) := fun b =>
    pollLoop_feed a.polled (Config.nR1Poll - 1) b (by intro e; simp [e] at h0) hn hskip hlast
  have hnote : (fun c : Scratch => (c.noteT0 a.wait.start).noteR1 a.resp (Config.nR1Poll - a.polled.length)) = a.note :=
    rfl
  simp [sendPlain, Answer.talk, hsel, sendFrame, hsend, stuffByte_feed, hpoll, hnote]

/-- R153: a selection that times out; no frame byte is sent. -/
theorem sendPlain_noSelect (index : CmdIndex) (arg : Word) (a : NoSelect) (b : Bus) (h : a.valid) :
    sendPlain index arg (b.feed a.talk) =
      (Config.r1Sentinel, ((b.heard a.talk).withScratch (.noteT0 a.wait.start)).withCs .high) := by
  simp only [sendPlain, NoSelect.talk, Bus.feed_join_cons, Bus.feed_join_nil, bind_apply, deselect_feed,
    Bus.heard_feed, Bus.withCs_feed, select_busy a.onSelect a.onRelease a.wait _ h, ite_run, Bool.false_eq_true,
    if_false, pure_apply]
  simp

/-- R151 for a plain command. -/
theorem sendCommand_plain (n : CmdIndex) (arg : Word) : sendCommand (cmd n) arg = sendPlain n arg := rfl

theorem sendCommand_answer (n : CmdIndex) (arg : Word) (a : Answer) (b : Bus) (h : a.valid) :
    sendCommand (cmd n) arg (b.feed (a.talk n arg)) =
      (a.resp, ((b.heard (a.talk n arg)).withScratch a.note).withCs .low) :=
  sendPlain_answer n arg a b h

/-- R152: both transactions of an application command. -/
theorem sendCommand_app (n : CmdIndex) (arg : Word) (a₁ a₂ : Answer) (b : Bus) (h₁ : a₁.valid) (h₂ : a₂.valid)
    (hr : okOrIdleR1 a₁.resp) :
    sendCommand (acmd n) arg ((b.feed (a₂.talk n arg)).feed (a₁.talk 55 0)) =
      (a₂.resp, (((b.heard (a₁.talk 55 0)).heard (a₂.talk n arg)).withScratch
        fun c => a₂.note (a₁.note c)).withCs .low) := by
  simp [sendCommand, acmd, sendPlain_answer _ _ a₁ _ h₁, hr, sendPlain_answer _ _ a₂ _ h₂]

/-- R152: the R1 of CMD55 above 1 ends it. -/
theorem sendCommand_app_abort (n : CmdIndex) (arg : Word) (a : Answer) (b : Bus) (h : a.valid)
    (hr : okOrIdleR1 a.resp = false) :
    sendCommand (acmd n) arg (b.feed (a.talk 55 0)) =
      (a.resp, ((b.heard (a.talk 55 0)).withScratch a.note).withCs .low) := by
  simp [sendCommand, acmd, sendPlain_answer _ _ a _ h, hr]

/-- R101: the four bytes after CMD8's R1. -/
theorem readR7_feed (r7 : List Byte) (b : Bus) (h : r7.length = 4) :
    readR7 (b.feed (fillTalk r7)) = (r7, (b.heard (fillTalk r7)).withScratch (.noteR7 r7)) := by
  simp [readR7, burstRead_feed_of_length 4 r7 _ h]

/-- R101: the four bytes after CMD58's R1. -/
theorem readOcr_feed (ocr : List Byte) (b : Bus) (h : ocr.length = 4) :
    readOcr (b.feed (fillTalk ocr)) = (ocr, (b.heard (fillTalk ocr)).withScratch (.noteOcr ocr)) := by
  simp [readOcr, burstRead_feed_of_length 4 ocr _ h]

end Sys2Proof.Machine
end

