-- ==== Sys2Proof/Laws/Block.lean ====
section
/-! SUPPORT. What a data packet does, for every way the bus can answer it: received (`Packet`), not received
(`BadToken`, `NoToken`), transmitted (`Sent`), stopped (`Stopped`). -/

namespace Sys2Proof.Machine

/-! ## The token wait -/

/-- Idle bytes, each sampled before the deadline, and then some other byte. -/
theorem tokenLoop_feed (t0 : Word) (n : Nat) (idle : List Word) (tok : Byte) (b : Bus) (hn : idle.length ≤ n)
    (h : idle.all fun v => !pastDeadline t0 Config.tTokenMs v) (ht : tok ≠ Config.idleByte) :
    tokenLoop t0 n ((b.feed (fillTalk [tok])).feed (pollsTalk (idle.map fun v => (Config.idleByte, v)))) =
      (tok, (b.heard (pollsTalk (idle.map fun v => (Config.idleByte, v)))).heard (fillTalk [tok])) := by
  induction idle generalizing n b with
  | nil => cases n <;> simp [tokenLoop, ht]
  | cons v vs ih =>
    cases n with
    | zero => simp at hn
    | succ n =>
      simp only [List.all_cons, Bool.and_eq_true, Bool.not_eq_true'] at h
      simp only [List.map_cons, pollsTalk_cons, Bus.feed_append, Bus.heard_append, tokenLoop, bind_apply, xchg_fill,
        ite_run, if_true, Bus.heard_feed, expired_feed, h.1, Bool.false_eq_true, if_false]
      exact ih n _ (by simpa using hn) h.2

/-- Idle bytes only, the last sample past the deadline. -/
theorem tokenLoop_timeout (t0 : Word) (n : Nat) (idle : List Word) (v : Word) (b : Bus) (hn : idle.length < n)
    (h : idle.all fun v => !pastDeadline t0 Config.tTokenMs v) (hv : pastDeadline t0 Config.tTokenMs v = true) :
    tokenLoop t0 n (b.feed (pollsTalk ((idle ++ [v]).map fun v => (Config.idleByte, v)))) =
      (Config.idleByte, b.heard (pollsTalk ((idle ++ [v]).map fun v => (Config.idleByte, v)))) := by
  induction idle generalizing n b with
  | nil =>
    cases n with
    | zero => simp at hn
    | succ n => simp [tokenLoop, pollsTalk_cons, hv]
  | cons x xs ih =>
    cases n with
    | zero => simp at hn
    | succ n =>
      simp only [List.all_cons, Bool.and_eq_true, Bool.not_eq_true'] at h
      simp only [List.cons_append, List.map_cons, pollsTalk_cons, Bus.feed_append, Bus.heard_append, tokenLoop,
        bind_apply, xchg_fill, ite_run, if_true, Bus.heard_feed, expired_feed, h.1, Bool.false_eq_true, if_false]
      exact ih n _ (by simpa using hn) h.2

theorem awaitToken_feed (start : Word) (idle : List Word) (tok : Byte) (b : Bus)
    (h : idle.all fun v => !pastDeadline start Config.tTokenMs v) (ht : tok ≠ Config.idleByte) :
    awaitToken ((b.feed (fillTalk [tok])).feed (tokenTalk start idle)) =
      (tok, ((b.heard (tokenTalk start idle)).heard (fillTalk [tok])).withScratch
        fun c => (c.noteT0 start).noteTok tok) := by
  simp only [awaitToken, tokenTalk, Bus.feed_join_cons, bind_apply, startWait_feed, Bus.heard_feed,
    Bus.withScratch_feed, Bus.feed_join_nil, under_apply, Bus.withDeadlines_feed, Bus.withDeadlines_withScratch,
    Bus.withDeadlines_heard]
  rw [tokenLoop_feed _ _ _ _ _ (by simpa using pollBound_polls (idle.map fun v => (Config.idleByte, v)) _) h ht]
  simp

theorem awaitToken_timeout (p : NoToken) (b : Bus) (h : p.valid) :
    awaitToken (b.feed p.talk) =
      (Config.idleByte, (b.heard p.talk).withScratch fun c => (c.noteT0 p.start).noteTok Config.idleByte) := by
  simp only [NoToken.valid, Bool.and_eq_true] at h
  have hb := pollBound_polls ((p.idle ++ [p.lastTick]).map fun v => (Config.idleByte, v))
    (((b.withDeadlines (p.start :: b.deadlines)).heard (nowTalk p.start)).withScratch (.noteT0 p.start))
  simp only [awaitToken, NoToken.talk, tokenTalk, Bus.feed_join_cons, bind_apply, startWait_feed, Bus.heard_feed,
    Bus.withScratch_feed, Bus.feed_join_nil, under_apply, Bus.withDeadlines_feed, Bus.withDeadlines_withScratch,
    Bus.withDeadlines_heard]
  rw [tokenLoop_timeout _ _ _ _ _ (by simpa using hb) h.1 h.2]
  simp

/-! ## receiveBlock -/

/-- R190: the data of a packet that comes. -/
theorem receiveBlock_packet (length : Nat) (p : Packet) (b : Bus) (h : p.valid length) :
    receiveBlock length (b.feed p.talk) =
      (some p.data, (b.heard p.talk).withScratch fun c => (c.noteT0 p.start).noteTok Config.tokenStart) := by
  simp only [Packet.valid, Bool.and_eq_true, beq_iff_eq] at h
  have ht := fun b => awaitToken_feed p.start p.idle Config.tokenStart b h.1 (by decide)
  have hd := fun b => burstRead_feed_of_length length p.data b h.2
  simp [receiveBlock, Packet.talk, ht, hd]

/-- R190, R191: any other byte ends it, and nothing more is read. -/
theorem receiveBlock_badToken (length : Nat) (p : BadToken) (b : Bus) (h : p.valid) :
    receiveBlock length (b.feed p.talk) =
      (none, (b.heard p.talk).withScratch fun c => (c.noteT0 p.start).noteTok p.tok) := by
  simp only [BadToken.valid, Bool.and_eq_true, bne_iff_ne, ne_eq] at h
  simp [receiveBlock, BadToken.talk, awaitToken_feed p.start p.idle p.tok _ h.1.1 h.1.2, h.2]

/-- R191: a token that does not come in 200 ms. -/
theorem receiveBlock_noToken (length : Nat) (p : NoToken) (b : Bus) (h : p.valid) :
    receiveBlock length (b.feed p.talk) =
      (none, (b.heard p.talk).withScratch fun c => (c.noteT0 p.start).noteTok Config.idleByte) := by
  have hne : Config.idleByte ≠ Config.tokenStart := by decide
  simp [receiveBlock, awaitToken_timeout p _ h, hne]

/-! ## transmitBlock -/

theorem xchg_sent (o i : Byte) (b : Bus) :
    xchg o (b.feed (sendTalk [o] [i])) = (i, b.heard (sendTalk [o] [i])) := (rfl)

/-- R193, R194: the data response decides. -/
theorem transmitBlock_sent (data : List Byte) (token : Byte) (p : Sent) (b : Bus) (h : p.valid)
    (hd : data.length = Config.sectorSize) (ht : token ≠ Config.tokenStop) :
    transmitBlock data token (b.feed (p.talk token data)) =
      (dataAccepted p.resp, (b.heard (p.talk token data)).withScratch
        fun c => (c.noteT0 p.wait.start).noteResp p.resp) := by
  simp only [Sent.valid, Bool.and_eq_true, beq_iff_eq] at h
  have hw := fun b => waitReady_feed p.wait Config.tReadyMs b h.1
  have hs := fun b => burstWrite_feed data p.onData b (by rw [h.2, hd])
  simp [transmitBlock, sendData, Sent.talk, hw, hs, ht, xchg_sent]

/-- R193: a card that stays busy gets neither token nor data. -/
theorem transmitBlock_busy (data : List Byte) (token : Byte) (w : BusyWait) (b : Bus)
    (h : w.valid Config.tReadyMs) :
    transmitBlock data token (b.feed w.talk) =
      (false, (b.heard w.talk).withScratch (.noteT0 w.start)) := by
  simp [transmitBlock, waitReady_busy w _ _ h]

/-- R195: the stop token, no data, no response read. -/
theorem sendStop_stopped (p : Stopped) (b : Bus) (h : p.valid) :
    sendStop (b.feed p.talk) = (true, (b.heard p.talk).withScratch (.noteT0 p.wait.start)) := by
  have hw := fun b => waitReady_feed p.wait Config.tReadyMs b h
  simp [sendStop, transmitBlock, Stopped.talk, hw, xchg_sent]

theorem sendStop_busy (w : BusyWait) (b : Bus) (h : w.valid Config.tReadyMs) :
    sendStop (b.feed w.talk) = (false, (b.heard w.talk).withScratch (.noteT0 w.start)) :=
  transmitBlock_busy _ _ w b h

end Sys2Proof.Machine
end

