-- ==== Sys2Proof/Laws/Decode.lean ====
section
/-! SUPPORT. What the decoder does with a frame, said once: its first byte and its index, its argument bytes and its
argument carry the same bits. -/

namespace Sys2Proof

/-- R95: the first byte of a frame has start bit 0, transmission bit 1, and the index. -/
theorem frameHead_fields (index : CmdIndex) :
    (frameHead index).extractLsb' 6 2 = 1 ∧ (frameHead index).extractLsb' 0 6 = index := by
  revert index; decide +kernel

/-- R95: a byte with those two bits is the first byte of the frame of its index. -/
theorem frameHead_extract (b : Byte) (h : b.extractLsb' 6 2 = 1) : frameHead (b.extractLsb' 0 6) = b := by
  revert b; decide +kernel

/-- R60: the four argument bytes carry the argument. -/
theorem joinArg_argBytes (arg : Word) :
    joinArg (arg.extractLsb' 24 8) (arg.extractLsb' 16 8) (arg.extractLsb' 8 8) (arg.extractLsb' 0 8) = arg := by
  apply BitVec.eq_of_toNat_eq
  simp only [joinArg, BitVec.toNat_append, BitVec.extractLsb'_toNat, Nat.shiftRight_eq_div_pow]
  have := arg.isLt
  rw [← Nat.shiftLeft_add_eq_or_of_lt, ← Nat.shiftLeft_add_eq_or_of_lt, ← Nat.shiftLeft_add_eq_or_of_lt] <;>
    (try simp only [Nat.shiftLeft_eq]) <;> omega

/-- R60: four bytes are the argument bytes of the argument they join to. -/
theorem argBytes_joinArg (a3 a2 a1 a0 : Byte) : argBytes (joinArg a3 a2 a1 a0) = [a3, a2, a1, a0] := by
  have h : (joinArg a3 a2 a1 a0).toNat = a3.toNat * 2 ^ 24 + a2.toNat * 2 ^ 16 + a1.toNat * 2 ^ 8 + a0.toNat := by
    simp only [joinArg, BitVec.toNat_append]
    rw [← Nat.shiftLeft_add_eq_or_of_lt, ← Nat.shiftLeft_add_eq_or_of_lt, ← Nat.shiftLeft_add_eq_or_of_lt] <;>
      (try simp only [Nat.shiftLeft_eq]) <;> omega
  simp only [argBytes, List.cons.injEq, and_true]
  refine ⟨?_, ?_, ?_, ?_⟩ <;> apply BitVec.eq_of_toNat_eq <;>
    simp only [BitVec.extractLsb'_toNat, Nat.shiftRight_eq_div_pow, h] <;> omega

/-- A frame decodes to the command of its index and its argument. -/
theorem decode_frameBytes (index : CmdIndex) (arg : Word) (o : Operands) :
    decode ⟨.wire, frameBytes index arg, o⟩ = decodeCommand index arg := by
  simp only [frameBytes, argBytes, List.cons_append, List.nil_append, decode, decodeWire, decodeFrame, (frameHead_fields index).1,
    (frameHead_fields index).2, joinArg_argBytes, if_true]
  cases decodeCommand index arg <;> rfl

/-- Six bytes that decode at all are the frame of the command they decode to. -/
theorem decodeFrame_ok (b0 a3 a2 a1 a0 k : Byte) (i : Instr) (h : decodeFrame b0 a3 a2 a1 a0 k = .ok i) :
    ∃ (index : CmdIndex) (arg : Word), [b0, a3, a2, a1, a0, k] = frameBytes index arg ∧
      decodeCommand index arg = .ok i := by
  unfold decodeFrame at h
  split at h
  case isFalse => cases h
  rename_i hb
  split at h
  case h_2 => cases h
  rename_i j hj
  split at h
  case isFalse => cases h
  rename_i hk
  refine ⟨_, _, ?_, hj.trans h⟩
  rw [frameBytes, argBytes_joinArg, frameHead_extract b0 hb, ← hk]
  rfl

/-! ## What each table of the decoder can answer -/

theorem eq_of_ite {α : Type} {c : Prop} [Decidable c] {a b x : α} (h : (if c then a else b) = x) :
    (c ∧ a = x) ∨ (¬c ∧ b = x) := by
  split at h
  · exact .inl ⟨‹_›, h⟩
  · exact .inr ⟨‹_›, h⟩

theorem fixedArg_ok (want arg : Word) (i j : Instr) (h : fixedArg want arg i = .ok j) : arg = want ∧ i = j := by
  obtain ⟨hc, h'⟩ | ⟨-, h'⟩ := eq_of_ite h
  · exact ⟨hc, Except.ok.inj h'⟩
  · cases h'

/-- Every ordinal that decodes is that of the instruction it decodes to (R91). -/
theorem decodeHost_some (code : Byte) (o : Operands) (i : Instr) (h : decodeHost code o = some i) :
    i.wellFormed = true ∧ (encode i).port = .host ∧ (encode i).bytes = [code] := by
  unfold decodeHost at h
  iterate 13
    obtain ⟨rfl, h⟩ | ⟨-, h⟩ := eq_of_ite h
    · cases h; exact ⟨rfl, rfl, rfl⟩
  cases h

/-- Every token byte that decodes is that of the instruction it decodes to (R103). -/
theorem decodeToken_some (code : Byte) (o : Operands) (i : Instr) (h : decodeToken code o = some i) :
    i.wellFormed = true ∧ (encode i).port = .wire ∧ (encode i).bytes = [code] := by
  unfold decodeToken at h
  iterate 3
    obtain ⟨rfl, h⟩ | ⟨-, h⟩ := eq_of_ite h
    · cases h; exact ⟨rfl, rfl, rfl⟩
  cases h

/-- Every index and argument that decode are those of the instruction they decode to (R96, R97). -/
theorem decodeCommand_ok (index : CmdIndex) (arg : Word) (i : Instr) (h : decodeCommand index arg = .ok i) :
    i.wellFormed = true ∧ (encode i).port = .wire ∧ (encode i).bytes = frameBytes index arg := by
  unfold decodeCommand at h
  iterate 16
    obtain ⟨rfl, h⟩ | ⟨-, h⟩ := eq_of_ite h
    · first
        | (obtain ⟨rfl, rfl⟩ := fixedArg_ok _ _ _ _ h; exact ⟨rfl, rfl, rfl⟩)
        | (cases h; exact ⟨rfl, rfl, rfl⟩)
  obtain ⟨rfl, hx⟩ | ⟨-, h⟩ := eq_of_ite h
  · obtain ⟨ha, h'⟩ | ⟨-, h'⟩ := eq_of_ite hx
    · cases h'; exact ⟨by simpa [Instr.wellFormed] using ha, rfl, rfl⟩
    · cases h'
  iterate 2
    obtain ⟨rfl, h⟩ | ⟨-, h⟩ := eq_of_ite h
    · obtain ⟨rfl, rfl⟩ := fixedArg_ok _ _ _ _ h
      exact ⟨rfl, rfl, rfl⟩
  cases h

end Sys2Proof
end

