-- ==== Sys2Proof/Laws/Memory.lean ====
section
/-! SUPPORT. The laws of the host's memory: a read after a write, the frame of a write, the canonical form kept by
every operation, and that the canonical form makes equal memories equal data. -/

namespace Sys2Proof.Machine

/-! ## The canonical form -/

theorem Memory.wfFrom_cons (lo k : Nat) (b : Byte) (m : Memory) :
    Memory.wfFrom lo ((k, b) :: m) = true ↔ lo ≤ k ∧ b ≠ Memory.unlisted ∧ Memory.wfFrom (k + 1) m = true := by
  simp [Memory.wfFrom, and_assoc]

theorem Memory.wfFrom_mono (lo lo' : Nat) (m : Memory) (hl : lo' ≤ lo) (h : Memory.wfFrom lo m = true) :
    Memory.wfFrom lo' m = true := by
  cases m with
  | nil => rfl
  | cons c m =>
    rw [Memory.wfFrom_cons] at h ⊢
    exact ⟨by omega, h.2⟩

/-- Nothing is listed below where the form starts. -/
theorem Memory.read_below (lo a : Nat) (m : Memory) (h : Memory.wfFrom lo m = true) (ha : a < lo) :
    m.read a = Memory.unlisted := by
  cases m with
  | nil => rfl
  | cons c m =>
    obtain ⟨k, b⟩ := c
    rw [Memory.wfFrom_cons] at h
    have h1 : a ≠ k := by omega
    have h2 : a < k := by omega
    simp [Memory.read, h1, h2]

theorem Memory.write_wfFrom (lo a : Nat) (v : Byte) (m : Memory) (h : Memory.wfFrom lo m = true) (ha : lo ≤ a) :
    Memory.wfFrom lo (m.write a v) = true := by
  induction m generalizing lo with
  | nil =>
    simp only [Memory.write]
    split
    · rfl
    · exact (Memory.wfFrom_cons ..).2 ⟨ha, ‹_›, rfl⟩
  | cons c m ih =>
    obtain ⟨k, b⟩ := c
    have h' := (Memory.wfFrom_cons ..).1 h
    simp only [Memory.write]
    split
    · split
      · exact h
      · exact (Memory.wfFrom_cons ..).2 ⟨ha, ‹_›, (Memory.wfFrom_cons ..).2 ⟨by omega, h'.2⟩⟩
    · split
      · split
        · exact Memory.wfFrom_mono _ _ _ (by omega) h'.2.2
        · exact (Memory.wfFrom_cons ..).2 ⟨ha, ‹_›, by subst_vars; exact h'.2.2⟩
      · exact (Memory.wfFrom_cons ..).2 ⟨h'.1, h'.2.1, ih _ h'.2.2 (by omega)⟩

/-- A write keeps the canonical form. -/
theorem Memory.write_wf (a : Nat) (v : Byte) (m : Memory) (h : m.wf = true) : (m.write a v).wf = true :=
  Memory.write_wfFrom 0 a v m h (Nat.zero_le a)

/-- A write of several bytes keeps the canonical form. -/
theorem Memory.writeBytes_wf (l : List Byte) (a : Nat) (m : Memory) (h : m.wf = true) :
    (m.writeBytes a l).wf = true := by
  induction l generalizing a with
  | nil => exact h
  | cons v l ih => exact Memory.write_wf _ _ _ (ih _)

/-! ## Reads after writes -/

theorem Memory.read_write_from (lo a x : Nat) (v : Byte) (m : Memory) (h : Memory.wfFrom lo m = true) :
    (m.write a v).read x = if x = a then v else m.read x := by
  induction m generalizing lo with
  | nil =>
    by_cases hv : v = Memory.unlisted <;> by_cases hx : x = a <;> simp [Memory.write, Memory.read, hv, hx]
  | cons c m ih =>
    obtain ⟨k, b⟩ := c
    have h' := (Memory.wfFrom_cons ..).1 h
    have hb := fun y (hy : y < k + 1) => Memory.read_below _ y m h'.2.2 hy
    simp only [Memory.write]
    by_cases h1 : a < k
    · by_cases hv : v = Memory.unlisted <;> by_cases hx : x = a
      · subst hx; simp [h1, hv, Memory.read, Nat.ne_of_lt h1]
      · simp [h1, hv, hx]
      · simp [h1, hv, hx, Memory.read]
      · simp only [h1, hv, hx, if_true, if_false, Memory.read]
        by_cases h2 : x < a
        · simp [h2, Nat.lt_trans h2 h1, Nat.ne_of_lt (Nat.lt_trans h2 h1)]
        · simp [h2]
    · by_cases h2 : a = k
      · subst h2
        by_cases hv : v = Memory.unlisted <;> by_cases hx : x = a
        · subst hx; simp [hv, hb x (by omega)]
        · by_cases h3 : x < a
          · simp [hv, hx, h3, Memory.read, hb x (by omega)]
          · simp [hv, hx, h3, Memory.read]
        · simp [hv, hx, Memory.read]
        · simp [hv, hx, Memory.read]
      · simp only [h1, h2, if_false, Memory.read, ih _ h'.2.2]
        by_cases hx : x = a
        · subst hx; simp [h1, h2]
        · simp [hx]

/-- The byte written is what is read there; every other address reads as before. -/
theorem Memory.read_write (a x : Nat) (v : Byte) (m : Memory) (h : m.wf = true) :
    (m.write a v).read x = if x = a then v else m.read x :=
  Memory.read_write_from 0 a x v m h

/-- The same for several bytes. -/
theorem Memory.read_writeBytes (l : List Byte) (a x : Nat) (m : Memory) (h : m.wf = true) :
    (m.writeBytes a l).read x = if a ≤ x ∧ x < a + l.length then l.getD (x - a) Memory.unlisted else m.read x := by
  induction l generalizing a with
  | nil => simp [Memory.writeBytes]
  | cons v l ih =>
    rw [Memory.writeBytes, Memory.read_write _ _ _ _ (Memory.writeBytes_wf _ _ _ h), ih]
    by_cases hx : x = a
    · subst hx; simp
    · by_cases h1 : a + 1 ≤ x ∧ x < a + 1 + l.length
      · obtain ⟨d, rfl⟩ := Nat.exists_eq_add_of_le h1.1
        have h2 : a ≤ a + 1 + d ∧ a + 1 + d < a + (v :: l).length := by simp at h1 ⊢; omega
        have e1 : a + 1 + d - (a + 1) = d := by omega
        have e2 : a + 1 + d - a = d + 1 := by omega
        rw [if_neg hx, if_pos h1, if_pos h2, e1, e2, List.getD_cons_succ]
      · have h2 : ¬(a ≤ x ∧ x < a + (v :: l).length) := by simp at h1 ⊢; omega
        rw [if_neg hx, if_neg h1, if_neg h2]

/-- Outside the bytes written every address reads as before. -/
theorem Memory.read_writeBytes_outside (l : List Byte) (a x : Nat) (m : Memory) (h : m.wf = true)
    (hx : x < a ∨ a + l.length ≤ x) : (m.writeBytes a l).read x = m.read x := by
  rw [Memory.read_writeBytes _ _ _ _ h, if_neg (by omega)]

@[simp] theorem Memory.readBytes_length (m : Memory) (a n : Nat) : (m.readBytes a n).length = n := by
  induction n generalizing a with
  | zero => rfl
  | succ n ih => simp [Memory.readBytes, ih]

theorem Memory.readBytes_congr (m m' : Memory) (a n : Nat)
    (h : ∀ x, a ≤ x → x < a + n → m.read x = m'.read x) : m.readBytes a n = m'.readBytes a n := by
  induction n generalizing a with
  | zero => rfl
  | succ n ih =>
    simp only [Memory.readBytes]
    rw [h a (by omega) (by omega), ih _ fun x h1 h2 => h x (by omega) (by omega)]

/-- The bytes written are what is read back. -/
theorem Memory.readBytes_writeBytes (l : List Byte) (a : Nat) (m : Memory) (h : m.wf = true) :
    (m.writeBytes a l).readBytes a l.length = l := by
  induction l generalizing a with
  | nil => rfl
  | cons v l ih =>
    have hw := Memory.writeBytes_wf l (a + 1) m h
    simp only [Memory.writeBytes, List.length_cons, Memory.readBytes, Memory.read_write _ _ _ _ hw, if_true]
    rw [Memory.readBytes_congr _ (m.writeBytes (a + 1) l) _ _ fun x h1 _ => ?_, ih]
    rw [Memory.read_write _ _ _ _ hw, if_neg (by omega)]

/-- Bytes written one run behind the other are one run. -/
theorem Memory.writeBytes_append (l₁ l₂ : List Byte) (a : Nat) (m : Memory) :
    m.writeBytes a (l₁ ++ l₂) = (m.writeBytes (a + l₁.length) l₂).writeBytes a l₁ := by
  induction l₁ generalizing a with
  | nil => rfl
  | cons v l ih =>
    simp only [List.cons_append, Memory.writeBytes, ih, List.length_cons]
    rw [Nat.add_right_comm, Nat.add_assoc a l.length 1]

/-! ## Equal memories are equal data -/

theorem Memory.ext_from (lo : Nat) (m m' : Memory) (h : Memory.wfFrom lo m = true) (h' : Memory.wfFrom lo m' = true)
    (hr : ∀ x, m.read x = m'.read x) : m = m' := by
  induction m generalizing lo m' with
  | nil =>
    cases m' with
    | nil => rfl
    | cons c m' =>
      have h1 := (Memory.wfFrom_cons ..).1 h'
      have h2 := hr c.1
      simp only [Memory.read, if_true] at h2
      exact absurd h2.symm h1.2.1
  | cons c m ih =>
    obtain ⟨k, b⟩ := c
    have h1 := (Memory.wfFrom_cons ..).1 h
    cases m' with
    | nil =>
      have h2 := hr k
      simp only [Memory.read, if_true] at h2
      exact absurd h2 h1.2.1
    | cons c' m' =>
      obtain ⟨k', b'⟩ := c'
      have h2 := (Memory.wfFrom_cons ..).1 h'
      have hk := hr k
      have hk' := hr k'
      simp only [Memory.read, if_true] at hk hk'
      rcases Nat.lt_trichotomy k k' with hlt | heq | hgt
      · rw [if_neg (by omega), if_pos hlt] at hk
        exact absurd hk h1.2.1
      · subst heq
        rw [if_pos rfl] at hk
        subst hk
        rw [ih (k + 1) m' h1.2.2 h2.2.2 fun x => ?_]
        by_cases hx : x < k + 1
        · rw [Memory.read_below _ _ _ h1.2.2 hx, Memory.read_below _ _ _ h2.2.2 hx]
        · have h3 := hr x
          simpa only [Memory.read, if_neg (show ¬x = k by omega), if_neg (show ¬x < k by omega)] using h3
      · rw [if_neg (by omega), if_pos hgt] at hk'
        exact absurd hk'.symm h2.2.1

/-- Two memories in canonical form that read alike everywhere are the same list. -/
theorem Memory.ext (m m' : Memory) (h : m.wf = true) (h' : m'.wf = true) (hr : ∀ x, m.read x = m'.read x) :
    m = m' :=
  Memory.ext_from 0 m m' h h' hr

theorem reset_memory_wf : State.reset.mem.wf = true := rfl

end Sys2Proof.Machine
end

