-- ==== Sys2Proof/Laws/Runs.lean ====
section
/-! SUPPORT. What a procedure does when the oracles have one of its conversations in store, as a small calculus: a
procedure that `Speaks` a conversation takes exactly its answers, leaves exactly its events, and answers as said.
Conversations of a sequence are appended (`Speaks.bind`); one lemma for each shared operation follows, over every way
the bus can answer it. -/

namespace Sys2Proof.Machine

/-- With `k` in store `m` answers `x`; the history has grown by the events of `k`; only the scratch and the
chip-select line may differ beside. -/
def Speaks {α : Type} (m : Transport α) (k : Talk) (x : α) : Prop :=
  ∀ b : Bus, ∃ (c : Scratch) (l : CsLevel), m (b.feed k) = (x, ((b.heard k).withScratch fun _ => c).withCs l)

theorem Speaks.bind {α β : Type} {m : Transport α} {f : α → Transport β} {k l : Talk} {x : α} {y : β}
    (hm : Speaks m k x) (hf : Speaks (f x) l y) : Speaks (m >>= f) (k.append l) y := by
  intro b
  obtain ⟨c, v, hc⟩ := hm (b.feed l)
  obtain ⟨d, w, hd⟩ := hf (((b.heard k).withScratch fun _ => c).withCs v)
  refine ⟨d, w, ?_⟩
  rw [bind_apply, Bus.feed_append, hc]
  simp only [Bus.heard_feed, Bus.withScratch_feed, Bus.withCs_feed]
  rw [hd]
  simp

theorem Speaks.pure {α : Type} (x : α) : Speaks (pure x) (Talk.join []) x :=
  fun b => ⟨b.scratch, b.cs, rfl⟩

theorem Speaks.ofHeard {α : Type} {m : Transport α} {k : Talk} {x : α}
    (h : ∀ b : Bus, m (b.feed k) = (x, b.heard k)) : Speaks m k x :=
  fun b => ⟨b.scratch, b.cs, h b⟩

theorem Speaks.ofNote {α : Type} {m : Transport α} {k : Talk} {x : α} {f : Scratch → Scratch}
    (h : ∀ b : Bus, m (b.feed k) = (x, (b.heard k).withScratch f)) : Speaks m k x :=
  fun b => ⟨f b.scratch, b.cs, h b⟩

theorem Speaks.ofLevel {α : Type} {m : Transport α} {k : Talk} {x : α} {f : Scratch → Scratch} {l : CsLevel}
    (h : ∀ b : Bus, m (b.feed k) = (x, ((b.heard k).withScratch f).withCs l)) : Speaks m k x :=
  fun b => ⟨f b.scratch, l, h b⟩

/-- The conversation may be written in another way. -/
theorem Speaks.congr {α : Type} {m : Transport α} {k l : Talk} {x : α} (h : Speaks m k x) (hk : k = l) :
    Speaks m l x :=
  hk ▸ h

theorem Speaks.iteTrue {α : Type} {c : Prop} [Decidable c] {m n : Transport α} {k : Talk} {x : α} (h : c)
    (hm : Speaks m k x) : Speaks (if c then m else n) k x := by
  rwa [if_pos h]

theorem Speaks.iteFalse {α : Type} {c : Prop} [Decidable c] {m n : Transport α} {k : Talk} {x : α} (h : ¬c)
    (hn : Speaks n k x) : Speaks (if c then m else n) k x := by
  rwa [if_neg h]

/-! ## Conversations -/

theorem Talk.append_assoc (k l m : Talk) : (k.append l).append m = k.append (l.append m) := by
  simp [Talk.append, List.append_assoc]

@[simp] theorem Talk.append_nil (k : Talk) : k.append (Talk.join []) = k := by
  simp [Talk.append, Talk.join]

@[simp] theorem Talk.nil_append (k : Talk) : (Talk.join []).append k = k := by
  simp [Talk.append, Talk.join]

theorem Talk.join_cons (k : Talk) (ks : List Talk) : Talk.join (k :: ks) = k.append (Talk.join ks) := rfl

@[simp] theorem Talk.join_singleton (k : Talk) : Talk.join [k] = k := by
  simp [Talk.join_cons]

theorem Talk.join_append (ks ls : List Talk) : Talk.join (ks ++ ls) = (Talk.join ks).append (Talk.join ls) := by
  induction ks with
  | nil => simp
  | cons k ks ih => simp [Talk.join_cons, ih, Talk.append_assoc]

/-! ## Primitives -/

theorem scratch_speaks (f : Scratch → Scratch) : Speaks (setScratch f) (Talk.join []) () :=
  fun b => ⟨f b.scratch, b.cs, rfl⟩

theorem xchg_speaks (o i : Byte) : Speaks (xchg o) (sendTalk [o] [i]) i :=
  .ofHeard fun b => xchg_feed o i b

theorem now_speaks (v : Word) : Speaks now (nowTalk v) v :=
  .ofHeard fun b => now_feed v b

theorem startWait_speaks (v : Word) : Speaks startWait (nowTalk v) v :=
  .ofNote fun b => startWait_feed v b

theorem expired_speaks (t0 v : Word) (T : Nat) : Speaks (expired t0 T) (nowTalk v) (pastDeadline t0 T v) :=
  .ofHeard fun b => expired_feed t0 v T b

theorem burstRead_speaks (n : Nat) (data : List Byte) (h : data.length = n) :
    Speaks (burstRead n) (fillTalk data) data :=
  .ofHeard fun b => burstRead_feed_of_length n data b h

theorem fillBytes_speaks (n : Nat) (arrived : List Byte) (h : arrived.length = n) :
    Speaks (fillBytes n) (fillTalk arrived) () :=
  .ofHeard fun b => fillBytes_feed_of_length n arrived b h

theorem deselect_speaks (x : Byte) : Speaks deselect (deselectTalk x) () :=
  fun b => ⟨b.scratch, .high, deselect_feed x b⟩

/-! ## Waits -/

theorem waitReady_speaks (w : Wait) (T : Nat) (h : w.valid T) : Speaks (waitReady T) w.talk w.ok := by
  cases w with
  | ready w => exact .ofNote fun b => waitReady_feed w T b h
  | busy w => exact .ofNote fun b => waitReady_busy w T b h

theorem delay_speaks (d : Delay) (T : Nat) (h : d.valid T) : Speaks (delay T) d.talk () := by
  simp only [Delay.valid, Bool.and_eq_true] at h
  refine .ofNote (f := .noteT0 d.start) fun b => ?_
  have hb : d.early.length < pollBound
      ((((b.withDeadlines (d.start :: b.deadlines)).heard (nowTalk d.start)).withScratch (.noteT0 d.start)).feed
        (Talk.join ((d.early ++ [d.last]).map nowTalk))) := by
    rw [pollBound, Bus.feed_ticks, nowTalks_ticks]
    simp
    omega
  simp only [delay, Delay.talk, Bus.feed_join_cons, bind_apply, startWait_feed, Bus.heard_feed, Bus.withScratch_feed,
    under_apply, Bus.withDeadlines_feed, Bus.withDeadlines_withScratch, Bus.withDeadlines_heard,
    Bus.withScratch_deadlines, Bus.heard_deadlines, Bus.feed_deadlines]
  rw [delayLoop_feed _ _ _ _ _ _ hb h.1 h.2]
  simp

/-! ## Commands -/

theorem sendPlain_speaks (index : CmdIndex) (arg : Word) (p : Transaction) (h : p.valid) :
    Speaks (sendPlain index arg) (p.talk index arg) p.resp := by
  cases p with
  | answered a => exact .ofLevel fun b => sendPlain_answer index arg a b h
  | unselected a => exact .ofLevel fun b => sendPlain_noSelect index arg a b h

/-- What `sendCommand` leaves, the scratch included. -/
theorem sendCommand_run (c : CommandCode) (arg : Word) (r : CommandRun) (b : Bus) (h : r.valid c) :
    sendCommand c arg (b.feed (r.talk c arg)) =
      (r.resp, ((b.heard (r.talk c arg)).withScratch r.note).withCs r.level) := by
  have hp : ∀ (p : Transaction) (index : CmdIndex) (arg : Word) (b : Bus), p.valid →
      sendPlain index arg (b.feed (p.talk index arg)) =
        (p.resp, ((b.heard (p.talk index arg)).withScratch p.note).withCs p.level) := by
    intro p index arg b h
    cases p with
    | answered a => exact sendPlain_answer index arg a b h
    | unselected a => exact sendPlain_noSelect index arg a b h
  cases r with
  | plain p =>
    simp only [CommandRun.valid, Bool.and_eq_true, Bool.not_eq_true'] at h
    have e : sendCommand c arg = sendPlain c.index arg := by simp [sendCommand, h.1]
    rw [e]
    exact hp p c.index arg b h.2
  | app p q =>
    simp only [CommandRun.valid, Bool.and_eq_true, beq_iff_eq] at h
    obtain ⟨⟨⟨ha, hv⟩, hs⟩, hq⟩ := h
    cases q with
    | none =>
      have hr : okOrIdleR1 p.resp = false := by simpa using hs.symm
      simp [sendCommand, ha, CommandRun.talk, hp p _ _ _ hv, hr, CommandRun.resp, CommandRun.note, CommandRun.level]
    | some q =>
      have hr : okOrIdleR1 p.resp = true := by simpa using hs.symm
      have hq : q.valid = true := by simpa using hq
      simp [sendCommand, ha, CommandRun.talk, hp p _ _ _ hv, hr, hp q _ _ _ hq, CommandRun.resp,
        CommandRun.note, CommandRun.level]

theorem sendCommand_speaks (c : CommandCode) (arg : Word) (r : CommandRun) (h : r.valid c) :
    Speaks (sendCommand c arg) (r.talk c arg) r.resp :=
  .ofLevel fun b => sendCommand_run c arg r b h

/-! ## Packets -/

theorem receiveBlock_run (length : Nat) (r : Reception) (b : Bus) (h : r.valid length) :
    receiveBlock length (b.feed r.talk) = (r.data, (b.heard r.talk).withScratch r.note) := by
  cases r with
  | packet p => exact receiveBlock_packet length p b h
  | badToken p => exact receiveBlock_badToken length p b h
  | noToken p => exact receiveBlock_noToken length p b h

theorem receiveBlock_speaks (length : Nat) (r : Reception) (h : r.valid length) :
    Speaks (receiveBlock length) r.talk r.data :=
  .ofNote fun b => receiveBlock_run length r b h

theorem transmitBlock_run (data : List Byte) (token : Byte) (r : Transmission) (b : Bus) (h : r.valid)
    (hd : data.length = Config.sectorSize) (ht : token ≠ Config.tokenStop) :
    transmitBlock data token (b.feed (r.talk token data)) =
      (r.ok, (b.heard (r.talk token data)).withScratch r.note) := by
  cases r with
  | sent p => exact transmitBlock_sent data token p b h hd ht
  | busy w => exact transmitBlock_busy data token w b h

theorem transmitBlock_speaks (data : List Byte) (token : Byte) (r : Transmission) (h : r.valid)
    (hd : data.length = Config.sectorSize) (ht : token ≠ Config.tokenStop) :
    Speaks (transmitBlock data token) (r.talk token data) r.ok :=
  .ofNote fun b => transmitBlock_run data token r b h hd ht

theorem sendStop_run (r : StopRun) (b : Bus) (h : r.valid) :
    sendStop (b.feed r.talk) = (r.ok, (b.heard r.talk).withScratch r.note) := by
  cases r with
  | stopped p => exact sendStop_stopped p b h
  | busy w => exact sendStop_busy w b h

theorem sendStop_speaks (r : StopRun) (h : r.valid) : Speaks sendStop r.talk r.ok :=
  .ofNote fun b => sendStop_run r b h

end Sys2Proof.Machine
end

