-- ==== Sys2Proof/Laws/Operations.lean ====
section
/-! SUPPORT. The calculus of Runs.lean carried up to the procedures the host operations are made of: fetching a
register, the erase sequence, the wait loops and the branches of the classification, the two decoders. -/

namespace Sys2Proof.Machine

/-- A command, and what follows only if it was accepted. -/
theorem Speaks.accepted {α : Type} {body : Transport α} {k : Talk} {x y : α} (c : CommandCode) (arg : Word)
    (p : CommandRun) (hp : p.valid c) (hb : p.accepted = true → Speaks body k x)
    (hn : p.accepted = false → k = Talk.join [] ∧ x = y) :
    Speaks (sendCommand c arg >>= fun r => if acceptedR1 r then body else Pure.pure y)
      ((p.talk c arg).append k) x := by
  refine Speaks.bind (sendCommand_speaks c arg p hp) ?_
  cases h : p.accepted with
  | true => exact Speaks.iteTrue h (hb h)
  | false =>
    obtain ⟨rfl, rfl⟩ := hn h
    exact Speaks.iteFalse (by simp [CommandRun.accepted] at h; simp [h]) (.pure _)

/-- A conversation that stands only when there is something to say. -/
theorem Talk.join_toList {α : Type} (f : α → Talk) (o : Option α) :
    Talk.join (o.toList.map f) = (o.map f).getD (Talk.join []) := by
  cases o <;> simp

/-! ## Fetching a register -/

/-- The CSD (R230). -/
theorem readCSD_speaks (r : FetchRun) (h : r.valid (cmd 9) Config.csdLen) :
    Speaks readCSD (r.talk (cmd 9)) r.data := by
  obtain ⟨p, q⟩ := r
  simp only [FetchRun.valid, Bool.and_eq_true, beq_iff_eq] at h
  obtain ⟨⟨hp, hs⟩, hq⟩ := h
  refine Speaks.accepted (cmd 9) 0 p hp (fun hr => ?_) (fun hr => ?_)
  · obtain ⟨q, rfl⟩ := Option.isSome_iff_exists.1 (hs.trans hr)
    have hb := receiveBlock_speaks Config.csdLen q hq
    simp only [Option.toList_some, List.map_cons, List.map_nil, FetchRun.data, Option.bind_some, Talk.join_cons]
    refine Speaks.bind hb ?_
    cases q.data with
    | none => exact .pure none
    | some csd =>
      refine Speaks.congr (Speaks.bind (scratch_speaks (.noteCsd csd)) ?_) (Talk.nil_append _)
      exact .pure (some csd)
  · have hq : q = none := by simpa [hr] using hs
    subst hq
    exact ⟨rfl, rfl⟩

/-- The CID (R278). -/
theorem cidBody_speaks (r : FetchRun) (h : r.valid (cmd 10) Config.csdLen) :
    Speaks cidBody (r.talk (cmd 10)) r.data := by
  obtain ⟨p, q⟩ := r
  simp only [FetchRun.valid, Bool.and_eq_true, beq_iff_eq] at h
  obtain ⟨⟨hp, hs⟩, hq⟩ := h
  refine Speaks.accepted (cmd 10) 0 p hp (fun hr => ?_) (fun hr => ?_)
  · obtain ⟨q, rfl⟩ := Option.isSome_iff_exists.1 (hs.trans hr)
    exact (receiveBlock_speaks Config.csdLen q hq).congr (Talk.join_singleton _).symm
  · have hq : q = none := by simpa [hr] using hs
    subst hq
    exact ⟨rfl, rfl⟩

theorem readOcr_speaks (ocr : List Byte) (h : ocr.length = 4) : Speaks readOcr (fillTalk ocr) ocr :=
  .ofNote fun b => readOcr_feed ocr b h

theorem readR7_speaks (r7 : List Byte) (h : r7.length = 4) : Speaks readR7 (fillTalk r7) r7 :=
  .ofNote fun b => readR7_feed r7 b h

/-- The OCR (R279). -/
theorem ocrBody_speaks (r : OcrRun) (h : r.valid) : Speaks ocrBody r.talk r.ocr := by
  obtain ⟨p, q⟩ := r
  simp only [OcrRun.valid, Bool.and_eq_true, beq_iff_eq] at h
  obtain ⟨⟨hp, hs⟩, hq⟩ := h
  refine Speaks.accepted (cmd 58) 0 p hp (fun hr => ?_) (fun hr => ?_)
  · obtain ⟨q, rfl⟩ := Option.isSome_iff_exists.1 (hs.trans hr)
    exact Speaks.bind (readOcr_speaks q (by simpa using hq)) (.pure (some q))
  · have hq : q = none := by simpa [hr] using hs
    subst hq
    exact ⟨rfl, rfl⟩

/-- The discarded byte and the packet of an SD status run. -/
theorem SdStatusRun.split (r : SdStatusRun) (length : Nat) (h : r.valid length) :
    r.command.valid (acmd 13) ∧
      ((r.command.accepted = true ∧ ∃ x q, r.packet = some (x, q) ∧ q.valid length) ∨
        (r.command.accepted = false ∧ r.packet = none)) := by
  obtain ⟨p, q⟩ := r
  simp only [SdStatusRun.valid, Bool.and_eq_true, beq_iff_eq] at h
  refine ⟨h.1.1, ?_⟩
  cases q with
  | none => exact .inr ⟨h.1.2.symm, rfl⟩
  | some q => exact .inl ⟨h.1.2.symm, q.1, q.2, rfl, h.2⟩

/-- The SD status (R280). -/
theorem sdStatusBody_speaks (r : SdStatusRun) (h : r.valid Config.sdStatLen) :
    Speaks sdStatusBody r.talk r.data := by
  obtain ⟨hp, hq⟩ := r.split _ h
  obtain ⟨p, q⟩ := r
  refine Speaks.accepted (acmd 13) 0 p hp (fun hr => ?_) (fun hr => ?_)
  · obtain ⟨-, x, q, rfl, hq⟩ | ⟨hn, -⟩ := hq
    · simp only [Option.toList_some, List.map_cons, List.map_nil, Talk.join_cons, Talk.append_nil]
      exact Speaks.bind (fillBytes_speaks 1 [x] rfl) (receiveBlock_speaks Config.sdStatLen q hq)
    · simp [hr] at hn
  · obtain ⟨hn, -⟩ | ⟨-, rfl⟩ := hq
    · simp [hr] at hn
    · exact ⟨rfl, rfl⟩

/-! ## The decoders (R231, R236) -/

/-- R232 to R234, where the spec states a value. -/
theorem sectorsOf_stated (csd : List Byte) (h : sectorsStated csd) : sectorsOf csd = pure (sectorsValue csd) := by
  simp only [sectorsStated, Bool.or_eq_true, beq_iff_eq, decide_eq_true_eq] at h
  simp only [sectorsOf, sectorsValue]
  split
  · rfl
  · rw [if_pos (by tauto)]

/-- R231. -/
theorem readSectorCount_speaks (r : FetchRun) (h : r.valid (cmd 9) Config.csdLen)
    (hv : ∀ csd, r.data = some csd → sectorsStated csd) :
    Speaks readSectorCount (r.talk (cmd 9)) (r.data.map sectorsValue) := by
  refine Speaks.congr (Speaks.bind (l := Talk.join []) (readCSD_speaks r h) ?_) (Talk.append_nil _)
  cases hd : r.data with
  | none => exact .pure none
  | some csd =>
    simp only [sectorsOf_stated csd (hv csd hd)]
    exact Speaks.pure (some (sectorsValue csd))

/-- R237. -/
theorem eraseSdv2_speaks (r : SdStatusRun) (purged : Option (List Byte)) (h : r.valid Config.sdStatHead)
    (hs : purged.isSome = r.data.isSome) (hl : purged.all fun x => x.length == Config.sdStatTail) :
    Speaks eraseSdv2 (EraseSizeRun.sdStatus r purged).talk (r.data.map eraseSectorsSdv2) := by
  obtain ⟨hp, hq⟩ := r.split _ h
  obtain ⟨p, q⟩ := r
  rw [EraseSizeRun.talk, SdStatusRun.talk, Talk.join_cons, Talk.join_cons, Talk.append_assoc]
  refine Speaks.accepted (acmd 13) 0 p hp (fun hr => ?_) (fun hr => ?_)
  · obtain ⟨-, x, q, rfl, hq⟩ | ⟨hn, -⟩ := hq
    · simp only [Option.toList_some, List.map_cons, List.map_nil, Talk.join_cons, Talk.append_nil, Talk.append_assoc]
      refine Speaks.bind (fillBytes_speaks 1 [x] rfl) ?_
      refine Speaks.bind (receiveBlock_speaks Config.sdStatHead q hq) ?_
      simp only [SdStatusRun.data, Option.bind_some] at hs ⊢
      cases he : q.data with
      | none =>
        obtain rfl : purged = none := by simpa [he] using hs
        exact .pure none
      | some sds =>
        obtain ⟨y, rfl⟩ : ∃ y, purged = some y := Option.isSome_iff_exists.1 (by simpa [he] using hs)
        have hy : y.length = Config.sdStatTail := by simpa using hl
        refine Speaks.congr (Speaks.bind (scratch_speaks (.noteSds sds)) (Speaks.bind
          (fillBytes_speaks _ y hy) (Speaks.pure (some (eraseSectorsSdv2 sds))))) ?_
        simp
    · simp [hr] at hn
  · obtain ⟨hn, -⟩ | ⟨-, rfl⟩ := hq
    · simp [hr] at hn
    · obtain rfl : purged = none := by simpa [SdStatusRun.data] using hs
      exact ⟨rfl, rfl⟩

/-- R238, R239. -/
theorem eraseFromCsd_speaks (formula : List Byte → Word) (r : FetchRun) (h : r.valid (cmd 9) Config.csdLen) :
    Speaks (eraseFromCsd formula) (r.talk (cmd 9)) (r.data.map formula) := by
  refine Speaks.congr (Speaks.bind (l := Talk.join []) (readCSD_speaks r h) ?_) (Talk.append_nil _)
  cases r.data with
  | none => exact .pure none
  | some csd => exact .pure (some (formula csd))

/-- R236. -/
theorem readEraseBlockSectors_speaks (k : CardClass) (r : EraseSizeRun) (h : r.valid k) :
    Speaks (readEraseBlockSectors (some k)) r.talk (r.value k) := by
  cases r with
  | sdStatus r purged =>
    simp only [EraseSizeRun.valid, Bool.and_eq_true, beq_iff_eq] at h
    obtain ⟨⟨⟨hk, hr⟩, hs⟩, hl⟩ := h
    have e : readEraseBlockSectors (some k) = eraseSdv2 := by simp [readEraseBlockSectors, hk]
    rw [e]
    exact eraseSdv2_speaks r purged hr hs hl
  | csd r =>
    simp only [EraseSizeRun.valid, Bool.and_eq_true, bne_iff_ne, ne_eq] at h
    cases k with
    | mmc => exact eraseFromCsd_speaks eraseSectorsMmc r h.2
    | sdv1 => exact eraseFromCsd_speaks eraseSectorsSdv1 r h.2
    | sdv2 a => exact absurd rfl h.1

/-! ## The erase sequence (R262) -/

theorem accepts_speaks (n : CmdIndex) (arg : Word) (p : CommandRun) (h : p.valid (cmd n)) :
    Speaks (accepts n arg) (p.talk (cmd n) arg) p.accepted :=
  Speaks.congr (Speaks.bind (sendCommand_speaks (cmd n) arg p h) (.pure _)) (Talk.append_nil _)

theorem eraseSequence_speaks (st ed : Word) (r : EraseRun) (h : r.valid) :
    Speaks (eraseSequence st ed) (r.talk st ed) r.ok := by
  unfold eraseSequence
  cases r with
  | noStart p =>
    simp only [EraseRun.valid, Bool.and_eq_true, Bool.not_eq_true'] at h
    obtain ⟨hp, ap⟩ := h
    refine Speaks.congr (Speaks.bind (accepts_speaks 32 st p hp) (Speaks.iteFalse ?_ (.pure _))) (Talk.append_nil _)
    simp [ap]
  | noEnd p q =>
    simp only [EraseRun.valid, Bool.and_eq_true, Bool.not_eq_true'] at h
    obtain ⟨⟨⟨hp, ap⟩, hq⟩, aq⟩ := h
    refine Speaks.bind (accepts_speaks 32 st p hp) (Speaks.iteTrue ap ?_)
    refine Speaks.bind (accepts_speaks 33 ed q hq) (Speaks.iteFalse ?_ (.pure _))
    simp [aq]
  | noErase p q r =>
    simp only [EraseRun.valid, Bool.and_eq_true, Bool.not_eq_true'] at h
    obtain ⟨⟨⟨⟨⟨hp, ap⟩, hq⟩, aq⟩, hr⟩, ar⟩ := h
    refine Speaks.bind (accepts_speaks 32 st p hp) (Speaks.iteTrue ap ?_)
    refine Speaks.bind (accepts_speaks 33 ed q hq) (Speaks.iteTrue aq ?_)
    refine Speaks.bind (accepts_speaks 38 0 r hr) (Speaks.iteFalse ?_ (.pure _))
    simp [ar]
  | erased p q r w =>
    simp only [EraseRun.valid, Bool.and_eq_true] at h
    obtain ⟨⟨⟨⟨⟨⟨hp, ap⟩, hq⟩, aq⟩, hr⟩, ar⟩, hw⟩ := h
    refine Speaks.bind (accepts_speaks 32 st p hp) (Speaks.iteTrue ap ?_)
    refine Speaks.bind (accepts_speaks 33 ed q hq) (Speaks.iteTrue aq ?_)
    refine Speaks.bind (accepts_speaks 38 0 r hr) (Speaks.iteTrue ar ?_)
    exact (waitReady_speaks w Config.tEraseMs hw).congr (Talk.join_singleton _).symm

/-! ## The wait loops of the classification (R206, R209) -/

theorem Talk.join_ticks (ks : List Talk) : (Talk.join ks).ticks = (ks.map Talk.ticks).flatten := by
  induction ks with
  | nil => rfl
  | cons k ks ih => simp [Talk.join, Talk.append, ih]

/-- The samples a loop has in store are among those it may take. -/
theorem LoopRun.polls_lt_ticks (c : CommandCode) (arg : Word) (r : LoopRun) :
    r.polls.length < (r.talk c arg).ticks.length := by
  have hm : ∀ ps : List (Word × CommandRun),
      ps.length ≤ (Talk.join (ps.map fun p => Talk.join [nowTalk p.1, p.2.talk c arg])).ticks.length := by
    intro ps
    induction ps with
    | nil => simp
    | cons p ps ih =>
      rw [List.map_cons, Talk.join_cons, Talk.join_cons]
      simp only [Talk.append, nowTalk, List.length_append, List.length_cons] at ih ⊢
      omega
  have h1 := hm r.polls
  rw [LoopRun.talk, Talk.join_append, Talk.join_append]
  simp only [Talk.append, List.length_append, Talk.join_singleton, nowTalk, List.length_cons, List.length_nil]
    at h1 ⊢
  omega

theorem initLoop_speaks (c : CommandCode) (arg t0 : Word) (n : Nat) (polls : List (Word × CommandRun)) (last : Word)
    (won : Option CommandRun) (h : (LoopRun.mk polls last won).valid c t0) (hn : polls.length < n) :
    Speaks (initLoop c arg t0 n) ((LoopRun.mk polls last won).talk c arg) () := by
  simp only [LoopRun.valid, Bool.and_eq_true, beq_iff_eq] at h
  obtain ⟨⟨hp, hw⟩, hs⟩ := h
  induction polls generalizing n with
  | nil =>
    cases n with
    | zero => simp at hn
    | succ n =>
      unfold initLoop
      refine Speaks.congr (k := (nowTalk last).append (Talk.join (won.toList.map (CommandRun.talk c arg)))) ?_ rfl
      refine Speaks.bind (expired_speaks t0 last Config.tInitMs) ?_
      cases won with
      | none => exact Speaks.iteTrue (by simpa using hs) (.pure ())
      | some r =>
        simp only [Option.all_some, Bool.and_eq_true] at hw
        refine Speaks.iteFalse (by simpa using hs) ?_
        exact Speaks.bind (sendCommand_speaks c arg r hw.1) (Speaks.iteTrue hw.2 (.pure ()))
  | cons p ps ih =>
    cases n with
    | zero => simp at hn
    | succ n =>
      simp only [List.all_cons, Bool.and_eq_true, Bool.not_eq_true'] at hp
      have hg := ih n (by simp only [List.length_cons] at hn; omega) hp.2
      unfold initLoop
      refine Speaks.congr (Speaks.bind (expired_speaks t0 p.1 Config.tInitMs) (Speaks.iteFalse (by simp [hp.1.1.1])
        (Speaks.bind (sendCommand_speaks c arg p.2 hp.1.1.2) (Speaks.iteFalse ?_ hg)))) ?_
      · have ha := hp.1.2
        simp only [CommandRun.accepted] at ha
        simp [ha]
      · simp [LoopRun.talk, Talk.join_cons, Talk.append_assoc]

/-- R206, R209. -/
theorem pollInit_speaks (c : CommandCode) (arg t0 : Word) (r : LoopRun) (h : r.valid c t0) :
    Speaks (pollInit c arg t0) (r.talk c arg) () := by
  intro b
  refine initLoop_speaks c arg t0 (pollBound (b.feed (r.talk c arg))) r.polls r.last r.won h ?_ b
  have := r.polls_lt_ticks c arg
  rw [pollBound, Bus.feed_ticks, List.length_append]
  omega

/-- R207, R210. -/
theorem withinDeadline_speaks (t0 : Word) (c : CommandCode) (arg : Word) (r : TimedRun) (h : r.valid c t0) :
    Speaks (withinDeadline t0 c arg) (r.talk c arg) r.ok := by
  obtain ⟨v, q⟩ := r
  simp only [TimedRun.valid, Bool.and_eq_true, beq_iff_eq] at h
  unfold withinDeadline
  refine Speaks.bind (expired_speaks t0 v Config.tInitMs) ?_
  cases q with
  | none => exact Speaks.iteTrue (by simpa using h.1) (.pure _)
  | some q => exact Speaks.iteFalse (by simpa using h.1) (Speaks.bind (sendCommand_speaks c arg q h.2) (.pure _))

/-! ## The branches of the classification (R204 to R210) -/

theorem classifySdv2_echoWrong (t0 : Word) (r7 : List Byte) (hl : r7.length = 4) (he : echoMatches r7 = false) :
    Speaks (classifySdv2 t0) (fillTalk r7) none := by
  refine Speaks.congr (Speaks.bind (readR7_speaks r7 hl) (Speaks.iteFalse ?_ (.pure none))) (Talk.append_nil _)
  simp [he]

theorem classifySdv2_speaks (t0 : Word) (r7 : List Byte) (loop : LoopRun) (ocrCmd : TimedRun)
    (ocr : Option (List Byte)) (h : (BranchRun.sdv2 r7 loop ocrCmd ocr).valid t0 true) :
    Speaks (classifySdv2 t0) (BranchRun.sdv2 r7 loop ocrCmd ocr).talk
      (ocr.map fun x => .sdv2 (ocrAddressing x)) := by
  simp only [BranchRun.valid, Bool.true_and, Bool.and_eq_true, beq_iff_eq] at h
  obtain ⟨⟨⟨⟨⟨hl, he⟩, hloop⟩, hc⟩, hs⟩, ho⟩ := h
  refine Speaks.bind (readR7_speaks r7 hl) (Speaks.iteTrue he ?_)
  refine Speaks.bind (pollInit_speaks (acmd 41) Config.hcsArg t0 loop hloop) ?_
  refine Speaks.bind (withinDeadline_speaks t0 (cmd 58) 0 ocrCmd hc) ?_
  cases ocr with
  | none => exact Speaks.iteFalse (by simp [← hs]) (.pure none)
  | some x =>
    exact Speaks.iteTrue hs.symm (Speaks.bind (readOcr_speaks x (by simpa using ho)) (.pure _))

theorem classifyLegacy_speaks (t0 : Word) (c : CommandCode) (k : CardClass) (loop : LoopRun) (lengthCmd : TimedRun)
    (hloop : loop.valid c t0) (hc : lengthCmd.valid (cmd 16) t0) :
    Speaks (classifyLegacy c k t0) (Talk.join [loop.talk c 0, lengthCmd.talk (cmd 16) Config.blockLenArg])
      (if lengthCmd.ok then some k else none) := by
  refine Speaks.bind (pollInit_speaks c 0 t0 loop hloop) ?_
  refine Speaks.bind (withinDeadline_speaks t0 (cmd 16) Config.blockLenArg lengthCmd hc) ?_
  cases lengthCmd.ok with
  | true => exact .pure (some k)
  | false => exact .pure none

/-! ## TRIM (R261) -/

theorem trimCard_speaks (c : Option CardClass) (st ed : Word) (r : TrimRun) (h : r.valid (isSdFamily c)) :
    Speaks (trimCard c st ed)
      (Talk.join (r.csd.toList.map (FetchRun.talk (cmd 9)) ++ r.erase.toList.map (EraseRun.talk (addr c st) (addr c ed))))
      (r.erase.any EraseRun.ok) := by
  obtain ⟨csd, erase, release⟩ := r
  simp only [TrimRun.valid, TrimRun.csdBytes, Bool.and_eq_true, beq_iff_eq] at h
  obtain ⟨⟨⟨hs, hc⟩, hes⟩, he⟩ := h
  unfold trimCard
  cases csd with
  | none =>
    obtain rfl : erase = none := by simpa using hes
    exact Speaks.iteFalse (by simp [← hs]) (.pure false)
  | some csd =>
    refine Speaks.iteTrue hs.symm ?_
    simp only [Option.bind_some] at hes
    refine Speaks.bind (readCSD_speaks csd hc) ?_
    cases hd : csd.data with
    | none =>
      obtain rfl : erase = none := by simpa [hd] using hes
      exact .pure false
    | some x =>
      simp only [hd, Option.any_some] at hes
      cases erase with
      | none => exact Speaks.iteFalse (by simp [← hes]) (.pure false)
      | some e =>
        refine Speaks.iteTrue hes.symm ?_
        exact (eraseSequence_speaks _ _ e he).congr (Talk.join_singleton _).symm

end Sys2Proof.Machine
end

