-- ==== Sys2Proof/Laws/Engine.lean ====
section
/-! SUPPORT. What the shared frames of the meanings do: a wire command with and without unframed reply bytes, a host
operation past its admission, the closing deselect, a register query, and the block loops of read and write. -/

namespace Sys2Proof.Machine

/-! ## Wire commands -/

/-- A command with nothing after its R1. -/
theorem plainCommand_run (c : CommandCode) (arg : Word) (s : State) (r : CommandRun) (h : r.valid c) :
    plainCommand c arg (s.feed (r.talk c arg)) =
      .next { s with
        bus := ((s.bus.heard (r.talk c arg)).withScratch r.note).withCs r.level
        reply := some (.response r.resp) } := by
  simp only [plainCommand, wireCall, bind_apply, onBus_apply, State.feed_bus, sendCommand_run c arg r _ h, pure_apply]
  rfl

/-- A command whose R1 passes the test, and the bytes `k` behind it. -/
theorem tailCommand_run {α : Type} (c : CommandCode) (arg : Word) (test : Byte → Bool) (op : Transport α) (k : Talk)
    (f : Scratch → Scratch) (x : α) (s : State) (r : CommandRun) (h : r.valid c) (ht : test r.resp = true)
    (ho : ∀ b : Bus, op (b.feed k) = (x, (b.heard k).withScratch f)) :
    tailCommand c arg test op (s.feed (Talk.join [r.talk c arg, k])) =
      .next { s with
        bus := ((s.bus.heard (Talk.join [r.talk c arg, k])).withScratch fun y => f (r.note y)).withCs r.level
        reply := some (.response r.resp) } := by
  simp only [tailCommand, wireCall, bind_apply, onBus_apply, State.feed_bus, Bus.feed_join_cons, Bus.feed_join_nil,
    sendCommand_run c arg r _ h, ite_run, ht, if_true, State.withBus_bus, Bus.heard_feed, Bus.withScratch_feed,
    Bus.withCs_feed, ho, pure_apply]
  simp [State.withBus, State.feed]

/-- A command whose R1 does not pass the test. -/
theorem tailCommand_none {α : Type} (c : CommandCode) (arg : Word) (test : Byte → Bool) (op : Transport α)
    (s : State) (r : CommandRun) (h : r.valid c) (ht : test r.resp = false) :
    tailCommand c arg test op (s.feed (r.talk c arg)) =
      .next { s with
        bus := ((s.bus.heard (r.talk c arg)).withScratch r.note).withCs r.level
        reply := some (.response r.resp) } := by
  simp only [tailCommand, wireCall, bind_apply, onBus_apply, State.feed_bus,
    sendCommand_run c arg r _ h, ite_run, ht, Bool.false_eq_true, if_false, pure_apply]
  rfl

/-! ## Host operations past their admission -/

theorem hostCall_admitted (turnedAway : Result → Reply) (op : Engine Reply) (s : State) (h : s.busy = false) :
    hostCall none turnedAway op s = .next (runOperation op s) := by
  simp [hostCall, h]

theorem bufferCall_admitted (buf : HostBuf) (count : Nat) (op : Engine Reply) (s : State) (h : s.busy = false)
    (hl : count * Config.sectorSize ≤ buf.len) : bufferCall none buf count op s = .next (runOperation op s) := by
  simp [bufferCall, h, Nat.not_lt.2 hl]

theorem admitIoctl_open (s : State) (h : s.status.notInitialized = false) : admitIoctl 0 s = none := by
  simp [admitIoctl, firstFailure, driveTest, readyTest, h]

theorem admitRead_open (s : State) (count : Nat) (h : s.status.notInitialized = false) (hc : count ≠ 0) :
    admitRead 0 count s = none := by
  simp [admitRead, firstFailure, driveTest, countTest, readyTest, h, hc]

theorem admitWrite_open (s : State) (count : Nat) (h : s.status.notInitialized = false)
    (hw : s.status.writeProtected = false) (hc : count ≠ 0) : admitWrite 0 count s = none := by
  simp [admitWrite, firstFailure, driveTest, countTest, readyTest, protectTest, h, hw, hc]

theorem State.isOpen_iff (s : State) : s.isOpen = true ↔ s.busy = false ∧ s.status.notInitialized = false := by
  simp [State.isOpen]

/-! ## The calculus of Runs.lean for procedures of the whole engine

`Does m s k x t`: from a state that agrees with `s` (but for what the oracles have in store, the history, the scratch
and the chip-select line) with `k` in store, `m` answers `x` and leaves a state that agrees with `t`, the history
grown by the events of `k`. -/

/-- `b` with the supply, the clock and the count of free values of `like`, the scratch `c` and the level `l`. -/
def Bus.settle (like : Bus) (c : Scratch) (l : CsLevel) (b : Bus) : Bus :=
  { b with cs := l, pwr := like.pwr, clk := like.clk, draws := like.draws, scratch := c }

/-- `b` has the supply, the clock and the count of free values of `like`. -/
def Bus.Like (like b : Bus) : Prop :=
  b.pwr = like.pwr ∧ b.clk = like.clk ∧ b.draws = like.draws

def Does {α : Type} (m : Engine α) (s : State) (k : Talk) (x : α) (t : State) : Prop :=
  ∀ b : Bus, s.bus.Like b → ∃ (c : Scratch) (l : CsLevel),
    m (s.withBus (b.feed k)) = (x, t.withBus (t.bus.settle c l (b.heard k)))

theorem Does.bind {α β : Type} {m : Engine α} {f : α → Engine β} {s t u : State} {k l : Talk} {x : α} {y : β}
    (hm : Does m s k x t) (hf : Does (f x) t l y u) : Does (m >>= f) s (k.append l) y u := by
  intro b hb
  obtain ⟨c, v, hc⟩ := hm (b.feed l) hb
  obtain ⟨d, w, hd⟩ := hf (t.bus.settle c v (b.heard k)) ⟨rfl, rfl, rfl⟩
  refine ⟨d, w, ?_⟩
  rw [bind_apply, Bus.feed_append, hc]
  refine (show f x (t.withBus ((t.bus.settle c v (b.heard k)).feed l)) = _ from hd).trans ?_
  simp [Bus.settle, Bus.heard, Talk.append]

theorem Does.pure {α : Type} (x : α) (s : State) : Does (pure x) s (Talk.join []) x s := by
  rintro b ⟨h1, h2, h3⟩
  refine ⟨b.scratch, b.cs, ?_⟩
  simp [Bus.settle, ← h1, ← h2, ← h3]

theorem Does.onBus {α : Type} {m : Transport α} {k : Talk} {x : α} (h : Speaks m k x) (s : State) :
    Does (onBus m) s k x s := by
  rintro b ⟨h1, h2, h3⟩
  obtain ⟨c, l, hb⟩ := h b
  refine ⟨c, l, ?_⟩
  simp only [onBus_apply, State.withBus_bus, hb]
  simp [Bus.settle, ← h1, ← h2, ← h3, Bus.withCs, Bus.withScratch, Bus.heard, State.withBus]

/-- A deadline that is running touches only the free samples, of which none is taken here. -/
theorem Does.under {α : Type} {m : Engine α} {s t : State} {k : Talk} {x : α} (t0 : Word) (h : Does m s k x t) :
    Does (underDeadline t0 m) s k x t := by
  intro b hb
  obtain ⟨c, l, he⟩ := h (b.withDeadlines (t0 :: b.deadlines)) hb
  refine ⟨c, l, ?_⟩
  show ((m (s.withBus ((b.withDeadlines (t0 :: b.deadlines)).feed k))).1,
    (m (s.withBus ((b.withDeadlines (t0 :: b.deadlines)).feed k))).2.withDeadlines b.deadlines) = _
  rw [he]
  rfl

theorem Does.congr {α : Type} {m : Engine α} {s t : State} {k l : Talk} {x : α} (h : Does m s k x t) (hk : k = l) :
    Does m s l x t :=
  hk ▸ h

theorem Does.iteTrue {α : Type} {c : Prop} [Decidable c] {m n : Engine α} {s t : State} {k : Talk} {x : α} (h : c)
    (hm : Does m s k x t) : Does (if c then m else n) s k x t := by
  rwa [if_pos h]

theorem Does.iteFalse {α : Type} {c : Prop} [Decidable c] {m n : Engine α} {s t : State} {k : Talk} {x : α}
    (h : ¬c) (hn : Does n s k x t) : Does (if c then m else n) s k x t := by
  rwa [if_neg h]

/-- A write of the engine's own registers. -/
theorem Does.write (f : State → State) (hf : ∀ (s : State) (b : Bus), f (s.withBus b) = (f s).withBus b) (s : State) :
    Does (fun s => ((), f s)) s (Talk.join []) () (f s) := by
  rintro b ⟨h1, h2, h3⟩
  refine ⟨b.scratch, b.cs, ?_⟩
  have e : (f s).bus = s.bus := by
    have := congrArg State.bus (hf s s.bus)
    exact this
  simp only [hf, e]
  simp [Bus.settle, ← h1, ← h2, ← h3]

/-- A read of the engine's own registers. -/
theorem Does.read {α : Type} (f : State → α) (hf : ∀ (s : State) (b : Bus), f (s.withBus b) = f s) (s : State) :
    Does (fun s => (f s, s)) s (Talk.join []) (f s) s := by
  rintro b ⟨h1, h2, h3⟩
  refine ⟨b.scratch, b.cs, ?_⟩
  simp only [hf]
  simp [Bus.settle, ← h1, ← h2, ← h3]

theorem bufRead_does (a n : Nat) (s : State) : Does (bufRead a n) s (Talk.join []) (s.mem.readBytes a n) s :=
  Does.read (fun s => s.mem.readBytes a n) (fun _ _ => rfl) s

theorem bufWrite_does (a : Nat) (data : List Byte) (s : State) :
    Does (bufWrite a data) s (Talk.join []) () { s with mem := s.mem.writeBytes a data } :=
  Does.write (fun s => { s with mem := s.mem.writeBytes a data }) (fun _ _ => rfl) s

theorem noteProgress_does (count off : Nat) (s : State) : Does (noteProgress count off) s (Talk.join []) () s :=
  Does.onBus (scratch_speaks _) s

/-- A command, and what follows only if it was accepted. -/
theorem Does.accepted {α : Type} {body : Engine α} {k : Talk} {x y : α} {s t : State} (c : CommandCode) (arg : Word)
    (p : CommandRun) (hp : p.valid c) (hb : p.accepted = true → Does body s k x t)
    (hn : p.accepted = false → k = Talk.join [] ∧ x = y ∧ t = s) :
    Does (Machine.onBus (sendCommand c arg) >>= fun r => if acceptedR1 r then body else Pure.pure y) s
      ((p.talk c arg).append k) x t := by
  refine Does.bind (Does.onBus (sendCommand_speaks c arg p hp) s) ?_
  cases h : p.accepted with
  | true => exact Does.iteTrue h (hb h)
  | false =>
    obtain ⟨rfl, rfl, rfl⟩ := hn h
    exact Does.iteFalse (by simp [CommandRun.accepted] at h; simp [h]) (.pure _ _)

/-- A whole operation (R28), when its last line event is that of a deselect. -/
theorem runOperation_does (op : Engine Reply) (s t : State) (k : Talk) (r : Reply)
    (h : Does op { s with busy := true } k r t) (hh : ∀ s : State, (op s).2.bus.cs = .high) :
    runOperation op (s.feed k) = t.returning r (t.bus.settle {} .high (s.bus.heard k)) := by
  obtain ⟨c, l, hb⟩ := h s.bus ⟨rfl, rfl, rfl⟩
  have hl : l = .high := by
    have := hh (({ s with busy := true } : State).withBus (s.bus.feed k))
    rw [hb] at this
    exact this
  subst hl
  show deliver (op (({ s with busy := true } : State).withBus (s.bus.feed k))).1
    (op (({ s with busy := true } : State).withBus (s.bus.feed k))).2 = _
  rw [hb]
  rfl

@[simp] theorem xchg_cs (o : Byte) (b : Bus) : (xchg o b).2.cs = b.cs := by
  unfold xchg; split <;> rfl

@[simp] theorem deselect_cs (b : Bus) : (deselect b).2.cs = .high := by
  simp [deselect]

theorem closeBlockIO_high (remaining : Nat) (s : State) : (closeBlockIO remaining s).2.bus.cs = .high := by
  simp [closeBlockIO]

/-- The close of read, write and TRIM. -/
theorem closeBlockIO_does (remaining : Nat) (y : Byte) (s : State) :
    Does (closeBlockIO remaining) s (deselectTalk y) (.result (if remaining = 0 then .ok else .error)) s :=
  Does.congr (Does.bind (Does.onBus (deselect_speaks y) s) (.pure _ s)) (Talk.append_nil _)

/-! ## Register queries (R277) -/

theorem query_high (body : Transport (Option (List Byte))) (s : State) : (query body s).2.bus.cs = .high := by
  have h : (onBus deselect (onBus body s).2).2.bus.cs = .high := by simp
  unfold query
  simp only [bind_apply]
  cases (onBus body s).1 <;> exact h

/-- The body, the deselect, and the bytes or none. -/
theorem queryCall_run (body : Transport (Option (List Byte))) (k : Talk) (d : Option (List Byte))
    (hs : Speaks body k d) (y : Byte) (s : State) (ho : s.isOpen = true) :
    queryCall 0 body (s.feed (Talk.join [k, deselectTalk y])) =
      .next (s.returning (.bytes (if d.isSome then .ok else .error) d)
        ((s.bus.heard (Talk.join [k, deselectTalk y])).withCs .high)) := by
  rw [State.isOpen_iff] at ho
  rw [queryCall, admitIoctl_open _ (by exact ho.2), hostCall_admitted _ _ _ (by exact ho.1),
    runOperation_does _ s { s with busy := true } _ (.bytes (if d.isSome then .ok else .error) d) ?_ (query_high body)]
  · rfl
  · refine Does.bind (Does.onBus hs _) (Does.bind (Does.onBus (deselect_speaks y) _) ?_)
    cases d <;> exact .pure _ _

/-! ## The block loops -/

/-- A received packet stored (R190). -/
theorem receiveTo_does (dst len : Nat) (r : Reception) (s : State) (h : r.valid len) :
    Does (receiveTo dst len) s r.talk r.data.isSome
      { s with mem := (r.data.map (s.mem.writeBytes dst)).getD s.mem } := by
  refine Does.congr (Does.bind (l := Talk.join []) (Does.onBus (receiveBlock_speaks len r h) s) ?_) (Talk.append_nil _)
  cases r.data with
  | none => exact .pure false s
  | some data =>
    refine Does.congr (Does.bind (bufWrite_does dst data s) ?_) (Talk.nil_append _)
    exact .pure true _

/-- A transmitted packet (R193). -/
theorem transmitFrom_does (src : Nat) (token : Byte) (r : Transmission) (s : State) (h : r.valid)
    (ht : token ≠ Config.tokenStop) :
    Does (transmitFrom src token) s (r.talk token (s.mem.readBytes src Config.sectorSize)) r.ok s :=
  Does.bind (bufRead_does src Config.sectorSize s)
    (Does.onBus (transmitBlock_speaks _ token r h (Memory.readBytes_length ..) ht) s)


/-- What a block loop may be fed: every block but the last got through, the last did or ended the loop. -/
def BlocksFit {α : Type} (ok : α → Bool) (count : Nat) (blocks : List α) : Prop :=
  blocks.length ≤ count ∧ (blocks.dropLast.all ok) ∧ blocks.getLast?.any (fun x => !ok x || blocks.length == count)

theorem BlocksFit.cons {α : Type} {ok : α → Bool} {count : Nat} {x : α} {xs : List α}
    (h : BlocksFit ok (count + 1) (x :: xs)) :
    (ok x = false ∧ xs = []) ∨ (ok x = true ∧ ((count = 0 ∧ xs = []) ∨ (count ≠ 0 ∧ BlocksFit ok count xs))) := by
  obtain ⟨hl, hd, hg⟩ := h
  cases xs with
  | nil =>
    cases hx : ok x with
    | false => exact .inl ⟨rfl, rfl⟩
    | true =>
      have h0 : count = 0 := by simpa [hx] using hg
      exact .inr ⟨rfl, .inl ⟨h0, rfl⟩⟩
  | cons y ys =>
    simp only [List.dropLast_cons_of_ne_nil (List.cons_ne_nil y ys), List.all_cons, Bool.and_eq_true] at hd
    refine .inr ⟨hd.1, .inr ⟨?_, ?_, hd.2, ?_⟩⟩
    · simp at hl; omega
    · simpa using hl
    · simpa [List.getLast?_cons_cons] using hg

theorem BlocksFit.ne_nil {α : Type} {ok : α → Bool} {count : Nat} {xs : List α} (h : BlocksFit ok count xs) :
    xs ≠ [] := by
  rintro rfl
  simpa using h.2.2

/-- What came of the data of a reception has the length asked for. -/
theorem Reception.data_length (length : Nat) (r : Reception) (h : r.valid length) (data : List Byte)
    (hd : r.data = some data) : data.length = length := by
  cases r with
  | packet p =>
    obtain rfl := Option.some.inj hd
    simp only [Reception.valid, Packet.valid, Bool.and_eq_true, beq_iff_eq] at h
    exact h.2
  | badToken p => cases hd
  | noToken p => cases hd

/-- A block stored in front of the rest. -/
theorem Memory.writeBytes_behind (m : Memory) (a : Nat) (data rest : List Byte) (hm : m.wf = true) :
    (m.writeBytes a data).writeBytes (a + data.length) rest = m.writeBytes a (data ++ rest) := by
  have hw := Memory.writeBytes_wf
  refine Memory.ext _ _ (hw _ _ _ (hw _ _ _ hm)) (hw _ _ _ hm) fun x => ?_
  rw [Memory.writeBytes_append, Memory.read_writeBytes _ _ _ _ (hw _ _ _ hm), Memory.read_writeBytes _ _ _ _ hm,
    Memory.read_writeBytes _ _ _ _ (hw _ _ _ hm), Memory.read_writeBytes _ _ _ _ hm]
  split <;> split <;> first | rfl | omega

/-- R252: the loop of `read`.  What is stored is block behind block, and what remains is what did not come. -/
theorem readBlocks_does (base count off : Nat) (blocks : List Reception) (s : State) (hm : s.mem.wf = true)
    (hv : blocks.all (Reception.valid Config.sectorSize)) (hc : count ≠ 0)
    (hf : BlocksFit (fun x => x.data.isSome) count blocks) :
    Does (readBlocks base count off) s (Talk.join (blocks.map Reception.talk))
      (count - (blocks.filterMap Reception.data).length)
      { s with mem := s.mem.writeBytes (base + off) (blocks.filterMap Reception.data).flatten } := by
  induction blocks generalizing count off s with
  | nil => exact absurd rfl hf.ne_nil
  | cons x xs ih =>
    obtain ⟨count, rfl⟩ := Nat.exists_eq_succ_of_ne_zero hc
    simp only [List.all_cons, Bool.and_eq_true] at hv
    rw [List.map_cons, Talk.join_cons]
    refine Does.bind (receiveTo_does (base + off) Config.sectorSize x s hv.1) ?_
    have hlen := x.data_length _ hv.1
    have hcons := hf.cons
    cases hd : x.data with
    | none =>
      obtain ⟨-, rfl⟩ | ⟨ht, -⟩ := hcons
      · have e : ([x].filterMap Reception.data) = [] := by simp [hd]
        rw [e]
        exact Does.iteFalse (by simp) (.pure _ s)
      · simp [hd] at ht
    | some data =>
      have hlen := hlen data hd
      refine Does.iteTrue rfl ?_
      have e : (x :: xs).filterMap Reception.data = data :: xs.filterMap Reception.data := by simp [hd]
      rw [e, List.length_cons, Nat.succ_sub_succ, List.flatten_cons]
      obtain ⟨hn, -⟩ | ⟨-, hrest⟩ := hcons
      · simp [hd] at hn
      · refine Does.congr (Does.bind (noteProgress_does _ _ _) ?_) (Talk.nil_append _)
        obtain ⟨rfl, rfl⟩ | ⟨hc', hf'⟩ := hrest
        · simp only [List.filterMap_nil, List.flatten_nil, List.append_nil]
          exact .pure 0 _
        · have h := ih count (off + Config.sectorSize) { s with mem := s.mem.writeBytes (base + off) data }
            (Memory.writeBytes_wf _ _ _ hm) hv.2 hc' hf'
          dsimp only at h
          rw [← Nat.add_assoc, ← hlen, Memory.writeBytes_behind _ _ _ _ hm, hlen] at h
          exact h

/-- R257: the loop of `write`.  Each block sends the next 512 bytes of the buffer. -/
theorem writeBlocks_does (base count off : Nat) (blocks : List Transmission) (s : State)
    (hv : blocks.all Transmission.valid) (hc : count ≠ 0) (hf : BlocksFit Transmission.ok count blocks) :
    Does (writeBlocks base count off) s (blocksTalk s.mem Config.tokenMulti (base + off) blocks)
      (count - (blocks.filter Transmission.ok).length) s := by
  induction blocks generalizing count off with
  | nil => exact absurd rfl hf.ne_nil
  | cons x xs ih =>
    obtain ⟨count, rfl⟩ := Nat.exists_eq_succ_of_ne_zero hc
    simp only [List.all_cons, Bool.and_eq_true] at hv
    refine Does.bind (transmitFrom_does (base + off) Config.tokenMulti x s hv.1 (by decide)) ?_
    have hcons := hf.cons
    cases hd : x.ok with
    | false =>
      obtain ⟨-, rfl⟩ | ⟨ht, -⟩ := hcons
      · have e : [x].filter Transmission.ok = [] := by simp [hd]
        rw [e]
        exact Does.iteFalse (by simp) (.pure _ s)
      · simp [hd] at ht
    | true =>
      refine Does.iteTrue rfl ?_
      have e : (x :: xs).filter Transmission.ok = x :: xs.filter Transmission.ok := by simp [hd]
      rw [e, List.length_cons, Nat.succ_sub_succ]
      obtain ⟨hn, -⟩ | ⟨-, hrest⟩ := hcons
      · simp [hd] at hn
      · refine Does.congr (Does.bind (noteProgress_does _ _ _) ?_) (Talk.nil_append _)
        obtain ⟨rfl, rfl⟩ | ⟨hc', hf'⟩ := hrest
        · exact .pure 0 s
        · have h := ih count (off + Config.sectorSize) hv.2 hc' hf'
          rw [← Nat.add_assoc] at h
          exact h

end Sys2Proof.Machine
end

