-- ==== Sys2Proof/Laws/Frames.lean ====
section
/-! SUPPORT. What the procedures of the engine leave alone, whatever the bus answers: the lines hold what the history
says, the history only grows and is never read, and the engine's registers, its status and the host's memory change
only where a procedure writes them. -/

namespace Sys2Proof.Machine

/-! ## The last driven levels of a grown history -/

theorem lastCs_append (k l : List Event) : lastCs (k ++ l) = (lastCs k).or (lastCs l) := by
  induction k with
  | nil => rfl
  | cons e k ih => cases e <;> simp [lastCs, ih]

theorem lastPwr_append (k l : List Event) : lastPwr (k ++ l) = (lastPwr k).or (lastPwr l) := by
  induction k with
  | nil => rfl
  | cons e k ih => cases e <;> simp [lastPwr, ih]

theorem lastClk_append (k l : List Event) : lastClk (k ++ l) = (lastClk k).or (lastClk l) := by
  induction k with
  | nil => rfl
  | cons e k ih => cases e <;> simp [lastClk, ih]

/-! ## Transport procedures -/

/-- The transport side with `older` before its first event. -/
def Bus.withOlder (older : List Event) (b : Bus) : Bus :=
  { b with trace := b.trace ++ older }

/-- From `b` to `c` the history has grown, each line holds what it was last driven to (R40), and the same deadlines are
running. -/
def Bus.Follows (b c : Bus) : Prop :=
  ∃ newer, c.trace = newer ++ b.trace ∧ c.cs = (lastCs newer).getD b.cs ∧ c.pwr = (lastPwr newer).getD b.pwr
    ∧ c.clk = (lastClk newer).getD b.clk ∧ c.deadlines = b.deadlines

theorem Bus.Follows.refl (b : Bus) : b.Follows b := ⟨[], rfl, rfl, rfl, rfl, rfl⟩

theorem Bus.Follows.trans {b c d : Bus} (h : b.Follows c) (h' : c.Follows d) : b.Follows d := by
  obtain ⟨n, ht, hc, hp, hk, hd⟩ := h
  obtain ⟨n', ht', hc', hp', hk', hd'⟩ := h'
  refine ⟨n' ++ n, by rw [ht', ht, List.append_assoc], ?_, ?_, ?_, hd'.trans hd⟩
  · rw [hc', hc, lastCs_append]; cases lastCs n' <;> rfl
  · rw [hp', hp, lastPwr_append]; cases lastPwr n' <;> rfl
  · rw [hk', hk, lastClk_append]; cases lastClk n' <;> rfl

/-- The procedure follows its own history and never reads what was there before. -/
structure Follows {α : Type} (m : Transport α) : Prop where
  follows : ∀ b : Bus, b.Follows (m b).2
  older : ∀ (b : Bus) (l : List Event), m (b.withOlder l) = ((m b).1, (m b).2.withOlder l)

/-- It does, and touches neither the supply nor the clock. -/
structure Tame {α : Type} (m : Transport α) : Prop extends Follows m where
  pwr : ∀ b : Bus, (m b).2.pwr = b.pwr
  clk : ∀ b : Bus, (m b).2.clk = b.clk

theorem Follows.bind {α β : Type} {m : Transport α} {f : α → Transport β} (hm : Follows m) (hf : ∀ x, Follows (f x)) :
    Follows (m >>= f) where
  follows b := (hm.follows b).trans ((hf _).follows _)
  older b l := by rw [bind_apply, hm.older, (hf _).older, bind_apply]

theorem Follows.pure {α : Type} (x : α) : Follows (pure x : Transport α) where
  follows b := Bus.Follows.refl b
  older _ _ := rfl

theorem Tame.bind {α β : Type} {m : Transport α} {f : α → Transport β} (hm : Tame m) (hf : ∀ x, Tame (f x)) :
    Tame (m >>= f) where
  toFollows := hm.toFollows.bind fun x => (hf x).toFollows
  pwr b := ((hf _).pwr _).trans (hm.pwr b)
  clk b := ((hf _).clk _).trans (hm.clk b)

theorem Tame.pure {α : Type} (x : α) : Tame (pure x : Transport α) where
  toFollows := .pure x
  pwr _ := rfl
  clk _ := rfl

theorem Tame.ite {α : Type} {c : Prop} [Decidable c] {m n : Transport α} (hm : Tame m) (hn : Tame n) :
    Tame (if c then m else n) := by
  split
  · exact hm
  · exact hn

/-- A loop whose fuel is the bound of its wait. -/
theorem Tame.bounded {α : Type} {m : Nat → Transport α} (h : ∀ n, Tame (m n)) : Tame fun b => m (pollBound b) b where
  follows b := (h (pollBound b)).follows b
  older b l := (h (pollBound b)).older b l
  pwr b := (h (pollBound b)).pwr b
  clk b := (h (pollBound b)).clk b

/-- A procedure under a deadline of its own leaves those that were running. -/
theorem Tame.under {α : Type} {m : Transport α} (t0 : Word) (h : Tame m) : Tame (under t0 m) where
  follows b := by
    obtain ⟨n, ht, hc, hp, hk, -⟩ := h.follows (b.withDeadlines (t0 :: b.deadlines))
    exact ⟨n, ht, hc, hp, hk, rfl⟩
  older b l := by
    have h' := h.older (b.withDeadlines (t0 :: b.deadlines)) l
    simp only [under_apply]
    rw [show (b.withOlder l).withDeadlines (t0 :: (b.withOlder l).deadlines) =
      (b.withDeadlines (t0 :: b.deadlines)).withOlder l from rfl, h']
    rfl
  pwr b := h.pwr (b.withDeadlines (t0 :: b.deadlines))
  clk b := h.clk (b.withDeadlines (t0 :: b.deadlines))

/-! ### Primitives -/

theorem xchg_tame (o : Byte) : Tame (xchg o) where
  follows b := by unfold xchg; split <;> exact ⟨[_], rfl, rfl, rfl, rfl, rfl⟩
  older b l := by unfold xchg Bus.withOlder; simp only; split <;> rfl
  pwr b := by unfold xchg; split <;> rfl
  clk b := by unfold xchg; split <;> rfl

theorem now_tame : Tame now where
  follows b := by unfold now; split <;> exact ⟨[_], rfl, rfl, rfl, rfl, rfl⟩
  older b l := by unfold now Bus.withOlder; simp only; split <;> rfl
  pwr b := by unfold now; split <;> rfl
  clk b := by unfold now; split <;> rfl

theorem setCS_tame (c : CsLevel) : Tame (setCS c) where
  follows _ := ⟨[.cs c], rfl, rfl, rfl, rfl, rfl⟩
  older _ _ := rfl
  pwr _ := rfl
  clk _ := rfl

theorem setPwr_follows (p : PowerLevel) : Follows (setPwr p) where
  follows _ := ⟨[.pwr p], rfl, rfl, rfl, rfl, rfl⟩
  older _ _ := rfl

theorem setClk_follows (r : ClockRate) : Follows (setClk r) where
  follows _ := ⟨[.clk r], rfl, rfl, rfl, rfl, rfl⟩
  older _ _ := rfl

theorem logEvent_tame (e : LogEvent) : Tame (logEvent e) where
  follows _ := ⟨[.log e], rfl, rfl, rfl, rfl, rfl⟩
  older _ _ := rfl
  pwr _ := rfl
  clk _ := rfl

theorem setScratch_tame (f : Scratch → Scratch) : Tame (setScratch f) where
  follows _ := ⟨[], rfl, rfl, rfl, rfl, rfl⟩
  older _ _ := rfl
  pwr _ := rfl
  clk _ := rfl

theorem drawSectors_tame : Tame drawSectors where
  follows _ := ⟨[], rfl, rfl, rfl, rfl, rfl⟩
  older _ _ := rfl
  pwr _ := rfl
  clk _ := rfl

theorem lastSample_tame (t0 : Word) (T : Nat) : Tame (lastSample t0 T) where
  follows _ := ⟨[_], rfl, rfl, rfl, rfl, rfl⟩
  older _ _ := rfl
  pwr _ := rfl
  clk _ := rfl

theorem burstRead_tame (n : Nat) : Tame (burstRead n) := by
  induction n with
  | zero => exact .pure _
  | succ n ih => exact (xchg_tame _).bind fun _ => ih.bind fun _ => .pure _

theorem burstWrite_tame (l : List Byte) : Tame (burstWrite l) := by
  induction l with
  | nil => exact .pure _
  | cons o l ih => exact (xchg_tame _).bind fun _ => ih

theorem fillBytes_tame (n : Nat) : Tame (fillBytes n) := by
  induction n with
  | zero => exact .pure _
  | succ n ih => exact (xchg_tame _).bind fun _ => ih

/-! ### Waits -/

theorem startWait_tame : Tame startWait :=
  now_tame.bind fun _ => (setScratch_tame _).bind fun _ => .pure _

theorem expired_tame (t0 : Word) (T : Nat) : Tame (expired t0 T) :=
  now_tame.bind fun _ => .pure _

theorem delayLoop_tame (t0 : Word) (T n : Nat) : Tame (delayLoop t0 T n) := by
  induction n with
  | zero => exact lastSample_tame _ _
  | succ n ih => exact (expired_tame _ _).bind fun _ => .ite (.pure _) ih

theorem delay_tame (T : Nat) : Tame (delay T) :=
  startWait_tame.bind fun _ => .under _ (.bounded fun n => delayLoop_tame _ _ n)

theorem readyLoop_tame (t0 : Word) (T n : Nat) : Tame (readyLoop t0 T n) := by
  induction n with
  | zero => exact (xchg_tame _).bind fun _ => .ite (.pure _) ((lastSample_tame _ _).bind fun _ => .pure _)
  | succ n ih =>
    exact (xchg_tame _).bind fun _ => .ite (.pure _) ((expired_tame _ _).bind fun _ => .ite (.pure _) ih)

theorem waitReady_tame (T : Nat) : Tame (waitReady T) :=
  startWait_tame.bind fun _ => .under _ (.bounded fun n => readyLoop_tame _ _ n)

theorem deselect_tame : Tame deselect :=
  (setCS_tame _).bind fun _ => (xchg_tame _).bind fun _ => .pure _

theorem select_tame : Tame select :=
  (setCS_tame _).bind fun _ => (xchg_tame _).bind fun _ => (waitReady_tame _).bind fun _ =>
    .ite (.pure _) (deselect_tame.bind fun _ => .pure _)

/-! ### Commands and packets -/

theorem pollLoop_tame (n : Nat) : Tame (pollLoop n) := by
  induction n with
  | zero => exact (xchg_tame _).bind fun _ => (setScratch_tame _).bind fun _ => .pure _
  | succ n ih =>
    exact (xchg_tame _).bind fun _ => .ite ((setScratch_tame _).bind fun _ => .pure _) ih

theorem sendPlain_tame (index : CmdIndex) (arg : Word) : Tame (sendPlain index arg) :=
  deselect_tame.bind fun _ => select_tame.bind fun _ =>
    .ite ((burstWrite_tame _).bind fun _ => Tame.bind (.ite (fillBytes_tame _) (.pure _)) fun _ => pollLoop_tame _)
      (.pure _)

theorem sendCommand_tame (c : CommandCode) (arg : Word) : Tame (sendCommand c arg) :=
  .ite ((sendPlain_tame _ _).bind fun _ => .ite (sendPlain_tame _ _) (.pure _)) (sendPlain_tame _ _)

theorem readR7_tame : Tame readR7 :=
  (burstRead_tame _).bind fun _ => (setScratch_tame _).bind fun _ => .pure _

theorem readOcr_tame : Tame readOcr :=
  (burstRead_tame _).bind fun _ => (setScratch_tame _).bind fun _ => .pure _

theorem tokenLoop_tame (t0 : Word) (n : Nat) : Tame (tokenLoop t0 n) := by
  induction n with
  | zero => exact (xchg_tame _).bind fun _ => .ite ((lastSample_tame _ _).bind fun _ => .pure _) (.pure _)
  | succ n ih =>
    exact (xchg_tame _).bind fun _ => .ite ((expired_tame _ _).bind fun _ => .ite (.pure _) ih) (.pure _)

theorem awaitToken_tame : Tame awaitToken :=
  startWait_tame.bind fun _ => Tame.bind (.under _ (.bounded fun n => tokenLoop_tame _ n)) fun _ =>
    (setScratch_tame _).bind fun _ => .pure _

theorem receiveBlock_tame (len : Nat) : Tame (receiveBlock len) :=
  awaitToken_tame.bind fun _ => .ite
    ((burstRead_tame _).bind fun _ => (fillBytes_tame _).bind fun _ => .pure _) (.pure _)

theorem sendData_tame (data : List Byte) : Tame (sendData data) :=
  (burstWrite_tame _).bind fun _ => (fillBytes_tame _).bind fun _ => (xchg_tame _).bind fun _ =>
    (setScratch_tame _).bind fun _ => .pure _

theorem transmitBlock_tame (data : List Byte) (token : Byte) : Tame (transmitBlock data token) :=
  (waitReady_tame _).bind fun _ => .ite ((xchg_tame _).bind fun _ => .ite (.pure _) (sendData_tame _)) (.pure _)

theorem sendStop_tame : Tame sendStop :=
  transmitBlock_tame _ _

/-! ### Register fetches and the erase sequence -/

theorem readCSD_tame : Tame readCSD :=
  (sendCommand_tame _ _).bind fun _ => .ite
    ((receiveBlock_tame _).bind fun got => by
      cases got with
      | none => exact .pure _
      | some csd => exact (setScratch_tame _).bind fun _ => .pure _) (.pure _)

theorem cidBody_tame : Tame cidBody :=
  (sendCommand_tame _ _).bind fun _ => .ite (receiveBlock_tame _) (.pure _)

theorem ocrBody_tame : Tame ocrBody :=
  (sendCommand_tame _ _).bind fun _ => .ite (readOcr_tame.bind fun _ => .pure _) (.pure _)

theorem sdStatusBody_tame : Tame sdStatusBody :=
  (sendCommand_tame _ _).bind fun _ => .ite ((fillBytes_tame _).bind fun _ => receiveBlock_tame _) (.pure _)

theorem accepts_tame (n : CmdIndex) (arg : Word) : Tame (accepts n arg) :=
  (sendCommand_tame _ _).bind fun _ => .pure _

theorem eraseSequence_tame (st ed : Word) : Tame (eraseSequence st ed) :=
  (accepts_tame _ _).bind fun _ => .ite ((accepts_tame _ _).bind fun _ => .ite
    ((accepts_tame _ _).bind fun _ => .ite (waitReady_tame _) (.pure _)) (.pure _)) (.pure _)

theorem trimCard_tame (c : Option CardClass) (st ed : Word) : Tame (trimCard c st ed) :=
  .ite (readCSD_tame.bind fun got => by
    cases got with
    | none => exact .pure _
    | some csd => exact .ite (eraseSequence_tame _ _) (.pure _)) (.pure _)

theorem sectorsOf_tame (csd : List Byte) : Tame (sectorsOf csd) :=
  .ite (.pure _) (.ite (.pure _) drawSectors_tame)

theorem readSectorCount_tame : Tame readSectorCount :=
  readCSD_tame.bind fun got => by
    cases got with
    | none => exact .pure _
    | some csd => exact (sectorsOf_tame _).bind fun _ => .pure _

theorem eraseSdv2_tame : Tame eraseSdv2 :=
  (sendCommand_tame _ _).bind fun _ => .ite ((fillBytes_tame _).bind fun _ => (receiveBlock_tame _).bind fun got => by
    cases got with
    | none => exact .pure _
    | some sds => exact (setScratch_tame _).bind fun _ => (fillBytes_tame _).bind fun _ => .pure _) (.pure _)

theorem eraseFromCsd_tame (f : List Byte → Word) : Tame (eraseFromCsd f) :=
  readCSD_tame.bind fun got => by
    cases got <;> exact .pure _

theorem readEraseBlockSectors_tame (c : Option CardClass) : Tame (readEraseBlockSectors c) := by
  unfold readEraseBlockSectors
  split
  · exact eraseSdv2_tame
  · exact eraseFromCsd_tame _
  · exact eraseFromCsd_tame _
  · exact .pure _

/-! ### Classification -/

theorem initLoop_tame (c : CommandCode) (arg t0 : Word) (n : Nat) : Tame (initLoop c arg t0 n) := by
  induction n with
  | zero => exact lastSample_tame _ _
  | succ n ih =>
    exact (expired_tame _ _).bind fun _ => .ite (.pure _) ((sendCommand_tame _ _).bind fun _ => .ite (.pure _) ih)

theorem pollInit_tame (c : CommandCode) (arg t0 : Word) : Tame (pollInit c arg t0) :=
  .bounded fun n => initLoop_tame _ _ _ n

theorem withinDeadline_tame (t0 : Word) (c : CommandCode) (arg : Word) : Tame (withinDeadline t0 c arg) :=
  (expired_tame _ _).bind fun _ => .ite (.pure _) ((sendCommand_tame _ _).bind fun _ => .pure _)

theorem classifySdv2_tame (t0 : Word) : Tame (classifySdv2 t0) :=
  readR7_tame.bind fun _ => .ite ((pollInit_tame _ _ _).bind fun _ => (withinDeadline_tame _ _ _).bind fun _ =>
    .ite (readOcr_tame.bind fun _ => .pure _) (.pure _)) (.pure _)

theorem classifyLegacy_tame (c : CommandCode) (k : CardClass) (t0 : Word) : Tame (classifyLegacy c k t0) :=
  (pollInit_tame _ _ _).bind fun _ => (withinDeadline_tame _ _ _).bind fun _ => .ite (.pure _) (.pure _)

theorem powerOn_follows (waitMs : Nat) : Follows (powerOn waitMs) :=
  (setPwr_follows _).bind fun _ => (setCS_tame _).toFollows.bind fun _ => (delay_tame _).toFollows

theorem powerOff_follows : Follows powerOff :=
  (setPwr_follows _).bind fun _ => (delay_tame _).toFollows

/-! ### How an operation ends -/

/-- What it adds to the history may follow the last deselect of an `initialize`; the chip-select line is left alone. -/
def Rests {α : Type} (m : Transport α) : Prop :=
  ∀ b : Bus, (m b).2.cs = b.cs ∧ ∃ newer, (m b).2.trace = newer ++ b.trace ∧ newer.all Event.afterDeselect = true

theorem Rests.bind {α β : Type} {m : Transport α} {f : α → Transport β} (hm : Rests m) (hf : ∀ x, Rests (f x)) :
    Rests (m >>= f) := by
  intro b
  obtain ⟨hc, n, ht, hn⟩ := hm b
  obtain ⟨hc', n', ht', hn'⟩ := hf (m b).1 (m b).2
  exact ⟨hc'.trans hc, n' ++ n, by rw [bind_apply, ht', ht, List.append_assoc], by simp [hn, hn']⟩

theorem Rests.pure {α : Type} (x : α) : Rests (pure x : Transport α) :=
  fun _ => ⟨rfl, [], rfl, rfl⟩

theorem Rests.ite {α : Type} {c : Prop} [Decidable c] {m n : Transport α} (hm : Rests m) (hn : Rests n) :
    Rests (if c then m else n) := by
  split
  · exact hm
  · exact hn

theorem now_rests : Rests now := by
  intro b
  unfold now
  split <;> exact ⟨rfl, [_], rfl, rfl⟩

theorem delayLoop_rests (t0 : Word) (T n : Nat) : Rests (delayLoop t0 T n) := by
  induction n with
  | zero => exact fun b => ⟨rfl, [_], rfl, rfl⟩
  | succ n ih => exact (now_rests.bind fun _ => .pure _).bind fun _ => .ite (.pure _) ih

theorem delay_rests (T : Nat) : Rests (delay T) :=
  (now_rests.bind fun _ => Rests.bind (fun _ => ⟨rfl, [], rfl, rfl⟩) fun _ => .pure _).bind fun _ =>
    fun b => delayLoop_rests _ _ (pollBound (b.withDeadlines _)) (b.withDeadlines _)

theorem powerOff_rests : Rests powerOff :=
  Rests.bind (fun _ => ⟨rfl, [_], rfl, rfl⟩) fun _ => delay_rests _

theorem logEvent_rests (e : LogEvent) : Rests (logEvent e) :=
  fun _ => ⟨rfl, [_], rfl, rfl⟩

/-- A deselect is the newest of the history but for what may follow one. -/
def Bus.Ended (b c : Bus) : Prop :=
  c.cs = .high ∧ ∃ newer, c.trace = newer ++ b.trace ∧ endsDeselected (newer.dropWhile Event.afterDeselect) = true

/-- A deselect is the newest of the history. -/
def Bus.EndedHere (b c : Bus) : Prop :=
  c.cs = .high ∧ ∃ newer, c.trace = newer ++ b.trace ∧ endsDeselected newer = true

theorem deselect_ended {b c : Bus} (h : b.Follows c) : b.EndedHere (deselect c).2 := by
  obtain ⟨n, ht, -⟩ := h
  refine ⟨by simp, ?_⟩
  obtain ⟨i, hi⟩ : ∃ i, (deselect c).2.trace = .xchg 0xFF i :: .cs .high :: c.trace := by
    unfold deselect xchg
    simp only [bind_apply, setCS_apply]
    split <;> exact ⟨_, rfl⟩
  exact ⟨.xchg 0xFF i :: .cs .high :: n, by rw [hi, ht]; rfl, rfl⟩

theorem endsDeselected_dropWhile {l : List Event} (h : endsDeselected l = true) :
    l.dropWhile Event.afterDeselect = l := by
  cases l with
  | nil => rfl
  | cons e l => cases e <;> simp_all [endsDeselected, Event.afterDeselect]

theorem Bus.EndedHere.ended {b c : Bus} (h : b.EndedHere c) : b.Ended c := by
  obtain ⟨hc, n, ht, he⟩ := h
  exact ⟨hc, n, ht, by rwa [endsDeselected_dropWhile he]⟩

theorem Bus.Ended.rest {α : Type} {m : Transport α} {b c : Bus} (h : b.Ended c) (hm : Rests m) : b.Ended (m c).2 := by
  obtain ⟨hc, n, ht, he⟩ := h
  obtain ⟨hc', n', ht', hn'⟩ := hm c
  refine ⟨hc'.trans hc, n' ++ n, by rw [ht', ht, List.append_assoc], ?_⟩
  rw [List.dropWhile_append, (List.dropWhile_eq_nil_iff (l := n')).2 (by simpa using hn')]
  exact he

/-! ## Engine procedures of the operations that write no register -/

/-- From `s` to `t` only the transport side, but neither supply nor clock, and host memory from `lo` up to below `hi`
may have changed. -/
structure State.Steady (lo hi : Nat) (s t : State) : Prop where
  status : t.status = s.status
  cardClass : t.cardClass = s.cardClass
  sectorCount : t.sectorCount = s.sectorCount
  eraseBlockSectors : t.eraseBlockSectors = s.eraseBlockSectors
  busy : t.busy = s.busy
  phase : t.phase = s.phase
  reply : t.reply = s.reply
  inputs : t.inputs = s.inputs
  powerOnWaitMs : t.powerOnWaitMs = s.powerOnWaitMs
  resultCodes : t.resultCodes = s.resultCodes
  pwr : t.bus.pwr = s.bus.pwr
  clk : t.bus.clk = s.bus.clk
  bus : s.bus.Follows t.bus
  mem : s.mem.wf = true → t.mem.wf = true ∧ ∀ a, a < lo ∨ hi ≤ a → t.mem.read a = s.mem.read a

theorem State.Steady.refl (lo hi : Nat) (s : State) : s.Steady lo hi s :=
  ⟨rfl, rfl, rfl, rfl, rfl, rfl, rfl, rfl, rfl, rfl, rfl, rfl, .refl _, fun h => ⟨h, fun _ _ => rfl⟩⟩

theorem State.Steady.trans {lo hi : Nat} {s t u : State} (h : s.Steady lo hi t) (h' : t.Steady lo hi u) :
    s.Steady lo hi u where
  status := h'.status.trans h.status
  cardClass := h'.cardClass.trans h.cardClass
  sectorCount := h'.sectorCount.trans h.sectorCount
  eraseBlockSectors := h'.eraseBlockSectors.trans h.eraseBlockSectors
  busy := h'.busy.trans h.busy
  phase := h'.phase.trans h.phase
  reply := h'.reply.trans h.reply
  inputs := h'.inputs.trans h.inputs
  powerOnWaitMs := h'.powerOnWaitMs.trans h.powerOnWaitMs
  resultCodes := h'.resultCodes.trans h.resultCodes
  pwr := h'.pwr.trans h.pwr
  clk := h'.clk.trans h.clk
  bus := h.bus.trans h'.bus
  mem hw := ⟨(h'.mem (h.mem hw).1).1, fun a ha => ((h'.mem (h.mem hw).1).2 a ha).trans ((h.mem hw).2 a ha)⟩

theorem State.Steady.widen {lo hi lo' hi' : Nat} {s t : State} (h : s.Steady lo hi t) (hl : lo' ≤ lo) (hh : hi ≤ hi') :
    s.Steady lo' hi' t :=
  { h with mem := fun hw => ⟨(h.mem hw).1, fun a ha => (h.mem hw).2 a (by omega)⟩ }

/-- The procedure leaves everything but that, and reads neither the older history nor the status register. -/
structure Steady {α : Type} (lo hi : Nat) (m : Engine α) : Prop where
  keeps : ∀ s : State, s.Steady lo hi (m s).2
  older : ∀ (s : State) (l : List Event), m (s.withOlder l) = ((m s).1, (m s).2.withOlder l)
  status : ∀ (s : State) (st : DriveStatus), m { s with status := st } = ((m s).1, { (m s).2 with status := st })

theorem Steady.bind {α β : Type} {lo hi : Nat} {m : Engine α} {f : α → Engine β} (hm : Steady lo hi m)
    (hf : ∀ x, Steady lo hi (f x)) : Steady lo hi (m >>= f) where
  keeps s := (hm.keeps s).trans ((hf _).keeps _)
  older s l := by rw [bind_apply, hm.older, (hf _).older, bind_apply]
  status s st := by rw [bind_apply, hm.status, (hf _).status, bind_apply]

theorem Steady.pure {α : Type} (lo hi : Nat) (x : α) : Steady lo hi (pure x : Engine α) where
  keeps s := .refl _ _ s
  older _ _ := rfl
  status _ _ := rfl

theorem Steady.ite {α : Type} {lo hi : Nat} {c : Prop} [Decidable c] {m n : Engine α} (hm : Steady lo hi m)
    (hn : Steady lo hi n) : Steady lo hi (if c then m else n) := by
  split
  · exact hm
  · exact hn

theorem Steady.widen {α : Type} {lo hi lo' hi' : Nat} {m : Engine α} (h : Steady lo hi m) (hl : lo' ≤ lo)
    (hh : hi ≤ hi') : Steady lo' hi' m :=
  { h with keeps := fun s => (h.keeps s).widen hl hh }

theorem Steady.onBus {α : Type} {m : Transport α} (lo hi : Nat) (h : Tame m) : Steady lo hi (onBus m) where
  keeps s := ⟨rfl, rfl, rfl, rfl, rfl, rfl, rfl, rfl, rfl, rfl, h.pwr _, h.clk _, h.follows _, fun hw => ⟨hw, fun _ _ => rfl⟩⟩
  older s l := by
    have := h.older s.bus l
    simp only [onBus_apply]
    rw [show (s.withOlder l).bus = s.bus.withOlder l from rfl, this]
    rfl
  status _ _ := rfl

theorem bufRead_steady (lo hi a n : Nat) : Steady lo hi (bufRead a n) where
  keeps s := .refl _ _ s
  older _ _ := rfl
  status _ _ := rfl

theorem readClass_steady (lo hi : Nat) : Steady lo hi readClass where
  keeps s := .refl _ _ s
  older _ _ := rfl
  status _ _ := rfl

theorem bufWrite_steady (a : Nat) (data : List Byte) : Steady a (a + data.length) (bufWrite a data) where
  keeps s :=
    { State.Steady.refl a (a + data.length) s with
      mem := fun hw => ⟨Memory.writeBytes_wf _ _ _ hw, fun _ hx => Memory.read_writeBytes_outside _ _ _ _ hw hx⟩ }
  older _ _ := rfl
  status _ _ := rfl

theorem noteProgress_steady (lo hi count off : Nat) : Steady lo hi (noteProgress count off) :=
  .onBus _ _ (setScratch_tame _)

/-- What a reception answers has the length asked for. -/
theorem burstRead_length (n : Nat) (b : Bus) : (burstRead n b).1.length = n := by
  induction n generalizing b with
  | zero => rfl
  | succ n ih => simp [burstRead, ih]

theorem receiveBlock_length (len : Nat) (b : Bus) (data : List Byte) (h : (receiveBlock len b).1 = some data) :
    data.length = len := by
  simp only [receiveBlock, bind_apply, ite_run] at h
  split at h
  · simp only [pure_apply, Option.some.injEq] at h
    rw [← h, burstRead_length]
  · cases h

theorem receiveTo_steady (dst len : Nat) : Steady dst (dst + len) (receiveTo dst len) := by
  have hr := Steady.onBus (m := receiveBlock len) dst (dst + len) (receiveBlock_tame len)
  have hw : ∀ (got : Option (List Byte)), (∀ data, got = some data → data.length = len) → Steady dst (dst + len)
      (match got with
        | some data => do bufWrite dst data; Pure.pure true
        | none => Pure.pure false : Engine Bool) := by
    intro got hl
    cases got with
    | none => exact .pure _ _ _
    | some data =>
      have := bufWrite_steady dst data
      rw [hl data rfl] at this
      exact this.bind fun _ => .pure _ _ _
  have hgot : ∀ s : State, ∀ data, (onBus (receiveBlock len) s).1 = some data → data.length = len :=
    fun s => receiveBlock_length len s.bus
  exact {
    keeps := fun s => (hr.keeps s).trans ((hw _ (hgot s)).keeps _)
    older := fun s l => by
      have := (hw _ (hgot s)).older (onBus (receiveBlock len) s).2 l
      rw [receiveTo, bind_apply, hr.older]
      exact this
    status := fun s st => by
      have := (hw _ (hgot s)).status (onBus (receiveBlock len) s).2 st
      rw [receiveTo, bind_apply, hr.status]
      exact this }

theorem transmitFrom_steady (lo hi src : Nat) (token : Byte) : Steady lo hi (transmitFrom src token) :=
  (bufRead_steady _ _ _ _).bind fun _ => .onBus _ _ (transmitBlock_tame _ _)

theorem tokenReply_steady {lo hi : Nat} {m : Engine Bool} (h : Steady lo hi m) : Steady lo hi (tokenReply m) :=
  h.bind fun _ => .pure _ _ _

theorem closeBlockIO_steady (lo hi n : Nat) : Steady lo hi (closeBlockIO n) :=
  (Steady.onBus _ _ deselect_tame).bind fun _ => .pure _ _ _

theorem readBlocks_steady (base hi count off : Nat) (h : base + off + count * Config.sectorSize ≤ hi) :
    Steady base hi (readBlocks base count off) := by
  induction count generalizing off with
  | zero => exact .pure _ _ _
  | succ n ih =>
    have e : (n + 1) * Config.sectorSize = n * Config.sectorSize + Config.sectorSize := Nat.succ_mul _ _
    refine ((receiveTo_steady _ _).widen (by omega) (by omega)).bind fun _ => .ite ?_ (.pure _ _ _)
    exact (noteProgress_steady _ _ _ _).bind fun _ => ih _ (by omega)

theorem readOperation_steady (buf : HostBuf) (sector : Word) (count : Nat) :
    Steady buf.base (buf.base + count * Config.sectorSize) (readOperation buf sector count) := by
  have hs : count = 1 → ∀ a, Steady buf.base (buf.base + count * Config.sectorSize) (readSingle buf.base a) := by
    intro hc a
    refine (Steady.onBus _ _ (sendCommand_tame _ _)).bind fun _ => .ite ?_ (.pure _ _ _)
    exact ((receiveTo_steady _ _).widen (Nat.le_refl _) (by simp [hc])).bind fun _ => .pure _ _ _
  have hm : ∀ a, Steady buf.base (buf.base + count * Config.sectorSize) (readMultiple buf.base count a) := by
    intro a
    refine (Steady.onBus _ _ (sendCommand_tame _ _)).bind fun _ => .ite ?_ (.pure _ _ _)
    exact (noteProgress_steady _ _ _ _).bind fun _ => (readBlocks_steady _ _ _ _ (by omega)).bind fun _ =>
      (Steady.onBus _ _ (sendCommand_tame _ _)).bind fun _ => .pure _ _ _
  refine (readClass_steady _ _).bind fun c => ?_
  by_cases hc : count = 1
  · simp only [hc, if_true]
    rw [← hc]
    exact (hs hc _).bind fun _ => closeBlockIO_steady _ _ _
  · simp only [hc, if_false]
    exact (hm _).bind fun _ => closeBlockIO_steady _ _ _

theorem writeBlocks_steady (lo hi base count off : Nat) : Steady lo hi (writeBlocks base count off) := by
  induction count generalizing off with
  | zero => exact .pure _ _ _
  | succ n ih =>
    exact (transmitFrom_steady _ _ _ _).bind fun _ =>
      .ite ((noteProgress_steady _ _ _ _).bind fun _ => ih _) (.pure _ _ _)

theorem writeOperation_steady (lo hi : Nat) (buf : HostBuf) (sector : Word) (count : Nat) :
    Steady lo hi (writeOperation buf sector count) := by
  have hc : ∀ c arg, Steady lo hi (onBus (sendCommand c arg)) := fun _ _ => .onBus _ _ (sendCommand_tame _ _)
  have hl : ∀ n, Steady lo hi (closeBlockIO n) := fun _ => closeBlockIO_steady _ _ _
  refine (readClass_steady _ _).bind fun c => .ite (Steady.bind ?_ hl) (Steady.bind ?_ hl)
  · exact (hc _ _).bind fun _ => .ite ((transmitFrom_steady _ _ _ _).bind fun _ => .pure _ _ _) (.pure _ _ _)
  · refine Steady.bind (.ite ((hc _ _).bind fun _ => .pure _ _ _) (.pure _ _ _)) fun _ => (hc _ _).bind fun _ =>
      .ite ?_ (.pure _ _ _)
    exact (noteProgress_steady _ _ _ _).bind fun _ => (writeBlocks_steady _ _ _ _ _).bind fun _ =>
      (Steady.onBus _ _ sendStop_tame).bind fun _ => .pure _ _ _

theorem trimOperation_steady (lo hi : Nat) (st ed : Word) : Steady lo hi (trimOperation st ed) :=
  (readClass_steady _ _).bind fun _ => (Steady.onBus _ _ (trimCard_tame _ _ _)).bind fun _ =>
    closeBlockIO_steady _ _ _

theorem query_steady (lo hi : Nat) {body : Transport (Option (List Byte))} (h : Tame body) :
    Steady lo hi (query body) := by
  refine (Steady.onBus _ _ h).bind fun got => (Steady.onBus _ _ deselect_tame).bind fun _ => ?_
  cases got <;> exact .pure _ _ _

/-! ## Engine procedures of `initialize` -/

/-- From `s` to `t` the environment's flags, the host's side and `busy` are as before, and the lines follow the
history. -/
structure State.Prepared (s t : State) : Prop where
  noMedia : t.status.noMedia = s.status.noMedia
  writeProtected : t.status.writeProtected = s.status.writeProtected
  busy : t.busy = s.busy
  mem : t.mem = s.mem
  reply : t.reply = s.reply
  inputs : t.inputs = s.inputs
  powerOnWaitMs : t.powerOnWaitMs = s.powerOnWaitMs
  resultCodes : t.resultCodes = s.resultCodes
  bus : s.bus.Follows t.bus

theorem State.Prepared.trans {s t u : State} (h : s.Prepared t) (h' : t.Prepared u) : s.Prepared u where
  noMedia := h'.noMedia.trans h.noMedia
  writeProtected := h'.writeProtected.trans h.writeProtected
  busy := h'.busy.trans h.busy
  mem := h'.mem.trans h.mem
  reply := h'.reply.trans h.reply
  inputs := h'.inputs.trans h.inputs
  powerOnWaitMs := h'.powerOnWaitMs.trans h.powerOnWaitMs
  resultCodes := h'.resultCodes.trans h.resultCodes
  bus := h.bus.trans h'.bus

/-- The state with the environment's flags set. -/
def State.withFlags (noMedia writeProtected : Bool) (s : State) : State :=
  { s with status := s.status.withFlags noMedia writeProtected }

/-- The procedure leaves that, and reads neither the older history nor the environment's flags. -/
structure Prepares {α : Type} (m : Engine α) : Prop where
  keeps : ∀ s : State, s.Prepared (m s).2
  older : ∀ (s : State) (l : List Event), m (s.withOlder l) = ((m s).1, (m s).2.withOlder l)
  flags : ∀ (s : State) (nm wp : Bool), m (s.withFlags nm wp) = ((m s).1, (m s).2.withFlags nm wp)

theorem Prepares.bind {α β : Type} {m : Engine α} {f : α → Engine β} (hm : Prepares m) (hf : ∀ x, Prepares (f x)) :
    Prepares (m >>= f) where
  keeps s := (hm.keeps s).trans ((hf _).keeps _)
  older s l := by rw [bind_apply, hm.older, (hf _).older, bind_apply]
  flags s nm wp := by rw [bind_apply, hm.flags, (hf _).flags, bind_apply]

theorem Prepares.pure {α : Type} (x : α) : Prepares (pure x : Engine α) where
  keeps _ := ⟨rfl, rfl, rfl, rfl, rfl, rfl, rfl, rfl, .refl _⟩
  older _ _ := rfl
  flags _ _ _ := rfl

theorem Prepares.ite {α : Type} {c : Prop} [Decidable c] {m n : Engine α} (hm : Prepares m) (hn : Prepares n) :
    Prepares (if c then m else n) := by
  split
  · exact hm
  · exact hn

theorem Prepares.onBus {α : Type} {m : Transport α} (h : Follows m) : Prepares (onBus m) where
  keeps s := ⟨rfl, rfl, rfl, rfl, rfl, rfl, rfl, rfl, h.follows _⟩
  older s l := by
    have := h.older s.bus l
    simp only [onBus_apply]
    rw [show (s.withOlder l).bus = s.bus.withOlder l from rfl, this]
    rfl
  flags _ _ _ := rfl

theorem Prepares.tame {α : Type} {m : Transport α} (h : Tame m) : Prepares (Machine.onBus m) :=
  .onBus h.toFollows

/-- A procedure under a deadline of its own. -/
theorem Prepares.under {α : Type} {m : Engine α} (t0 : Word) (h : Prepares m) : Prepares (underDeadline t0 m) where
  keeps s := by
    obtain ⟨h1, h2, h3, h4, h5, h6, h7, h8, n, ht, hc, hp, hk, -⟩ := h.keeps (s.withDeadlines (t0 :: s.bus.deadlines))
    exact ⟨h1, h2, h3, h4, h5, h6, h7, h8, n, ht, hc, hp, hk, rfl⟩
  older s l := by
    have h' := h.older (s.withDeadlines (t0 :: s.bus.deadlines)) l
    rw [underDeadline, show (s.withOlder l).withDeadlines (t0 :: (s.withOlder l).bus.deadlines) =
      (s.withDeadlines (t0 :: s.bus.deadlines)).withOlder l from rfl, h']
    rfl
  flags s nm wp := by
    have h' := h.flags (s.withDeadlines (t0 :: s.bus.deadlines)) nm wp
    rw [underDeadline, show (s.withFlags nm wp).withDeadlines (t0 :: (s.withFlags nm wp).bus.deadlines) =
      (s.withDeadlines (t0 :: s.bus.deadlines)).withFlags nm wp from rfl, h']
    rfl

theorem setPhase_prepares (p : Phase) : Prepares (setPhase p) where
  keeps _ := ⟨rfl, rfl, rfl, rfl, rfl, rfl, rfl, rfl, .refl _⟩
  older _ _ := rfl
  flags _ _ _ := rfl

theorem setClass_prepares (ty : Option CardClass) : Prepares (setClass ty) where
  keeps _ := ⟨rfl, rfl, rfl, rfl, rfl, rfl, rfl, rfl, .refl _⟩
  older _ _ := rfl
  flags _ _ _ := rfl

theorem clearNotInitialized_prepares : Prepares clearNotInitialized where
  keeps _ := ⟨rfl, rfl, rfl, rfl, rfl, rfl, rfl, rfl, .refl _⟩
  older _ _ := rfl
  flags _ _ _ := rfl

theorem setNotInitialized_prepares : Prepares setNotInitialized where
  keeps _ := ⟨rfl, rfl, rfl, rfl, rfl, rfl, rfl, rfl, .refl _⟩
  older _ _ := rfl
  flags _ _ _ := rfl

theorem classifyBranch_prepares (t0 : Word) : Prepares (classifyBranch t0) := by
  refine (Prepares.tame (sendCommand_tame _ _)).bind fun _ => .ite ?_ ?_
  · exact (setPhase_prepares _).bind fun _ => .tame (classifySdv2_tame _)
  · exact (Prepares.tame (sendCommand_tame _ _)).bind fun _ => .ite
      ((setPhase_prepares _).bind fun _ => .tame (classifyLegacy_tame _ _ _))
      ((setPhase_prepares _).bind fun _ => .tame (classifyLegacy_tame _ _ _))

theorem classify_prepares : Prepares classify :=
  (Prepares.tame (sendCommand_tame _ _)).bind fun _ => .ite
    ((Prepares.tame startWait_tame).bind fun t0 => .under t0 (classifyBranch_prepares t0)) (.pure _)

theorem powerUp_prepares : Prepares powerUp := by
  refine Prepares.bind ⟨fun s => ⟨rfl, rfl, rfl, rfl, rfl, rfl, rfl, rfl, .refl _⟩, fun _ _ => rfl, fun _ _ _ => rfl⟩ fun _ => ?_
  exact (Prepares.onBus (powerOn_follows _)).bind fun _ => (Prepares.onBus (setClk_follows _)).bind fun _ =>
    (Prepares.tame (fillBytes_tame _)).bind fun _ => setPhase_prepares _

theorem updateSectorCount_prepares : Prepares updateSectorCount := by
  refine (Prepares.tame readSectorCount_tame).bind fun got => (Prepares.tame deselect_tame).bind fun _ => ?_
  cases got with
  | none => exact .tame (logEvent_tame _)
  | some v => exact ⟨fun s => ⟨rfl, rfl, rfl, rfl, rfl, rfl, rfl, rfl, .refl _⟩, fun _ _ => rfl, fun _ _ _ => rfl⟩

theorem updateEraseBlockSectors_prepares : Prepares updateEraseBlockSectors := by
  refine Prepares.bind ⟨fun s => ⟨rfl, rfl, rfl, rfl, rfl, rfl, rfl, rfl, .refl _⟩, fun _ _ => rfl, fun _ _ _ => rfl⟩ fun c => ?_
  refine (Prepares.tame (readEraseBlockSectors_tame _)).bind fun got => (Prepares.tame deselect_tame).bind fun _ => ?_
  cases got with
  | none => exact .tame (logEvent_tame _)
  | some v => exact ⟨fun s => ⟨rfl, rfl, rfl, rfl, rfl, rfl, rfl, rfl, .refl _⟩, fun _ _ => rfl, fun _ _ _ => rfl⟩

theorem initSucceeded_prepares : Prepares initSucceeded :=
  (Prepares.onBus (setClk_follows _)).bind fun _ => clearNotInitialized_prepares.bind fun _ =>
    (setPhase_prepares _).bind fun _ => updateSectorCount_prepares.bind fun _ => updateEraseBlockSectors_prepares

theorem initFailed_prepares : Prepares initFailed :=
  (Prepares.onBus powerOff_follows).bind fun _ => setNotInitialized_prepares.bind fun _ => setPhase_prepares _

/-- `initialize` up to its reply. -/
def initBody : Engine Unit := do
  powerUp
  let ty ← classify
  onBus (setScratch (.noteTy ty))
  setClass ty
  onBus deselect
  match ty with
  | some _ => initSucceeded
  | none => initFailed

theorem initOperation_body (s : State) : initOperation s = (.status (initBody s).2.status, (initBody s).2) := by
  simp only [initOperation, initBody, bind_apply]
  generalize classify (powerUp s).2 = p
  obtain ⟨ty, t⟩ := p
  cases ty <;> simp only [bind_apply]

theorem initBody_prepares : Prepares initBody := by
  refine powerUp_prepares.bind fun _ => classify_prepares.bind fun ty => (Prepares.tame (setScratch_tame _)).bind fun _ =>
    (setClass_prepares _).bind fun _ => (Prepares.tame deselect_tame).bind fun _ => ?_
  cases ty with
  | none => exact initFailed_prepares
  | some k => exact initSucceeded_prepares

/-! ### How `initialize` ends -/

theorem updateEraseBlockSectors_ended (s t : State) (ht : s.bus.Follows t.bus) :
  s.bus.Ended (updateEraseBlockSectors t).2.bus := by
  have h := deselect_ended (ht.trans ((readEraseBlockSectors_tame t.cardClass).follows t.bus))
  simp only [updateEraseBlockSectors, bind_apply, onBus_apply]
  generalize readEraseBlockSectors t.cardClass t.bus = p at h
  obtain ⟨v, b⟩ := p
  cases v with
  | none =>
    have h' := h.ended.rest (logEvent_rests (.geometryDecodeFailed .eraseBlockSectors))
    simp only [onBus_apply, State.withBus_bus]
    exact h'
  | some v =>
    simp only [State.withBus_bus]
    exact h.ended

theorem initFailed_ended (s t : State) (h : s.bus.Ended t.bus) : s.bus.Ended (initFailed t).2.bus := by
  have h' := h.rest powerOff_rests
  simp only [initFailed, bind_apply, onBus_apply, setNotInitialized, setPhase, State.withBus_bus]
  exact h'

theorem initSucceeded_ended (s t : State) (ht : s.bus.Follows t.bus) : s.bus.Ended (initSucceeded t).2.bus := by
  have hp : Prepares (do
        onBus (setClk .fast)
        clearNotInitialized
        setPhase .ready
        updateSectorCount) :=
    (Prepares.onBus (setClk_follows _)).bind fun _ => clearNotInitialized_prepares.bind fun _ =>
      (setPhase_prepares _).bind fun _ => updateSectorCount_prepares
  have h := ht.trans (hp.keeps t).bus
  simp only [bind_apply] at h
  simp only [initSucceeded, updateGeometry, bind_apply]
  generalize (updateSectorCount _) = p at h ⊢
  exact updateEraseBlockSectors_ended s p.2 h

/-- `initialize` up to the deselect behind the classification. -/
def initOpening : Engine (Option CardClass) := do
  powerUp
  let ty ← classify
  onBus (setScratch (.noteTy ty))
  setClass ty
  pure ty

theorem initOpening_prepares : Prepares initOpening :=
  powerUp_prepares.bind fun _ => classify_prepares.bind fun _ =>
  (Prepares.tame (setScratch_tame _)).bind fun _ => (setClass_prepares _).bind fun _ => .pure _

theorem initBody_apply (s : State) : (initBody s).2 = ((match (initOpening s).1 with
    | some _ => initSucceeded
    | none => initFailed) (onBus deselect (initOpening s).2).2).2 := by
  simp only [initOpening, initBody, bind_apply, pure_apply]

/-- Every `initialize` ends deselected (R303). -/
theorem initBody_ended (s : State) : s.bus.Ended (initBody s).2.bus := by
  have hb := (initOpening_prepares.keeps s).bus
  rw [initBody_apply]
  generalize initOpening s = p at hb ⊢
  obtain ⟨ty, t⟩ := p
  have hd : s.bus.Ended (onBus deselect t).2.bus := (deselect_ended hb).ended
  have hf : s.bus.Follows (onBus deselect t).2.bus := hb.trans (deselect_tame.follows _)
  cases ty with
  | none => exact initFailed_ended s _ hd
  | some k => exact initSucceeded_ended s _ hf

theorem initOperation_high (s : State) : (initOperation s).2.bus.cs = .high := by
  have h := initBody_ended s
  rw [initOperation_body]
  generalize initBody s = p at h ⊢
  exact h.1

end Sys2Proof.Machine
end

