-- ==== Sys2Proof/Laws/Init.lean ====
section
/-! SUPPORT. What `initialize` and its parts do, over every way the bus can answer them: the power-up, the
classification, both halves of the geometry update, both ends. -/

namespace Sys2Proof.Machine

theorem setPwr_does (p : PowerLevel) (s : State) : Does (onBus (setPwr p)) s (lineTalk (.pwr p)) () { s with bus := {
    s.bus with pwr := p } } := by
  rintro b ⟨h1, h2, h3⟩
  exact ⟨b.scratch, b.cs, by simp [Bus.settle, ← h2, ← h3, State.withBus, Bus.heard, Bus.withPwr, lineTalk]⟩

theorem setClk_does (p : ClockRate) (s : State) : Does (onBus (setClk p)) s (lineTalk (.clk p)) () { s with bus := {
    s.bus with clk := p } } := by
  rintro b ⟨h1, h2, h3⟩
  exact ⟨b.scratch, b.cs, by simp [Bus.settle, ← h1, ← h3, State.withBus, Bus.heard, Bus.withClk, lineTalk]⟩

theorem setCS_speaks (c : CsLevel) : Speaks (setCS c) (lineTalk (.cs c)) () :=
  fun b => ⟨b.scratch, c, rfl⟩

theorem log_speaks (e : LogEvent) : Speaks (logEvent e) (lineTalk (.log e)) () :=
  .ofHeard fun b => by simp

theorem setPhase_does (p : Phase) (s : State) : Does (setPhase p) s (Talk.join []) () { s with phase := p } :=
  Does.write (fun s => { s with phase := p }) (fun _ _ => rfl) s

theorem setClass_does (p : Option CardClass) (s : State) : Does (setClass p) s (Talk.join []) () { s with cardClass :=
    p } :=
  Does.write (fun s => { s with cardClass := p }) (fun _ _ => rfl) s

theorem clearNotInitialized_does (s : State) : Does clearNotInitialized s (Talk.join []) () { s with status :=
    s.status.clearNotInitialized } :=
  Does.write (fun s => { s with status := s.status.clearNotInitialized }) (fun _ _ => rfl) s

theorem setNotInitialized_does (s : State) : Does setNotInitialized s (Talk.join []) () { s with status :=
    s.status.setNotInitialized } :=
  Does.write (fun s => { s with status := s.status.setNotInitialized }) (fun _ _ => rfl) s

theorem onBus_bind {α β : Type} (m : Transport α) (f : α → Transport β) : onBus (m >>= f) = onBus m >>= fun x => onBus
    (f x) := rfl

theorem powerUp_does (s : State) (d : Delay) (idle : List Byte) (hd : d.valid s.powerOnWaitMs) (hi : idle.length =
    Config.nIdleBytes) :
    Does powerUp s (Talk.join [lineTalk (.pwr .on), lineTalk (.cs .high), d.talk, lineTalk (.clk .slow), fillTalk
        idle]) ()
      { s with phase := .probing, bus := { s.bus with pwr := .on, clk := .slow } } := by
  have e : Talk.join [lineTalk (.pwr .on), lineTalk (.cs .high), d.talk, lineTalk (.clk .slow), fillTalk idle] =
    (Talk.join []).append (((lineTalk (.pwr .on)).append ((lineTalk (.cs .high)).append d.talk)).append ((lineTalk
        (.clk .slow)).append ((fillTalk idle).append (Talk.join [])))) := by
    simp [Talk.join_cons, Talk.append_assoc]
  rw [e]
  refine Does.bind (Does.read (fun s => s.powerOnWaitMs) (fun _ _ => rfl) s) ?_
  refine Does.bind (x := ()) (m := onBus (powerOn s.powerOnWaitMs)) (t := { s with bus := { s.bus with pwr := .on
      } }) ?_ ?_
  · refine Does.bind (m := onBus (setPwr .on)) (f := fun _ => onBus (do setCS .high; delay s.powerOnWaitMs))
      (setPwr_does .on s) ?_
    exact Does.onBus (Speaks.bind (setCS_speaks .high) (delay_speaks d _ hd)) _
  refine Does.bind (setClk_does .slow _) ?_
  refine Does.bind (Does.onBus (fillBytes_speaks Config.nIdleBytes idle hi) _) ?_
  exact setPhase_does .probing _

theorem classify_does (s : State) (r : ClassifyRun) (h : r.valid) :
    ∃ ph, Does classify s r.talk r.cardClass { s with phase := ph } := by
  obtain ⟨p, q⟩ := r
  simp only [ClassifyRun.valid, Bool.and_eq_true, beq_iff_eq] at h
  obtain ⟨⟨hp, hs⟩, hq⟩ := h
  cases q with
  | none =>
    refine ⟨s.phase, Does.bind (Does.onBus (sendCommand_speaks (cmd 0) 0 p hp) s) (Does.iteFalse (by simp [← hs])
        (.pure none s))⟩
  | some q =>
    obtain ⟨t0, p8, br⟩ := q
    simp only [Option.all_some, Bool.and_eq_true] at hq
    suffices hc : ∃ ph, Does classifyIdle s (Talk.join [nowTalk t0, p8.talk (cmd 8) Config.cmd8Pattern, br.talk])
        br.cardClass { s with phase := ph } by
      obtain ⟨ph, hc⟩ := hc
      exact ⟨ph, Does.bind (Does.onBus (sendCommand_speaks (cmd 0) 0 p hp) s) (Does.iteTrue hs.symm (hc.congr (by simp
          [Talk.join_cons])))⟩
    cases hi : idleR1 p8.resp with
    | true =>
      rw [hi] at hq
      refine ⟨.classifySdv2, ?_⟩
      refine Does.bind (Does.onBus (startWait_speaks t0) s) (Does.under t0 ?_)
      refine Does.bind (Does.onBus (sendCommand_speaks (cmd 8) Config.cmd8Pattern p8 hq.1) s) (Does.iteTrue hi ?_)
      refine Does.congr (Does.bind (setPhase_does _ s) (Does.onBus ?_ _)) (Talk.nil_append _)
      cases br with
      | echoWrong r7 =>
        simp only [BranchRun.valid, Bool.true_and, Bool.and_eq_true, beq_iff_eq, Bool.not_eq_true'] at hq
        exact (classifySdv2_echoWrong t0 r7 hq.2.1 hq.2.2).congr (Talk.join_singleton _).symm
      | sdv2 r7 loop oc ocr => exact (classifySdv2_speaks t0 r7 loop oc ocr hq.2).congr (Talk.join_singleton _).symm
      | legacy probe loop lc => simp [BranchRun.valid] at hq
    | false =>
      rw [hi] at hq
      cases br with
      | echoWrong r7 => simp [BranchRun.valid] at hq
      | sdv2 r7 loop oc ocr => simp [BranchRun.valid] at hq
      | legacy probe loop lc =>
        simp only [BranchRun.valid, Bool.not_false, Bool.true_and, Bool.and_eq_true] at hq
        obtain ⟨h8, ⟨hprobe, hloop⟩, hlc⟩ := hq
        cases hpr : okOrIdleR1 probe.resp with
        | true =>
          have e : legacyCommand probe = acmd 41 := by simp [legacyCommand, hpr]
          rw [e] at hloop
          refine ⟨.classifySdv1, ?_⟩
          refine Does.bind (Does.onBus (startWait_speaks t0) s) (Does.under t0 ?_)
          refine Does.bind (Does.onBus (sendCommand_speaks (cmd 8) Config.cmd8Pattern p8 h8) s) (Does.iteFalse (by
              simp [hi]) ?_)
          rw [Talk.join_singleton, BranchRun.talk, BranchRun.cardClass, e, hpr]
          refine Does.bind (Does.onBus (sendCommand_speaks (acmd 41) 0 probe hprobe) s) (Does.iteTrue hpr ?_)
          exact Does.congr (Does.bind (setPhase_does _ s) (Does.onBus (classifyLegacy_speaks t0 _ _ loop lc hloop hlc)
              _)) (Talk.nil_append _)
        | false =>
          have e : legacyCommand probe = cmd 1 := by simp [legacyCommand, hpr]
          rw [e] at hloop
          refine ⟨.classifyMmc, ?_⟩
          refine Does.bind (Does.onBus (startWait_speaks t0) s) (Does.under t0 ?_)
          refine Does.bind (Does.onBus (sendCommand_speaks (cmd 8) Config.cmd8Pattern p8 h8) s) (Does.iteFalse (by
              simp [hi]) ?_)
          rw [Talk.join_singleton, BranchRun.talk, BranchRun.cardClass, e, hpr]
          refine Does.bind (Does.onBus (sendCommand_speaks (acmd 41) 0 probe hprobe) s) (Does.iteFalse (by simp [hpr])
              ?_)
          exact Does.congr (Does.bind (setPhase_does _ s) (Does.onBus (classifyLegacy_speaks t0 _ _ loop lc hloop hlc)
              _)) (Talk.nil_append _)

theorem opening_does (s : State) (r : InitRun) (h : r.valid s.powerOnWaitMs) : ∃ ph : Phase,
    ∀ {β : Type} (f : Option CardClass → Engine β) (k : Talk) (y : β) (t : State),
      Does (f r.classify.cardClass)
        { s with phase := ph, cardClass := r.classify.cardClass, bus := { s.bus with pwr := .on, clk := .slow } } k y
            t →
      Does (do
        powerUp
        let ty ← classify
        onBus (setScratch (.noteTy ty))
        setClass ty
        onBus deselect
        f ty) s (r.opening.append k) y t := by
  simp only [InitRun.valid, Bool.and_eq_true, beq_iff_eq] at h
  obtain ⟨⟨⟨hd, hi⟩, hc⟩, -⟩ := h
  obtain ⟨ph, hcl⟩ :=
    classify_does { s with phase := .probing, bus := { s.bus with pwr := .on, clk := .slow } } r.classify hc
  refine ⟨ph, fun f k y t hf => ?_⟩
  have e : r.opening.append k =
      (Talk.join [lineTalk (.pwr .on), lineTalk (.cs .high), r.powerUp.talk, lineTalk (.clk .slow),
        fillTalk r.idle]).append (r.classify.talk.append
          ((Talk.join []).append ((Talk.join []).append ((deselectTalk r.release).append k)))) := by
    simp [InitRun.opening, Talk.join_cons, Talk.append_assoc]
  rw [e]
  refine Does.bind (powerUp_does s r.powerUp r.idle hd hi) ?_
  refine Does.bind hcl ?_
  refine Does.bind (Does.onBus (scratch_speaks _) _) ?_
  refine Does.bind (setClass_does _ _) ?_
  exact Does.bind (Does.onBus (deselect_speaks r.release) _) hf

/-- A machine that has a run of `initialize` has a power-on wait that ends. -/
theorem InitRun.canExpire {powerOnMs : Nat} {r : InitRun} (h : r.valid powerOnMs = true) :
    Machine.canExpire powerOnMs = true := by
  simp only [InitRun.valid, Bool.and_eq_true] at h
  exact Delay.canExpire h.1.1.1

theorem initFailed_does (s : State) (d : Delay) (hd : d.valid Config.tPowerDownMs) :
    Does initFailed s ((lineTalk (.pwr .off)).append d.talk) ()
      { s with status := s.status.setNotInitialized, phase := .failed, bus := { s.bus with pwr := .off } } := by
  refine Does.congr (Does.bind (x := ()) (m := onBus powerOff) (k := (lineTalk (.pwr .off)).append d.talk)
      (t := { s with bus := { s.bus with pwr := .off } }) ?_ (Does.bind (setNotInitialized_does _) (setPhase_does _ _))) (by simp)
  refine Does.bind (m := onBus (setPwr .off)) (f := fun _ => onBus (delay Config.tPowerDownMs)) (setPwr_does .off s) ?_
  exact Does.onBus (delay_speaks d _ hd) _

theorem initOperation_eq : initOperation = (do
      powerUp
      let ty ← classify
      onBus (setScratch (.noteTy ty))
      setClass ty
      onBus deselect
      (do match ty with
          | some _ => initSucceeded
          | none => initFailed
          fun s => (.status s.status, s) : Engine Reply)) := rfl

theorem drawSectors_does (s : State) :
    Does (onBus drawSectors) s (Talk.join []) (Config.freeSectors s.bus.draws)
      { s with bus := { s.bus with draws := s.bus.draws + 1 } } := by
  rintro b ⟨h1, h2, h3⟩
  refine ⟨b.scratch, b.cs, ?_⟩
  rw [onBus_apply]
  show (Config.freeSectors b.draws, _) = _
  rw [h3]
  simp [Bus.settle, ← h1, ← h2, drawSectors, State.withBus, h3]

theorem sectorsOf_does (csd : List Byte) (s : State) : ∃ (v : Word) (n : Nat),
    (sectorsStated csd = true → v = sectorsValue csd ∧ n = s.bus.draws) ∧
    Does (onBus (sectorsOf csd)) s (Talk.join []) v { s with bus := { s.bus with draws := n } } := by
  cases hs : sectorsStated csd with
  | true =>
    refine ⟨sectorsValue csd, s.bus.draws, fun _ => ⟨rfl, rfl⟩, ?_⟩
    rw [sectorsOf_stated csd hs]
    exact Does.onBus (.pure _) s
  | false =>
    refine ⟨Config.freeSectors s.bus.draws, s.bus.draws + 1, by simp, ?_⟩
    have e : sectorsOf csd = drawSectors := by
      simp only [sectorsStated, Bool.or_eq_false_iff, beq_eq_false_iff_ne, decide_eq_false_iff_not] at hs
      simp [sectorsOf, hs.1, hs.2]
    rw [e]
    exact drawSectors_does s

theorem updateSectorCount_does (r : FetchRun) (x : Byte) (h : r.valid (cmd 9) Config.csdLen) (s : State) :
    ∃ (v : Word) (n : Nat),
      (match r.data with
        | none => v = s.sectorCount ∧ n = s.bus.draws
        | some csd => sectorsStated csd = true → v = sectorsValue csd ∧ n = s.bus.draws) ∧
      Does updateSectorCount s (Talk.join [r.talk (cmd 9), deselectTalk x, logTalk .sectorCount r.data]) ()
        { s with sectorCount := v, bus := { s.bus with draws := n } } := by
  have hr := readCSD_speaks r h
  cases hd : r.data with
  | none =>
    rw [hd] at hr
    refine ⟨s.sectorCount, s.bus.draws, ⟨rfl, rfl⟩, ?_⟩
    have hn := readSectorCount_speaks r h (by simp [hd])
    rw [hd] at hn
    refine Does.bind (Does.onBus hn s) ?_
    refine Does.bind (Does.onBus (deselect_speaks x) s) ?_
    exact (Does.onBus (log_speaks _) s).congr (Talk.append_nil _).symm
  | some csd =>
    rw [hd] at hr
    obtain ⟨v, n, hv, hdo⟩ := sectorsOf_does csd s
    refine ⟨v, n, hv, ?_⟩
    refine Does.bind (x := some v) (t := { s with bus := { s.bus with draws := n } }) ?_ ?_
    · refine Does.congr (Does.bind (m := onBus readCSD) (l := Talk.join []) (f := fun got => onBus (match got with
        | some csd => do
          let v ← sectorsOf csd
          pure (some v)
        | none => pure none)) (Does.onBus hr s) ?_) (Talk.append_nil _)
      refine Does.congr (Does.bind (m := onBus (sectorsOf csd)) (l := Talk.join []) (f := fun v => onBus (pure (some
          v))) hdo ?_) (Talk.append_nil _)
      exact Does.onBus (.pure (some v)) _
    · refine Does.bind (Does.onBus (deselect_speaks x) _) ?_
      exact Does.write (fun s => { s with sectorCount := v }) (fun _ _ => rfl) _

theorem updateEraseBlockSectors_does (r : EraseSizeRun) (x : Byte) (k : CardClass) (h : r.valid k) (s : State) (hk :
    s.cardClass = some k) :
      Does updateEraseBlockSectors s (Talk.join [r.talk, deselectTalk x, logTalk .eraseBlockSectors (r.value k)]) ()
        { s with eraseBlockSectors := (r.value k).getD s.eraseBlockSectors } := by
  have hr := readEraseBlockSectors_speaks k r h
  refine Does.congr (Does.bind (Does.read (fun s => s.cardClass) (fun _ _ => rfl) s) ?_) (Talk.nil_append _)
  rw [← hk] at hr
  refine Does.bind (Does.onBus hr s) ?_
  refine Does.bind (Does.onBus (deselect_speaks x) s) ?_
  cases r.value k with
  | none => exact (Does.onBus (log_speaks _) s).congr (Talk.append_nil _).symm
  | some v => exact Does.write (fun s => { s with eraseBlockSectors := v }) (fun _ _ => rfl) _

theorem initSucceeded_does (k : CardClass) (g : GeometryRun) (h : g.valid k) (s : State) (hk : s.cardClass = some k) :
    ∃ (v : Word) (n : Nat),
      (match g.csd.data with
        | none => v = s.sectorCount ∧ n = s.bus.draws
        | some csd => sectorsStated csd = true → v = sectorsValue csd ∧ n = s.bus.draws) ∧
      Does initSucceeded s ((lineTalk (.clk .fast)).append (g.talk k)) ()
        { s with
          status := s.status.clearNotInitialized
          phase := .ready
          sectorCount := v
          eraseBlockSectors := (g.erase.value k).getD s.eraseBlockSectors
          bus := { s.bus with clk := .fast, draws := n } } := by
  simp only [GeometryRun.valid, Bool.and_eq_true] at h
  obtain ⟨v, n, hv, hd⟩ := updateSectorCount_does g.csd g.release₁ h.1
    { s with status := s.status.clearNotInitialized, phase := .ready, bus := { s.bus with clk := .fast } }
  refine ⟨v, n, hv, ?_⟩
  refine Does.bind (setClk_does .fast s) ?_
  have e : g.talk k = (Talk.join []).append ((Talk.join []).append ((Talk.join [g.csd.talk (cmd 9), deselectTalk
      g.release₁, logTalk .sectorCount g.csd.data]).append
     (Talk.join [g.erase.talk, deselectTalk g.release₂, logTalk .eraseBlockSectors (g.erase.value k)]))) := by
    simp [GeometryRun.talk, Talk.join_cons, Talk.append_assoc]
  rw [e]
  refine Does.bind (clearNotInitialized_does _) (Does.bind (setPhase_does .ready _) (Does.bind hd ?_))
  exact updateEraseBlockSectors_does g.erase g.release₂ k h.2 _ hk

end Sys2Proof.Machine
end

