-- ==== Sys2Proof/Laws/Exec.lean ====
section
/-! SUPPORT. Everything `exec` can come to, in four shapes: a reply alone, a whole operation, a wire-level instruction,
`initialize`; with what each leaves alone. -/

namespace Sys2Proof.Machine

/-- What a host operation other than `initialize` comes to: a reply and nothing else, or a whole operation over
transport calls that ends deselected. -/
def HostNext (lo hi : Nat) (s t : State) : Prop :=
  s.busy = false ∧ ((∃ r, t = deliver r s) ∨ ∃ op : Engine Reply, Steady lo hi op ∧
    (∀ u : State, u.bus.EndedHere (op u).2.bus) ∧ t = runOperation op s)

theorem hostCall_next {lo hi : Nat} {adm : Option Result} {ta : Result → Reply} {op : Engine Reply} {s t : State} (hop
    : Steady lo hi op)
    (he : ∀ u : State, u.bus.EndedHere (op u).2.bus)
    (h : hostCall adm ta op s = .next t) : HostNext lo hi s t := by
  cases hb : s.busy with
  | true => simp [hostCall, hb] at h
  | false =>
    simp only [hostCall, hb, Bool.false_eq_true, if_false] at h
    refine ⟨hb, ?_⟩
    split at h
    · exact .inl ⟨_, (Host.Outcome.next.inj h).symm⟩
    · have h := (Host.Outcome.next.inj h).symm
      exact .inr ⟨op, hop, he, h⟩

theorem answer_next {lo hi : Nat} {adm : Option Result} {ta : Result → Reply} {f : State → Reply} {s t : State}
    (h : hostCall adm ta (answer f) s = .next t) : HostNext lo hi s t := by
  cases hb : s.busy with
  | true => simp [hostCall, hb] at h
  | false =>
    simp only [hostCall, hb, Bool.false_eq_true, if_false] at h
    refine ⟨hb, ?_⟩
    split at h
    · exact .inl ⟨_, (Host.Outcome.next.inj h).symm⟩
    · exact .inl ⟨_, (Host.Outcome.next.inj h).symm⟩

theorem bufferCall_next {lo hi : Nat} {adm : Option Result} {buf : HostBuf} {count : Nat} {op : Engine Reply} {s t :
    State} (hop : Steady lo hi op)
    (he : ∀ u : State, u.bus.EndedHere (op u).2.bus)
    (h : bufferCall adm buf count op s = .next t) : HostNext lo hi s t := by
  cases hb : s.busy with
  | true => simp [bufferCall, hb] at h
  | false =>
    simp only [bufferCall, hb, Bool.false_eq_true, if_false] at h
    refine ⟨hb, ?_⟩
    split at h
    · exact .inl ⟨_, (Host.Outcome.next.inj h).symm⟩
    · by_cases hl : buf.len < count * Config.sectorSize
      · simp [hl] at h
      · simp only [hl, if_false] at h
        exact .inr ⟨op, hop, he, (Host.Outcome.next.inj h).symm⟩

theorem closeBlockIO_ends {lo hi : Nat} {op : Engine Nat} (h : Steady lo hi op) (u : State) : u.bus.EndedHere ((op >>=
    closeBlockIO) u).2.bus := by
  have h' := deselect_ended (h.keeps u).bus
  simp only [bind_apply, closeBlockIO, onBus_apply, pure_apply, State.withBus_bus]
  exact h'

theorem query_ends {body : Transport (Option (List Byte))} (h : Tame body) (u : State) : u.bus.EndedHere (query body
    u).2.bus := by
  have := deselect_ended (h.follows u.bus)
  simp only [query, bind_apply, onBus_apply]
  generalize body u.bus = p at this
  obtain ⟨g, b⟩ := p
  cases g <;> exact this

theorem readOperation_ends (buf : HostBuf) (sector : Word) (count : Nat) (u : State) : u.bus.EndedHere (readOperation
    buf sector count u).2.bus := by
  have h : readOperation buf sector count = (do
      let c ← readClass
      if count = 1 then readSingle buf.base (addr c sector) else readMultiple buf.base count (addr c sector)) >>=
          closeBlockIO := by
    funext s
    simp only [readOperation, bind_apply, ite_run]
    split <;> rfl
  rw [h]
  refine closeBlockIO_ends (lo := buf.base) (hi := buf.base + count * Config.sectorSize) ?_ u
  refine (readClass_steady _ _).bind fun c => ?_
  by_cases hc : count = 1
  · subst hc
    refine (Steady.onBus _ _ (sendCommand_tame _ _)).bind fun _ => .ite ?_ (.pure _ _ _)
    exact ((receiveTo_steady _ _).widen (Nat.le_refl _) (by simp)).bind fun _ => .pure _ _ _
  · simp only [hc, if_false]
    refine (Steady.onBus _ _ (sendCommand_tame _ _)).bind fun _ => .ite ?_ (.pure _ _ _)
    exact (noteProgress_steady _ _ _ _).bind fun _ => (readBlocks_steady _ _ _ _ (by omega)).bind fun _ =>
      (Steady.onBus _ _ (sendCommand_tame _ _)).bind fun _ => .pure _ _ _

theorem writeOperation_ends (buf : HostBuf) (sector : Word) (count : Nat) (u : State) : u.bus.EndedHere
    (writeOperation buf sector count u).2.bus := by
  have h : writeOperation buf sector count = (do
      let c ← readClass
      if count = 1 then writeSingle buf.base (addr c sector) else writeMultiple buf.base count c (addr c sector)) >>=
          closeBlockIO := by
    funext s
    simp only [writeOperation, bind_apply, ite_run]
    split <;> rfl
  rw [h]
  refine closeBlockIO_ends (lo := 0) (hi := 0) ?_ u
  have hc : ∀ c arg, Steady 0 0 (onBus (sendCommand c arg)) := fun _ _ => .onBus _ _ (sendCommand_tame _ _)
  refine (readClass_steady _ _).bind fun c => .ite ?_ ?_
  · exact (hc _ _).bind fun _ => .ite ((transmitFrom_steady _ _ _ _).bind fun _ => .pure _ _ _) (.pure _ _ _)
  · refine Steady.bind (.ite ((hc _ _).bind fun _ => .pure _ _ _) (.pure _ _ _)) fun _ => (hc _ _).bind fun _ =>
      .ite ?_ (.pure _ _ _)
    exact (noteProgress_steady _ _ _ _).bind fun _ => (writeBlocks_steady _ _ _ _ _).bind fun _ =>
      (Steady.onBus _ _ sendStop_tame).bind fun _ => .pure _ _ _

theorem trimOperation_ends (st ed : Word) (u : State) : u.bus.EndedHere (trimOperation st ed u).2.bus :=
  closeBlockIO_ends (lo := 0) (hi := 0) ((readClass_steady _ _).bind fun _ => (Steady.onBus _ _
    (trimCard_tame _ _ _)).bind fun ok => .pure _ _ (if ok then 0 else 1)) u

/-- Where the host memory an instruction may store to starts. -/
def storeLo (i : Instr) : Nat := match storeRange i with | some (b, _) => b | none => 0
/-- Where it ends. -/
def storeHi (i : Instr) : Nat := match storeRange i with | some (b, n) => b + n | none => 0

theorem exec_host_next (i : Instr) (s t : State) (hh : i.isHost = true) (hn : ∀ drv, i ≠ .initializeCard drv)
    (h : exec i s = .next t) : HostNext (storeLo i) (storeHi i) s t := by
  cases i <;> try (simp [Instr.isHost] at hh; done)
  case initializeCard drv => exact absurd rfl (hn drv)
  case status drv =>
    have h : hostCall _ _ _ s = .next t := h
    cases hb : s.busy with
    | true => simp [hostCall, hb] at h
    | false =>
      simp only [hostCall, hb, Bool.false_eq_true, if_false] at h
      refine ⟨hb, .inl ?_⟩
      split at h <;> exact ⟨_, (Host.Outcome.next.inj h).symm⟩
  case read drv buf sector count => exact bufferCall_next (readOperation_steady _ _ _) (readOperation_ends _ _ _) h
  case write drv buf sector count =>
    exact bufferCall_next (writeOperation_steady _ _ _ _ _) (writeOperation_ends _ _ _) h
  case sync =>
    have h : execSync s = _ := h
    unfold execSync at h
    exact answer_next h
  case sectorCount =>
    have h : execSectorCount s = _ := h
    unfold execSectorCount at h
    exact answer_next h
  case sectorSize =>
    have h : execSectorSize s = _ := h
    unfold execSectorSize at h
    exact answer_next h
  case eraseBlockSectors =>
    have h : execEraseBlockSectors s = _ := h
    unfold execEraseBlockSectors at h
    exact answer_next h
  case ioctlTrim drv st ed => exact hostCall_next (trimOperation_steady _ _ _ _) (trimOperation_ends _ _) h
  case ioctlGetCid drv => exact hostCall_next (query_steady _ _ cidBody_tame) (query_ends cidBody_tame) h
  case ioctlGetOcr drv => exact hostCall_next (query_steady _ _ ocrBody_tame) (query_ends ocrBody_tame) h
  case ioctlGetSdStatus drv =>
    exact hostCall_next (query_steady _ _ sdStatusBody_tame) (query_ends sdStatusBody_tame) h
  case ioctlGetCardClass drv => exact answer_next (show hostCall _ _ _ s = _ from h)

theorem plainCommand_steady (lo hi : Nat) (c : CommandCode) (arg : Word) : Steady lo hi (do
    let r ← onBus (sendCommand c arg)
    pure (Reply.response r) : Engine Reply) :=
  (Steady.onBus _ _ (sendCommand_tame _ _)).bind fun _ => .pure _ _ _

theorem tailCommand_steady (lo hi : Nat) (c : CommandCode) (arg : Word) {α : Type} (test : Byte → Bool)
    {tail : Transport α} (h : Tame tail) : Steady lo hi (do
    let r ← onBus (sendCommand c arg)
    if test r then do
      let _ ← onBus tail
      pure (Reply.response r)
    else pure (Reply.response r) : Engine Reply) :=
  (Steady.onBus _ _ (sendCommand_tame _ _)).bind fun _ => .ite ((Steady.onBus _ _ h).bind fun _ => .pure _ _ _)
    (.pure _ _ _)

theorem exec_wire (i : Instr) (hh : i.isHost = false) :
    ∃ op : Engine Reply, Steady (storeLo i) (storeHi i) op ∧ ∀ s, exec i s = wireCall op s := by
  cases i <;> try (simp [Instr.isHost] at hh; done)
  case cmd8 => exact ⟨_, tailCommand_steady _ _ _ _ _ readR7_tame, fun _ => rfl⟩
  case cmd58 => exact ⟨_, tailCommand_steady _ _ _ _ _ readOcr_tame, fun _ => rfl⟩
  case acmd13 => exact ⟨_, tailCommand_steady _ _ _ _ _ (fillBytes_tame 1), fun _ => rfl⟩
  case tokStartData use =>
    cases use with
    | receive dst len => exact ⟨_, tokenReply_steady (receiveTo_steady dst len), fun _ => rfl⟩
    | transmit src => exact ⟨_, tokenReply_steady (transmitFrom_steady _ _ src _), fun _ => rfl⟩
  case tokMultiWrite src => exact ⟨_, tokenReply_steady (transmitFrom_steady _ _ src _), fun _ => rfl⟩
  case tokStopTran => exact ⟨_, tokenReply_steady (.onBus _ _ sendStop_tame), fun _ => rfl⟩
  all_goals exact ⟨_, plainCommand_steady _ _ _ _, fun _ => rfl⟩

/-- With a wait that can end, an operation that begins with it is a plain host operation. -/
theorem waitCall_ends {waitMs : Nat} (h : canExpire waitMs = true) (adm : Option Result) (ta : Result → Reply)
    (op : Engine Reply) (s : State) : waitCall adm ta waitMs op s = hostCall adm ta op s := by
  simp [waitCall, hostCall, h]

/-- Where it comes to a next state it does so as that host operation, whatever the wait. -/
theorem waitCall_next {waitMs : Nat} {adm : Option Result} {ta : Result → Reply} {op : Engine Reply} {s t : State}
    (h : waitCall adm ta waitMs op s = .next t) : hostCall adm ta op s = .next t := by
  cases hc : canExpire waitMs with
  | true => rwa [waitCall_ends hc] at h
  | false =>
    cases adm with
    | some r => exact h
    | none =>
      simp only [waitCall, hc] at h
      split at h <;> cases h

theorem exec_initialize_next (drv : Nat) (s t : State) (h : exec (.initializeCard drv) s = .next t) :
    s.busy = false ∧ ((drv ≠ 0 ∧ t = deliver (.status badDriveStatus) s) ∨
      drv = 0 ∧ ∃ u, (initBody { s with busy := true }).2 = u ∧ t = deliver (.status u.status) u) := by
  have h := waitCall_next (show waitCall _ _ _ _ s = .next t from h)
  cases hb : s.busy with
  | true => simp [hostCall, hb] at h
  | false =>
    simp only [hostCall, hb, Bool.false_eq_true, if_false] at h
    refine ⟨rfl, ?_⟩
    by_cases hd : drv = 0
    · subst hd
      right
      rw [show firstFailure [driveTest 0] = none by decide] at h
      have h := (Host.Outcome.next.inj h).symm
      rw [runOperation, initOperation_body] at h
      generalize hu : (initBody { s with busy := true }).2 = u at h
      exact ⟨rfl, u, rfl, h⟩
    · left
      have : firstFailure [driveTest drv] = some .invalidParameter := by simp [firstFailure, driveTest, hd]
      rw [this] at h
      exact ⟨hd, (Host.Outcome.next.inj h).symm⟩

end Sys2Proof.Machine
end

