-- ==== Sys2Proof/Laws/Ticks.lean ====
section
/-! SUPPORT. What time the samples of a tick tell (spec/60_exceptions.md R300 (a)), and that every procedure of the
engine takes its samples from the stream it is given, each once and in order (`Bus.TakesFrom`).  Only a wait that has
used up its store comes to `lastSample`, because each of its polls takes a sample. -/

namespace Sys2Proof.Machine

/-! ## Samples -/

theorem getLastD_cons_sample (v w : Word) (l : List Word) : (w :: l).getLastD v = l.getLastD w := by
  cases l <;> rfl

theorem elapsedFrom_append (v : Word) (l m : List Word) :
    elapsedFrom v (l ++ m) = elapsedFrom v l + elapsedFrom (l.getLastD v) m := by
  induction l generalizing v with
  | nil => exact (Nat.zero_add _).symm
  | cons w l ih => rw [List.cons_append, elapsedFrom, ih, getLastD_cons_sample, elapsedFrom, Nat.add_assoc]

/-- The difference of two samples is what elapsed between them, modulo 2^32. -/
theorem sub_eq_elapsedFrom (v : Word) (l : List Word) : (l.getLastD v - v).toNat = elapsedFrom v l % 2 ^ 32 := by
  induction l generalizing v with
  | nil => simp [elapsedFrom]
  | cons w l ih =>
    rw [getLastD_cons_sample, elapsedFrom, Nat.add_mod, ← ih, Nat.mod_eq_of_lt (w - v).isLt, Nat.add_comm,
      ← BitVec.toNat_add]
    congr 1
    bv_omega

/-- One sample, the stream's next where it holds one. -/
theorem Bus.TakesFrom.sampled {l : List Word} {b c : Bus} {v : Word} (h : b.TakesFrom l)
    (ht : c.trace = .now v :: b.trace) (hv : c.tick = v) (hs : b.ticks = v :: c.ticks ∨ b.ticks = []) :
    c.TakesFrom l := by
  have hc : c.samples = b.samples ++ [v] := by simp [Bus.samples, Bus.history, ht, Event.sample]
  refine ⟨?_, fun w hw => by rw [hc] at hw; simp at hw; exact hv.trans hw⟩
  rw [hc, List.append_assoc]
  rcases hs with hs | hs
  · have h' := h.stream
    rw [hs] at h'
    exact h'
  · have h' := h.stream
    rw [hs, List.append_nil] at h'
    exact h'.trans (List.prefix_append ..)

/-- What takes no sample and leaves the store alone. -/
theorem Bus.TakesFrom.unsampled {l : List Word} {b c : Bus} (h : b.TakesFrom l) (ht : c.samples = b.samples)
    (hv : c.tick = b.tick) (hs : c.ticks = b.ticks) : c.TakesFrom l where
  stream := by rw [ht, hs]; exact h.stream
  last v e := hv.trans (h.last v (ht ▸ e))

/-! ## Transport procedures -/

/-- From `b` the procedure takes its samples from the stream, and adds nothing to the store. -/
structure TicksOn {α : Type} (m : Transport α) (b : Bus) : Prop where
  keeps : ∀ l, b.TakesFrom l → (m b).2.TakesFrom l
  store : (m b).2.ticks.length ≤ b.ticks.length

/-- It does so from everywhere. -/
def Ticks {α : Type} (m : Transport α) : Prop :=
  ∀ b, TicksOn m b

section
variable {α β : Type}

theorem TicksOn.bind {m : Transport α} {f : α → Transport β} {b : Bus} (hm : TicksOn m b)
    (hf : TicksOn (f (m b).1) (m b).2) : TicksOn (m >>= f) b where
  keeps l h := hf.keeps l (hm.keeps l h)
  store := Nat.le_trans hf.store hm.store

theorem TicksOn.pure (x : α) (b : Bus) : TicksOn (pure x) b :=
  ⟨fun _ => id, Nat.le_refl _⟩

theorem TicksOn.ite {c : Prop} [Decidable c] {m n : Transport α} {b : Bus} (hm : TicksOn m b)
    (hn : TicksOn n b) : TicksOn (if c then m else n) b := by
  split
  · exact hm
  · exact hn

theorem Ticks.bind {m : Transport α} {f : α → Transport β} (hm : Ticks m) (hf : ∀ x, Ticks (f x)) :
    Ticks (m >>= f) :=
  fun b => (hm b).bind (hf _ _)

theorem Ticks.pure (x : α) : Ticks (pure x : Transport α) :=
  fun b => .pure x b

theorem Ticks.ite {c : Prop} [Decidable c] {m n : Transport α} (hm : Ticks m) (hn : Ticks n) :
    Ticks (if c then m else n) :=
  fun b => .ite (hm b) (hn b)

/-- A loop that is entered with no fewer polls left than samples in store. -/
theorem Ticks.bounded {m : Nat → Transport α} (h : ∀ n b, b.ticks.length ≤ n → TicksOn (m n) b) :
    Ticks fun b => m (pollBound b) b :=
  fun b => ⟨(h _ b (Nat.le_add_left ..)).keeps, (h _ b (Nat.le_add_left ..)).store⟩

/-- A deadline that is running changes which free samples are taken, not from where. -/
theorem Ticks.under {m : Transport α} (t0 : Word) (h : Ticks m) : Ticks (under t0 m) := fun b =>
  have hb := h (b.withDeadlines (t0 :: b.deadlines))
  ⟨fun l h' => (hb.keeps l (h'.unsampled rfl rfl rfl)).unsampled rfl rfl rfl, hb.store⟩

end

/-! ### Primitives -/

theorem xchg_ticks (o : Byte) : Ticks (xchg o) := by
  refine fun b => ⟨fun l h => ?_, ?_⟩ <;> unfold xchg <;> split
  · exact h.unsampled (by simp [Bus.samples, Bus.history, Event.sample]) rfl rfl
  · exact h.unsampled (by simp [Bus.samples, Bus.history, Event.sample]) rfl rfl
  · exact Nat.le_refl _
  · exact Nat.le_refl _

theorem setCS_ticks (c : CsLevel) : Ticks (setCS c) :=
  fun _ => ⟨fun _ hb => hb.unsampled (by simp [Bus.samples, Bus.history, Event.sample, lineTalk]) rfl rfl, Nat.le_refl _⟩

theorem setPwr_ticks (p : PowerLevel) : Ticks (setPwr p) :=
  fun _ => ⟨fun _ hb => hb.unsampled (by simp [Bus.samples, Bus.history, Event.sample, lineTalk]) rfl rfl, Nat.le_refl _⟩

theorem setClk_ticks (r : ClockRate) : Ticks (setClk r) :=
  fun _ => ⟨fun _ hb => hb.unsampled (by simp [Bus.samples, Bus.history, Event.sample, lineTalk]) rfl rfl, Nat.le_refl _⟩

theorem logEvent_ticks (e : LogEvent) : Ticks (logEvent e) :=
  fun _ => ⟨fun _ hb => hb.unsampled (by simp [Bus.samples, Bus.history, Event.sample, lineTalk]) rfl rfl, Nat.le_refl _⟩

theorem setScratch_ticks (f : Scratch → Scratch) : Ticks (setScratch f) :=
  fun _ => ⟨fun _ hb => hb.unsampled rfl rfl rfl, Nat.le_refl _⟩

theorem drawSectors_ticks : Ticks drawSectors :=
  fun _ => ⟨fun _ hb => hb.unsampled rfl rfl rfl, Nat.le_refl _⟩

/-- A sample takes one from the store, if it holds one. -/
theorem now_store (b : Bus) : (now b).2.ticks = b.ticks.tail := by
  unfold now
  cases b.ticks <;> rfl

theorem now_ticks : Ticks now := by
  refine fun b => ⟨fun l h => ?_, by rw [now_store]; simp⟩
  unfold now
  cases hs : b.ticks with
  | nil => exact h.sampled rfl rfl (.inr hs)
  | cons v rest => exact h.sampled rfl rfl (.inl hs)

theorem lastSample_ticks (t0 : Word) (T : Nat) (b : Bus) (hs : b.ticks = []) : TicksOn (lastSample t0 T) b :=
  ⟨fun _ h => h.sampled rfl rfl (.inr hs), Nat.le_refl _⟩

theorem burstRead_ticks (n : Nat) : Ticks (burstRead n) := by
  induction n with
  | zero => exact .pure _
  | succ n ih => exact (xchg_ticks _).bind fun _ => ih.bind fun _ => .pure _

theorem burstWrite_ticks (l : List Byte) : Ticks (burstWrite l) := by
  induction l with
  | nil => exact .pure _
  | cons o l ih => exact (xchg_ticks _).bind fun _ => ih

theorem fillBytes_ticks (n : Nat) : Ticks (fillBytes n) := by
  induction n with
  | zero => exact .pure _
  | succ n ih => exact (xchg_ticks _).bind fun _ => ih

/-! ### Waits -/

theorem startWait_ticks : Ticks startWait :=
  now_ticks.bind fun _ => (setScratch_ticks _).bind fun _ => .pure _

theorem expired_ticks (t0 : Word) (T : Nat) : Ticks (expired t0 T) :=
  now_ticks.bind fun _ => .pure _

/-- A poll takes one of the `n + 1` samples that may be in store. -/
theorem expired_store (t0 : Word) (T n : Nat) (b : Bus) (h : b.ticks.length ≤ n + 1) :
    (expired t0 T b).2.ticks.length ≤ n := by
  show (now b).2.ticks.length ≤ n
  rw [now_store, List.length_tail]
  omega

theorem delayLoop_ticks (t0 : Word) (T n : Nat) (b : Bus)
    (h : b.ticks.length ≤ n) : TicksOn (delayLoop t0 T n) b := by
  induction n generalizing b with
  | zero => exact lastSample_ticks t0 T b (List.length_eq_zero_iff.1 (Nat.le_zero.1 h))
  | succ n ih => exact (expired_ticks t0 T b).bind (.ite (.pure _ _) (ih _ (expired_store t0 T n b h)))

theorem delay_ticks (T : Nat) : Ticks (delay T) :=
  startWait_ticks.bind fun t0 => .under t0 (.bounded (delayLoop_ticks t0 T))

theorem readyLoop_ticks (t0 : Word) (T n : Nat) (b : Bus)
    (h : b.ticks.length ≤ n) : TicksOn (readyLoop t0 T n) b := by
  induction n generalizing b with
  | zero =>
    have h' := Nat.le_trans (xchg_ticks Config.fillByte b).store h
    exact (xchg_ticks _ b).bind (.ite (.pure _ _)
      ((lastSample_ticks t0 T _ (List.length_eq_zero_iff.1 (Nat.le_zero.1 h'))).bind (.pure _ _)))
  | succ n ih =>
    have h' := Nat.le_trans (xchg_ticks Config.fillByte b).store h
    exact (xchg_ticks _ b).bind (.ite (.pure _ _)
      ((expired_ticks t0 T _).bind (.ite (.pure _ _) (ih _ (expired_store t0 T n _ h')))))

theorem waitReady_ticks (T : Nat) : Ticks (waitReady T) :=
  startWait_ticks.bind fun t0 => .under t0 (.bounded (readyLoop_ticks t0 T))

theorem deselect_ticks : Ticks deselect :=
  (setCS_ticks _).bind fun _ => (xchg_ticks _).bind fun _ => .pure _

/-! ### Commands, packets, registers -/

theorem select_ticks : Ticks select :=
  (setCS_ticks _).bind fun _ => (xchg_ticks _).bind fun _ => (waitReady_ticks _).bind fun _ =>
    .ite (.pure _) (deselect_ticks.bind fun _ => .pure _)

theorem pollLoop_ticks (n : Nat) : Ticks (pollLoop n) := by
  induction n with
  | zero => exact (xchg_ticks _).bind fun _ => (setScratch_ticks _).bind fun _ => .pure _
  | succ n ih => exact (xchg_ticks _).bind fun _ => .ite ((setScratch_ticks _).bind fun _ => .pure _) ih

theorem sendPlain_ticks (index : CmdIndex) (arg : Word) : Ticks (sendPlain index arg) :=
  deselect_ticks.bind fun _ => select_ticks.bind fun _ =>
    .ite ((burstWrite_ticks _).bind fun _ => Ticks.bind (.ite (fillBytes_ticks _) (.pure _)) fun _ => pollLoop_ticks _)
      (.pure _)

theorem sendCommand_ticks (c : CommandCode) (arg : Word) : Ticks (sendCommand c arg) :=
  .ite ((sendPlain_ticks _ _).bind fun _ => .ite (sendPlain_ticks _ _) (.pure _)) (sendPlain_ticks _ _)

theorem readR7_ticks : Ticks readR7 :=
  (burstRead_ticks _).bind fun _ => (setScratch_ticks _).bind fun _ => .pure _

theorem readOcr_ticks : Ticks readOcr :=
  (burstRead_ticks _).bind fun _ => (setScratch_ticks _).bind fun _ => .pure _

theorem tokenLoop_ticks (t0 : Word) (n : Nat) (b : Bus) (h : b.ticks.length ≤ n) :
    TicksOn (tokenLoop t0 n) b := by
  induction n generalizing b with
  | zero =>
    have h' := Nat.le_trans (xchg_ticks Config.fillByte b).store h
    exact (xchg_ticks _ b).bind (.ite ((lastSample_ticks t0 Config.tTokenMs _ (List.length_eq_zero_iff.1 (Nat.le_zero.1 h'))).bind (.pure _ _))
      (.pure _ _))
  | succ n ih =>
    have h' := Nat.le_trans (xchg_ticks Config.fillByte b).store h
    exact (xchg_ticks _ b).bind (.ite ((expired_ticks t0 _ _).bind
      (.ite (.pure _ _) (ih _ (expired_store t0 _ n _ h')))) (.pure _ _))

theorem awaitToken_ticks : Ticks awaitToken :=
  startWait_ticks.bind fun t0 =>
    Ticks.bind (.under t0 (.bounded (tokenLoop_ticks t0))) fun _ => (setScratch_ticks _).bind fun _ => .pure _

theorem receiveBlock_ticks (len : Nat) : Ticks (receiveBlock len) :=
  awaitToken_ticks.bind fun _ => .ite
    ((burstRead_ticks _).bind fun _ => (fillBytes_ticks _).bind fun _ => .pure _) (.pure _)

theorem sendData_ticks (data : List Byte) : Ticks (sendData data) :=
  (burstWrite_ticks _).bind fun _ => (fillBytes_ticks _).bind fun _ => (xchg_ticks _).bind fun _ =>
    (setScratch_ticks _).bind fun _ => .pure _

theorem transmitBlock_ticks (data : List Byte) (token : Byte) : Ticks (transmitBlock data token) :=
  (waitReady_ticks _).bind fun _ =>
    .ite ((xchg_ticks _).bind fun _ => .ite (.pure _) (sendData_ticks _)) (.pure _)

theorem sendStop_ticks : Ticks sendStop :=
  transmitBlock_ticks _ _

theorem readCSD_ticks : Ticks readCSD :=
  (sendCommand_ticks _ _).bind fun _ => .ite
    ((receiveBlock_ticks _).bind fun got => by
      cases got with
      | none => exact .pure _
      | some csd => exact (setScratch_ticks _).bind fun _ => .pure _) (.pure _)

theorem cidBody_ticks : Ticks cidBody :=
  (sendCommand_ticks _ _).bind fun _ => .ite (receiveBlock_ticks _) (.pure _)

theorem ocrBody_ticks : Ticks ocrBody :=
  (sendCommand_ticks _ _).bind fun _ => .ite (readOcr_ticks.bind fun _ => .pure _) (.pure _)

theorem sdStatusBody_ticks : Ticks sdStatusBody :=
  (sendCommand_ticks _ _).bind fun _ =>
    .ite ((fillBytes_ticks _).bind fun _ => receiveBlock_ticks _) (.pure _)

theorem accepts_ticks (n : CmdIndex) (arg : Word) : Ticks (accepts n arg) :=
  (sendCommand_ticks _ _).bind fun _ => .pure _

theorem eraseSequence_ticks (st ed : Word) : Ticks (eraseSequence st ed) :=
  (accepts_ticks _ _).bind fun _ => .ite ((accepts_ticks _ _).bind fun _ => .ite
    ((accepts_ticks _ _).bind fun _ => .ite (waitReady_ticks _) (.pure _)) (.pure _)) (.pure _)

theorem trimCard_ticks (c : Option CardClass) (st ed : Word) : Ticks (trimCard c st ed) :=
  .ite (readCSD_ticks.bind fun got => by
    cases got with
    | none => exact .pure _
    | some csd => exact .ite (eraseSequence_ticks _ _) (.pure _)) (.pure _)

theorem readSectorCount_ticks : Ticks readSectorCount :=
  readCSD_ticks.bind fun got => by
    cases got with
    | none => exact .pure _
    | some csd => exact Ticks.bind (.ite (.pure _) (.ite (.pure _) drawSectors_ticks)) fun _ => .pure _

theorem eraseSdv2_ticks : Ticks eraseSdv2 :=
  (sendCommand_ticks _ _).bind fun _ => .ite
    ((fillBytes_ticks _).bind fun _ => (receiveBlock_ticks _).bind fun got => by
      cases got with
      | none => exact .pure _
      | some sds => exact (setScratch_ticks _).bind fun _ => (fillBytes_ticks _).bind fun _ => .pure _) (.pure _)

theorem eraseFromCsd_ticks (f : List Byte → Word) : Ticks (eraseFromCsd f) :=
  readCSD_ticks.bind fun got => by
    cases got <;> exact .pure _

theorem readEraseBlockSectors_ticks (c : Option CardClass) : Ticks (readEraseBlockSectors c) := by
  unfold readEraseBlockSectors
  split
  · exact eraseSdv2_ticks
  · exact eraseFromCsd_ticks _
  · exact eraseFromCsd_ticks _
  · exact .pure _

/-! ### Classification -/

theorem initLoop_ticks (c : CommandCode) (arg t0 : Word) (n : Nat) (b : Bus) (h : b.ticks.length ≤ n) :
    TicksOn (initLoop c arg t0 n) b := by
  induction n generalizing b with
  | zero =>
      exact lastSample_ticks t0 _ b (List.length_eq_zero_iff.1 (Nat.le_zero.1 h))
  | succ n ih =>
    have h' := Nat.le_trans (sendCommand_ticks c arg _).store (expired_store t0 Config.tInitMs n b h)
    exact (expired_ticks t0 _ b).bind
      (.ite (.pure _ _) ((sendCommand_ticks c arg _).bind (.ite (.pure _ _) (ih _ h'))))

theorem pollInit_ticks (c : CommandCode) (arg t0 : Word) : Ticks (pollInit c arg t0) :=
  .bounded (initLoop_ticks c arg t0)

theorem withinDeadline_ticks (t0 : Word) (c : CommandCode) (arg : Word) : Ticks (withinDeadline t0 c arg) :=
  (expired_ticks _ _).bind fun _ =>
    .ite (.pure _) ((sendCommand_ticks _ _).bind fun _ => .pure _)

theorem classifySdv2_ticks (t0 : Word) : Ticks (classifySdv2 t0) :=
  readR7_ticks.bind fun _ => .ite ((pollInit_ticks _ _ _).bind fun _ => (withinDeadline_ticks _ _ _).bind fun _ =>
    .ite (readOcr_ticks.bind fun _ => .pure _) (.pure _)) (.pure _)

theorem classifyLegacy_ticks (c : CommandCode) (k : CardClass) (t0 : Word) : Ticks (classifyLegacy c k t0) :=
  (pollInit_ticks _ _ _).bind fun _ => (withinDeadline_ticks _ _ _).bind fun _ => .ite (.pure _) (.pure _)

theorem powerOff_ticks : Ticks powerOff :=
  (setPwr_ticks _).bind fun _ => delay_ticks _

/-! ## Engine procedures -/

/-- A procedure of the engine takes its samples from the stream. -/
def Clocked {α : Type} (op : Engine α) : Prop :=
  ∀ (s : State) (l : List Word), s.bus.TakesFrom l → (op s).2.bus.TakesFrom l

section
variable {α β : Type}

theorem Clocked.bind {m : Engine α} {f : α → Engine β} (hm : Clocked m) (hf : ∀ x, Clocked (f x)) :
    Clocked (m >>= f) :=
  fun s l h => hf _ _ l (hm s l h)

theorem Clocked.pure (x : α) : Clocked (pure x : Engine α) :=
  fun _ _ => id

theorem Clocked.ite {c : Prop} [Decidable c] {m n : Engine α} (hm : Clocked m) (hn : Clocked n) :
    Clocked (if c then m else n) := by
  split
  · exact hm
  · exact hn

theorem Clocked.onBus {m : Transport α} (h : Ticks m) : Clocked (onBus m) :=
  fun s => (h s.bus).keeps

/-- A procedure that leaves the transport side alone. -/
theorem Clocked.still {m : Engine α} (hb : ∀ s, (m s).2.bus = s.bus) : Clocked m :=
  fun s _ h => (hb s).symm ▸ h

theorem Clocked.under {m : Engine α} (t0 : Word) (h : Clocked m) : Clocked (underDeadline t0 m) :=
  fun s l h' => (h (s.withDeadlines (t0 :: s.bus.deadlines)) l (h'.unsampled rfl rfl rfl)).unsampled rfl rfl rfl

end

theorem readClass_clocked : Clocked readClass :=
  .still fun _ => rfl

theorem noteProgress_clocked (count off : Nat) : Clocked (noteProgress count off) :=
  .onBus (setScratch_ticks _)

theorem setPhase_clocked (p : Phase) : Clocked (setPhase p) :=
  .still fun _ => rfl

theorem answer_clocked (f : State → Reply) : Clocked (answer f) :=
  .still fun _ => rfl

theorem command_clocked (c : CommandCode) (arg : Word) : Clocked (onBus (sendCommand c arg)) :=
  .onBus (sendCommand_ticks c arg)

theorem receiveTo_clocked (dst len : Nat) : Clocked (receiveTo dst len) :=
  (Clocked.onBus (receiveBlock_ticks len)).bind fun got => by
    cases got with
    | none => exact .pure _
    | some data => exact Clocked.bind (.still fun _ => rfl) fun _ => .pure _

theorem transmitFrom_clocked (src : Nat) (token : Byte) : Clocked (transmitFrom src token) :=
  Clocked.bind (.still fun _ => rfl) fun _ => .onBus (transmitBlock_ticks _ _)

theorem readBlocks_clocked (base count off : Nat) : Clocked (readBlocks base count off) := by
  induction count generalizing off with
  | zero => exact .pure _
  | succ n ih =>
    exact (receiveTo_clocked _ _).bind fun _ => .ite ((noteProgress_clocked _ _).bind fun _ => ih _) (.pure _)

theorem writeBlocks_clocked (base count off : Nat) : Clocked (writeBlocks base count off) := by
  induction count generalizing off with
  | zero => exact .pure _
  | succ n ih =>
    exact (transmitFrom_clocked _ _).bind fun _ => .ite ((noteProgress_clocked _ _).bind fun _ => ih _) (.pure _)

theorem closeBlockIO_clocked (remaining : Nat) : Clocked (closeBlockIO remaining) :=
  (Clocked.onBus deselect_ticks).bind fun _ => .pure _

theorem readOperation_clocked (buf : HostBuf) (sector : Word) (count : Nat) :
    Clocked (readOperation buf sector count) := by
  refine readClass_clocked.bind fun c => Clocked.ite (.bind ?_ closeBlockIO_clocked) (.bind ?_ closeBlockIO_clocked)
  · exact (command_clocked _ _).bind fun _ =>
      .ite ((receiveTo_clocked _ _).bind fun _ => .pure _) (.pure _)
  · exact (command_clocked _ _).bind fun _ => .ite ((noteProgress_clocked _ _).bind fun _ =>
      (readBlocks_clocked _ _ _).bind fun _ => (command_clocked _ _).bind fun _ => .pure _) (.pure _)

theorem writeOperation_clocked (buf : HostBuf) (sector : Word) (count : Nat) :
    Clocked (writeOperation buf sector count) := by
  refine readClass_clocked.bind fun c => Clocked.ite (.bind ?_ closeBlockIO_clocked) (.bind ?_ closeBlockIO_clocked)
  · exact (command_clocked _ _).bind fun _ =>
      .ite ((transmitFrom_clocked _ _).bind fun _ => .pure _) (.pure _)
  · refine Clocked.bind (.ite ((command_clocked _ _).bind fun _ => .pure _) (.pure _)) fun _ =>
      (command_clocked _ _).bind fun _ => .ite ((noteProgress_clocked _ _).bind fun _ => ?_) (.pure _)
    exact (writeBlocks_clocked _ _ _).bind fun _ => (Clocked.onBus sendStop_ticks).bind fun _ => .pure _

theorem trimOperation_clocked (st ed : Word) : Clocked (trimOperation st ed) :=
  readClass_clocked.bind fun _ => (Clocked.onBus (trimCard_ticks _ _ _)).bind fun _ => closeBlockIO_clocked _

theorem query_clocked {body : Transport (Option (List Byte))} (h : Ticks body) :
    Clocked (query body) :=
  (Clocked.onBus h).bind fun got => (Clocked.onBus deselect_ticks).bind fun _ => by
    cases got <;> exact .pure _

/-! ### initialize -/

theorem classifyBranch_clocked (t0 : Word) : Clocked (classifyBranch t0) :=
  (command_clocked _ _).bind fun _ => .ite
    ((setPhase_clocked _).bind fun _ => .onBus (classifySdv2_ticks _))
    ((command_clocked _ _).bind fun _ => .ite
      ((setPhase_clocked _).bind fun _ => .onBus (classifyLegacy_ticks _ _ _))
      ((setPhase_clocked _).bind fun _ => .onBus (classifyLegacy_ticks _ _ _)))

theorem classify_clocked : Clocked classify :=
  (command_clocked _ _).bind fun _ => .ite
    ((Clocked.onBus startWait_ticks).bind fun t0 => .under t0 (classifyBranch_clocked t0)) (.pure _)

theorem updateGeometry_clocked : Clocked updateGeometry := by
  have hw : ∀ {f : State → State} (_ : ∀ s, (f s).bus = s.bus), Clocked (fun s => ((), f s)) := fun h => .still h
  refine Clocked.bind ((Clocked.onBus readSectorCount_ticks).bind fun got =>
    (Clocked.onBus deselect_ticks).bind fun _ => ?_) fun _ => Clocked.bind (.still fun _ => rfl) fun _ =>
    (Clocked.onBus (readEraseBlockSectors_ticks _)).bind fun got =>
    (Clocked.onBus deselect_ticks).bind fun _ => ?_
  · cases got with
    | none => exact .onBus (logEvent_ticks _)
    | some v => exact hw fun _ => rfl
  · cases got with
    | none => exact .onBus (logEvent_ticks _)
    | some v => exact hw fun _ => rfl

theorem initFailed_clocked : Clocked initFailed :=
  (Clocked.onBus powerOff_ticks).bind fun _ => Clocked.bind (.still fun _ => rfl) fun _ =>
    setPhase_clocked _

theorem initSucceeded_clocked : Clocked initSucceeded :=
  (Clocked.onBus (setClk_ticks _)).bind fun _ => Clocked.bind (.still fun _ => rfl) fun _ =>
    (setPhase_clocked _).bind fun _ => updateGeometry_clocked

theorem powerUp_clocked : Clocked powerUp :=
  Clocked.bind (.still fun _ => rfl) fun _ =>
    (Clocked.onBus ((setPwr_ticks _).bind fun _ => (setCS_ticks _).bind fun _ => delay_ticks _)).bind fun _ =>
    (Clocked.onBus (setClk_ticks _)).bind fun _ => (Clocked.onBus (fillBytes_ticks _)).bind fun _ => setPhase_clocked _

theorem initBody_clocked : Clocked initBody :=
  powerUp_clocked.bind fun _ => classify_clocked.bind fun ty =>
    (Clocked.onBus (setScratch_ticks _)).bind fun _ => Clocked.bind (.still fun _ => rfl) fun _ =>
    (Clocked.onBus deselect_ticks).bind fun _ => by
      cases ty with
      | none => exact initFailed_clocked
      | some k => exact initSucceeded_clocked

end Sys2Proof.Machine
end

