-- ==== Sys2Proof/Laws/Elapsed.lean ====
section
/-! SUPPORT. How much time the free samples of a procedure span (spec/60_exceptions.md R300): `Runs w t0 starts m` says
that, with nothing in store and the deadlines of `starts` running, the samples of `m` leave less than 2^32 milliseconds
behind `t0` (a), or came within `w` milliseconds of them before a wait had to end (c).  With `w = 0` it is (a) alone. -/

namespace Sys2Proof.Machine

/-! ## What passes between two states -/

/-- From `b` to `c`, of which neither has a sample in store, `n` milliseconds pass. -/
structure Bus.Passes (n : Nat) (b c : Bus) : Prop where
  store : c.ticks = []
  samples : ∃ l, c.samples = b.samples ++ l ∧ c.tick = l.getLastD b.tick ∧ elapsedFrom b.tick l = n

theorem Bus.Passes.trans {n m : Nat} {b c d : Bus} (h : b.Passes n c) (h' : c.Passes m d) : b.Passes (n + m) d := by
  obtain ⟨-, l, ht, hl, hn⟩ := h
  obtain ⟨hd, l', ht', hl', hn'⟩ := h'
  refine ⟨hd, l ++ l', by rw [ht', ht, List.append_assoc], ?_, by rw [elapsedFrom_append, ← hl, hn, hn']⟩
  rw [hl', hl]
  cases l' with
  | nil => simp
  | cons w l' =>
    have e : ∀ (k : List Word) (v : Word), (k ++ w :: l').getLastD v = l'.getLastD w := by
      intro k
      induction k with
      | nil => intro v; rw [List.nil_append, getLastD_cons_sample]
      | cons u k ih => intro v; rw [List.cons_append, getLastD_cons_sample, ih]
    rw [e, getLastD_cons_sample]

/-- What takes no sample. -/
theorem Bus.Passes.unsampled {b c : Bus} (h : b.ticks = []) (ht : c.samples = b.samples) (hv : c.tick = b.tick)
    (hs : c.ticks = b.ticks) : b.Passes 0 c :=
  ⟨hs.trans h, [], by simp [ht], hv, rfl⟩

/-- One sample. -/
theorem Bus.Passes.sampled {b c : Bus} {v : Word} (h : b.ticks = []) (ht : c.trace = .now v :: b.trace)
    (hv : c.tick = v) (hs : c.ticks = b.ticks) : b.Passes (v - b.tick).toNat c :=
  ⟨hs.trans h, [v], by simp [Bus.samples, Bus.history, ht, Event.sample], hv, by simp [elapsedFrom]⟩

/-- How far the tick is past `t0`, before and after, where it makes no whole turn. -/
theorem Bus.Passes.since {n : Nat} {b c : Bus} (h : b.Passes n c) (t0 : Word) (hn : sinceStart t0 b.tick + n < 2 ^ 32) :
    sinceStart t0 c.tick = sinceStart t0 b.tick + n := by
  obtain ⟨-, l, -, hl, he⟩ := h
  have h' := sub_eq_elapsedFrom b.tick l
  rw [← hl, he, Nat.mod_eq_of_lt (by omega)] at h'
  rw [sinceStart_add t0 b.tick c.tick (by rw [h']; exact hn), h']

/-- From `b` to `c` less than a whole turn has passed since `t0`. -/
def Bus.Keeps (t0 : Word) (b c : Bus) : Prop :=
  ∃ n, b.Passes n c ∧ sinceStart t0 b.tick + n < 2 ^ 32

/-- On the way from `b` to `c` there came to be no more than `w` milliseconds left of the turn that began at `t0`. -/
def Bus.Spent (w : Nat) (t0 : Word) (b c : Bus) : Prop :=
  ∃ early rest, c.samples = b.samples ++ (early ++ rest)
    ∧ sinceStart t0 b.tick + elapsedFrom b.tick early < 2 ^ 32
    ∧ 2 ^ 32 ≤ sinceStart t0 b.tick + elapsedFrom b.tick early + w

theorem Bus.Keeps.still {t0 : Word} {b c : Bus} (h : b.Passes 0 c) : b.Keeps t0 c :=
  ⟨0, h, (b.tick - t0).isLt⟩

theorem Bus.Keeps.trans {t0 : Word} {b c d : Bus} (h : b.Keeps t0 c) (h' : c.Keeps t0 d) : b.Keeps t0 d := by
  obtain ⟨n, hp, hn⟩ := h
  obtain ⟨m, hq, hm⟩ := h'
  rw [hp.since t0 hn] at hm
  exact ⟨n + m, hp.trans hq, by omega⟩

theorem Bus.Keeps.spent {w : Nat} {t0 : Word} {b c d : Bus} (h : b.Keeps t0 c) (h' : c.Spent w t0 d) :
    b.Spent w t0 d := by
  obtain ⟨n, hp, hn⟩ := h
  obtain ⟨early, rest, hs, hm, hw⟩ := h'
  rw [hp.since t0 hn] at hm hw
  obtain ⟨-, l, ht, hl, he⟩ := hp
  refine ⟨l ++ early, rest, by rw [hs, ht]; simp, ?_, ?_⟩ <;> rw [elapsedFrom_append, ← hl, he] <;> omega

theorem Bus.Spent.after {w : Nat} {t0 : Word} {b c d : Bus} (h : b.Spent w t0 c)
    (h' : ∃ l, d.samples = c.samples ++ l) : b.Spent w t0 d := by
  obtain ⟨early, rest, hs, hm⟩ := h
  obtain ⟨l, hl⟩ := h'
  exact ⟨early, rest ++ l, by rw [hl, hs]; simp, hm⟩

/-! ## Procedures -/

/-- From an empty store, the deadlines of `starts` running. -/
structure Runs {α : Type} (w : Nat) (t0 : Word) (starts : List Word) (m : Transport α) : Prop where
  tame : Tame m
  store : ∀ b : Bus, b.ticks = [] → (m b).2.ticks = []
  within : ∀ b : Bus, b.ticks = [] → b.deadlines = starts → b.Keeps t0 (m b).2 ∨ b.Spent w t0 (m b).2

section
variable {α β : Type} {w : Nat} {t0 : Word} {starts : List Word}

theorem Runs.grows {m : Transport α} (h : Runs w t0 starts m) (b : Bus) :
    ∃ l, (m b).2.samples = b.samples ++ l := by
  obtain ⟨newer, ht, -⟩ := h.tame.follows b
  exact ⟨newer.reverse.filterMap Event.sample, by simp [Bus.samples, Bus.history, ht]⟩

theorem Runs.bind {m : Transport α} {f : α → Transport β} (hm : Runs w t0 starts m) (hf : ∀ x, Runs w t0 starts (f x)) :
    Runs w t0 starts (m >>= f) where
  tame := hm.tame.bind fun x => (hf x).tame
  store b hb := (hf _).store _ (hm.store b hb)
  within b hb hs := by
    obtain ⟨-, -, -, -, -, hd⟩ := hm.tame.follows b
    obtain h | h := hm.within b hb hs
    · exact ((hf _).within _ (hm.store b hb) (hd.trans hs)).imp h.trans h.spent
    · exact .inr (h.after ((hf _).grows _))

/-- A procedure that takes no sample and leaves the store alone. -/
theorem Runs.silent {m : Transport α} (ht : Tame m) (hs : ∀ b, (m b).2.samples = b.samples)
    (hv : ∀ b, (m b).2.tick = b.tick) (hc : ∀ b, (m b).2.ticks = b.ticks) : Runs w t0 starts m :=
  ⟨ht, fun b hb => (hc b).trans hb, fun b hb _ => .inl (.still (.unsampled hb (hs b) (hv b) (hc b)))⟩

theorem Runs.pure (x : α) : Runs w t0 starts (pure x : Transport α) :=
  .silent (.pure x) (fun _ => rfl) (fun _ => rfl) fun _ => rfl

theorem Runs.ite {c : Prop} [Decidable c] {m n : Transport α} (hm : Runs w t0 starts m) (hn : Runs w t0 starts n) :
    Runs w t0 starts (if c then m else n) := by
  split
  · exact hm
  · exact hn

/-- A wait of its own inside. -/
theorem Runs.under {m : Transport α} (t1 : Word) (h : Runs w t0 (t1 :: starts) m) :
    Runs w t0 starts (under t1 m) where
  tame := .under t1 h.tame
  store b hb := h.store (b.withDeadlines (t1 :: b.deadlines)) hb
  within b hb hs := by
    obtain ⟨n, hp, hn⟩ | h' := h.within (b.withDeadlines (t1 :: b.deadlines)) hb (by rw [← hs]; rfl)
    · exact .inl ⟨n, ⟨hp.store, hp.samples⟩, hn⟩
    · exact .inr h'

/-! ### Primitives -/

theorem xchg_runs (o : Byte) : Runs w t0 starts (xchg o) := by
  refine .silent (xchg_tame o) (fun b => ?_) (fun b => ?_) (fun b => ?_) <;> unfold xchg <;> split <;>
    simp [Bus.samples, Bus.history, Event.sample]

theorem setCS_runs (c : CsLevel) : Runs w t0 starts (setCS c) :=
  .silent (setCS_tame c) (fun _ => by simp [Bus.samples, Bus.history, Event.sample, lineTalk])
    (fun _ => rfl) fun _ => rfl

theorem setScratch_runs (f : Scratch → Scratch) : Runs w t0 starts (setScratch f) :=
  .silent (setScratch_tame f) (fun _ => rfl) (fun _ => rfl) fun _ => rfl

/-- A sample keeps (a) for every deadline that is running. -/
theorem now_runs (h0 : t0 ∈ starts) : Runs w t0 starts now where
  tame := now_tame
  store b hb := by rw [now_store, hb]; rfl
  within b hb hs := by
    refine .inl ⟨(b.freeSample - b.tick).toNat, ?_, ?_⟩
    · simp only [now, hb]
      exact .sampled hb rfl rfl hb.symm
    · have h := Nat.mod_lt (Config.freeAdvance b.draws).toNat (roomLeft_pos b.deadlines b.tick)
      rw [Bus.freeSample, tickBehind_sub]
      exact ((lt_roomLeft_iff ..).1 h).2 t0 (hs ▸ h0)

theorem startWait_runs (h0 : t0 ∈ starts) : Runs w t0 starts startWait :=
  (now_runs h0).bind fun _ => (setScratch_runs _).bind fun _ => .pure _

theorem expired_runs (h0 : t0 ∈ starts) (t1 : Word) (T : Nat) : Runs w t0 starts (expired t1 T) :=
  (now_runs h0).bind fun _ => .pure _

/-- The last sample of a wait keeps (a) for its own deadline. -/
theorem lastSample_own (T : Nat) (hT : T < 2 ^ 32) : Runs w t0 starts (lastSample t0 T) where
  tame := lastSample_tame t0 T
  store _ hb := hb
  within b hb _ := by
    obtain ⟨n, hn, -, h, -⟩ := tickPast_sub t0 T b.deadlines b.tick (Config.freeAdvance b.draws).toNat hT
    exact .inl ⟨n, hn ▸ .sampled hb rfl rfl rfl, h⟩

/-- That of a wait inside keeps it for the deadline around it, unless that has no more left than the wait is long. -/
theorem lastSample_inner (t1 : Word) (T : Nat) (hT : T < 2 ^ 32) (hw : T ≤ w) :
    Runs w t0 [t1, t0] (lastSample t1 T) where
  tame := lastSample_tame t1 T
  store _ hb := hb
  within b hb hs := by
    obtain ⟨n, hn, hp, hl, hk⟩ := tickPast_sub t1 T b.deadlines b.tick (Config.freeAdvance b.draws).toNat hT
    have h0 : sinceStart t0 b.tick < 2 ^ 32 := (b.tick - t0).isLt
    by_cases hr : T - sinceStart t1 b.tick < roomLeft (t1 :: b.deadlines) b.tick
    · exact .inl ⟨n, hn ▸ .sampled hb rfl rfl rfl, ((lt_roomLeft_iff ..).1 (hk hr)).2 t0 (by simp [hs])⟩
    · refine .inr ⟨[], [tickPast t1 T b.deadlines b.tick (Config.freeAdvance b.draws).toNat], ?_, h0, ?_⟩
      · simp [lastSample, Bus.samples, Bus.history, Bus.shown, Event.sample]
      · simp only [hs, roomLeft, longest, Config.tickWidth] at hr
        have h1 : sinceStart t1 b.tick < 2 ^ 32 := (b.tick - t1).isLt
        simp only [elapsedFrom]
        omega

theorem burstRead_runs (n : Nat) : Runs w t0 starts (burstRead n) := by
  induction n with
  | zero => exact .pure _
  | succ n ih => exact (xchg_runs _).bind fun _ => ih.bind fun _ => .pure _

theorem burstWrite_runs (l : List Byte) : Runs w t0 starts (burstWrite l) := by
  induction l with
  | nil => exact .pure _
  | cons o l ih => exact (xchg_runs _).bind fun _ => ih

theorem fillBytes_runs (n : Nat) : Runs w t0 starts (fillBytes n) := by
  induction n with
  | zero => exact .pure _
  | succ n ih => exact (xchg_runs _).bind fun _ => ih

/-! ### Waits -/

/-- A loop whose fuel is the bound of its wait. -/
theorem Runs.bounded {m : Nat → Transport α} (h : ∀ n, Runs w t0 starts (m n)) :
    Runs w t0 starts fun b => m (pollBound b) b where
  tame := .bounded fun n => (h n).tame
  store b := (h _).store b
  within b := (h _).within b

theorem delayLoop_runs (t1 : Word) (T : Nat) (h0 : t0 ∈ starts) (hl : Runs w t0 starts (lastSample t1 T)) (n : Nat) :
    Runs w t0 starts (delayLoop t1 T n) := by
  induction n with
  | zero => exact hl
  | succ n ih => exact (expired_runs h0 t1 T).bind fun _ => .ite (.pure _) ih

theorem readyLoop_runs (t1 : Word) (T : Nat) (h0 : t0 ∈ starts) (hl : Runs w t0 starts (lastSample t1 T)) (n : Nat) :
    Runs w t0 starts (readyLoop t1 T n) := by
  induction n with
  | zero => exact (xchg_runs _).bind fun _ => .ite (.pure _) (hl.bind fun _ => .pure _)
  | succ n ih =>
    exact (xchg_runs _).bind fun _ => .ite (.pure _) ((expired_runs h0 t1 T).bind fun _ => .ite (.pure _) ih)

theorem tokenLoop_runs (h0 : t0 ∈ starts) (n : Nat) : Runs w t0 starts (tokenLoop t0 n) := by
  induction n with
  | zero =>
    exact (xchg_runs _).bind fun _ => .ite ((lastSample_own _ (by decide)).bind fun _ => .pure _) (.pure _)
  | succ n ih =>
    exact (xchg_runs _).bind fun _ => .ite ((expired_runs h0 t0 _).bind fun _ => .ite (.pure _) ih) (.pure _)

end

/-- What begins with the sample that starts its deadline. -/
theorem started {α : Type} {w : Nat} {m : Word → Transport α} (b : Bus) (hb : b.ticks = [])
    (hm : ∀ t0, Runs w t0 b.deadlines (m t0)) : ∃ (v : Word) (c : Bus), c.samples = b.samples ++ [v] ∧ c.tick = v ∧
      (c.Keeps v ((startWait >>= m) b).2 ∨ c.Spent w v ((startWait >>= m) b).2) := by
  obtain ⟨-, -, -, -, -, hd⟩ := startWait_tame.follows b
  refine ⟨(startWait b).1, (startWait b).2, ?_, ?_, (hm _).within _ ?_ hd⟩ <;>
    simp [startWait, now, hb, Bus.samples, Bus.history, Bus.shown, Event.sample]

/-- With no room to give way, (a) stands. -/
theorem samplesHold_started {b c d : Bus} {v : Word} (hc : c.samples = b.samples ++ [v]) (hv : c.tick = v)
    (h : c.Keeps v d ∨ c.Spent 0 v d) : b.SamplesHold d := by
  have h0 : sinceStart v c.tick = 0 := by simp [sinceStart, hv]
  obtain ⟨n, ⟨-, l, ht, -, he⟩, hn⟩ | ⟨early, rest, -, h1, h2⟩ := h
  · refine ⟨v, l, by rw [ht, hc]; simp, decide_eq_true ?_⟩
    rw [← hv, he, Config.tickWidth]
    omega
  · omega

theorem deselect_runs {w : Nat} {t0 : Word} {starts : List Word} : Runs w t0 starts deselect :=
  (setCS_runs _).bind fun _ => (xchg_runs _).bind fun _ => .pure _

/-! ## Classification

Its deadline `t0` is running, with the ready waits of the commands inside it. -/

section
variable {t0 : Word}

theorem waitReady_inner (T : Nat) (hT : T ≤ 500) : Runs 500 t0 [t0] (waitReady T) :=
  (startWait_runs (by simp)).bind fun t1 => .under t1 (.bounded fun n =>
    readyLoop_runs t1 T (by simp) (lastSample_inner t1 T (by omega) hT) n)

theorem select_runs : Runs 500 t0 [t0] select :=
  (setCS_runs _).bind fun _ => (xchg_runs _).bind fun _ => (waitReady_inner _ (by decide)).bind fun _ =>
    .ite (.pure _) (deselect_runs.bind fun _ => .pure _)

theorem pollLoop_runs {w : Nat} {starts : List Word} (n : Nat) : Runs w t0 starts (pollLoop n) := by
  induction n with
  | zero => exact (xchg_runs _).bind fun _ => (setScratch_runs _).bind fun _ => .pure _
  | succ n ih => exact (xchg_runs _).bind fun _ => .ite ((setScratch_runs _).bind fun _ => .pure _) ih

theorem sendPlain_runs (index : CmdIndex) (arg : Word) : Runs 500 t0 [t0] (sendPlain index arg) :=
  deselect_runs.bind fun _ => select_runs.bind fun _ => .ite ((burstWrite_runs _).bind fun _ =>
    Runs.bind (.ite (fillBytes_runs _) (.pure _)) fun _ => pollLoop_runs _) (.pure _)

theorem sendCommand_runs (c : CommandCode) (arg : Word) : Runs 500 t0 [t0] (sendCommand c arg) :=
  .ite ((sendPlain_runs _ _).bind fun _ => .ite (sendPlain_runs _ _) (.pure _)) (sendPlain_runs _ _)

theorem initLoop_runs (c : CommandCode) (arg : Word) (n : Nat) : Runs 500 t0 [t0] (initLoop c arg t0 n) := by
  induction n with
  | zero => exact lastSample_own _ (by decide)
  | succ n ih =>
    exact (expired_runs (by simp) t0 _).bind fun _ => .ite (.pure _) ((sendCommand_runs c arg).bind fun _ =>
      .ite (.pure _) ih)

theorem withinDeadline_runs (c : CommandCode) (arg : Word) : Runs 500 t0 [t0] (withinDeadline t0 c arg) :=
  (expired_runs (by simp) t0 _).bind fun _ => .ite (.pure _) ((sendCommand_runs _ _).bind fun _ => .pure _)

theorem readR7_runs {w : Nat} {starts : List Word} : Runs w t0 starts readR7 :=
  (burstRead_runs _).bind fun _ => (setScratch_runs _).bind fun _ => .pure _

theorem readOcr_runs {w : Nat} {starts : List Word} : Runs w t0 starts readOcr :=
  (burstRead_runs _).bind fun _ => (setScratch_runs _).bind fun _ => .pure _

theorem pollInit_runs (c : CommandCode) (arg : Word) : Runs 500 t0 [t0] (pollInit c arg t0) :=
  .bounded fun n => initLoop_runs c arg n

theorem classifySdv2_runs : Runs 500 t0 [t0] (classifySdv2 t0) :=
  readR7_runs.bind fun _ => .ite ((pollInit_runs _ _).bind fun _ => (withinDeadline_runs _ _).bind fun _ =>
    .ite (readOcr_runs.bind fun _ => .pure _) (.pure _)) (.pure _)

theorem classifyLegacy_runs (c : CommandCode) (k : CardClass) : Runs 500 t0 [t0] (classifyLegacy c k t0) :=
  (pollInit_runs _ _).bind fun _ => (withinDeadline_runs _ _).bind fun _ => .ite (.pure _) (.pure _)

end

/-- What follows the sample that starts the deadline, as the transport side sees it: CMD8, the probe, the branch. -/
def branchTransport (t0 : Word) : Transport (Option CardClass) := do
  let r8 ← sendCommand (cmd 8) Config.cmd8Pattern
  if idleR1 r8 then classifySdv2 t0
  else do
    let r ← sendCommand (acmd 41) 0
    if okOrIdleR1 r then classifyLegacy (acmd 41) .sdv1 t0 else classifyLegacy (cmd 1) .mmc t0

theorem branchTransport_runs (t0 : Word) : Runs 500 t0 [t0] (branchTransport t0) :=
  (sendCommand_runs _ _).bind fun _ => .ite classifySdv2_runs
    ((sendCommand_runs _ _).bind fun _ => .ite (classifyLegacy_runs _ _) (classifyLegacy_runs _ _))

theorem classifyBranch_bus (t0 : Word) (s : State) : (classifyBranch t0 s).2.bus = (branchTransport t0 s.bus).2 := by
  simp only [classifyBranch, branchTransport, bind_apply, onBus_apply, State.withBus_bus, ite_run]
  generalize sendCommand (cmd 8) Config.cmd8Pattern s.bus = p
  cases idleR1 p.1 with
  | true => rfl
  | false =>
    simp only [Bool.false_eq_true, if_false]
    generalize sendCommand (acmd 41) 0 p.2 = q
    cases okOrIdleR1 q.1 <;> rfl

theorem classifyIdle_bus (s : State) : (classifyIdle s).2.bus =
    ((do let t0 ← startWait; under t0 (branchTransport t0) : Transport (Option CardClass)) s.bus).2 := by
  simp only [classifyIdle, bind_apply, onBus_apply, underDeadline_apply, State.withDeadlines_bus, classifyBranch_bus,
    under_apply]
  rfl

end Sys2Proof.Machine
end

