-- ==== Sys2Proof/Laws/Outcomes.lean ====
section
/-! SUPPORT. Whatever the bus answers, the shared operations end, and what they did is one of their conversations:
`Went m b k x l c` says that from `b` procedure `m` answered `x` and left `c`, the history grown by the events of `k`
and the chip-select line at `l`.  That a wait ends is `pastDeadline_tickPast` (log 2). -/

namespace Sys2Proof.Machine

structure Went {α : Type} (m : Transport α) (b : Bus) (k : Talk) (x : α) (l : CsLevel) (c : Bus) : Prop where
  run : m b = (x, c)
  trace : c.trace = k.events.reverse ++ b.trace
  cs : c.cs = l

theorem Went.bind {α β : Type} {m : Transport α} {f : α → Transport β} {b c d : Bus} {k k' : Talk} {x : α} {y : β}
    {l l' : CsLevel} (hm : Went m b k x l c) (hf : Went (f x) c k' y l' d) :
    Went (m >>= f) b (k.append k') y l' d where
  run := by rw [bind_apply, hm.run, hf.run]
  trace := by rw [hf.trace, hm.trace]; simp [Talk.append]
  cs := hf.cs

theorem Went.pure {α : Type} (x : α) (b : Bus) : Went (pure x) b (Talk.join []) x b.cs b :=
  ⟨rfl, rfl, rfl⟩

theorem Went.history {α : Type} {m : Transport α} {b c : Bus} {k : Talk} {x : α} {l : CsLevel}
    (h : Went m b k x l c) : c.history = b.history ++ k.events := by
  simp [Bus.history, h.trace]

/-- A last procedure without a conversation of its own. -/
theorem Went.andThen {α β : Type} {m : Transport α} {f : α → Transport β} {b c d : Bus} {k : Talk} {x : α} {y : β}
    {l l' : CsLevel} (hm : Went m b k x l c) (hf : Went (f x) c (Talk.join []) y l' d) : Went (m >>= f) b k y l' d := by
  have h := hm.bind hf
  rwa [Talk.append_nil] at h

theorem Went.congr {α : Type} {m : Transport α} {b c : Bus} {k k' : Talk} {x : α} {l l' : CsLevel}
    (h : Went m b k x l c) (hk : k = k') (hl : l = l') : Went m b k' x l' c :=
  hk ▸ hl ▸ h

theorem Went.iteTrue {α : Type} {p : Prop} [Decidable p] {m n : Transport α} {b c : Bus} {k : Talk} {x : α}
    {l : CsLevel} (h : p) (hm : Went m b k x l c) : Went (if p then m else n) b k x l c := by
  rwa [if_pos h]

theorem Went.iteFalse {α : Type} {p : Prop} [Decidable p] {m n : Transport α} {b c : Bus} {k : Talk} {x : α}
    {l : CsLevel} (h : ¬p) (hn : Went n b k x l c) : Went (if p then m else n) b k x l c := by
  rwa [if_neg h]

/-- A loop under its deadline, its fuel the bound of its wait. -/
theorem Went.waiting {α : Type} {m : Nat → Transport α} {b c : Bus} {k : Talk} {x : α} {l : CsLevel} (t0 : Word)
    (h : Went (m (pollBound b)) (b.withDeadlines (t0 :: b.deadlines)) k x l c) :
    Went (under t0 fun b => m (pollBound b) b) b k x l (c.withDeadlines b.deadlines) where
  run := by
    show ((m (pollBound b) (b.withDeadlines (t0 :: b.deadlines))).1,
      (m (pollBound b) (b.withDeadlines (t0 :: b.deadlines))).2.withDeadlines b.deadlines) = _
    rw [h.run]
  trace := h.trace
  cs := h.cs

/-! ## Primitives -/

theorem xchg_went (o : Byte) (b : Bus) : ∃ i c, Went (xchg o) b (sendTalk [o] [i]) i b.cs c := by
  unfold xchg
  cases h : b.rx with
  | nil =>
    exact ⟨Config.freeByte b.draws, { b with draws := b.draws + 1, trace := .xchg o (Config.freeByte b.draws) :: b.trace },
      by simp only [h], rfl, rfl⟩
  | cons i rest => exact ⟨i, { b with rx := rest, trace := .xchg o i :: b.trace }, by simp only [h], rfl, rfl⟩

theorem fill_went (b : Bus) : ∃ i c, Went (xchg Config.fillByte) b (fillTalk [i]) i b.cs c :=
  xchg_went Config.fillByte b

theorem now_went (b : Bus) : ∃ v c, Went now b (nowTalk v) v b.cs c := by
  unfold now
  cases h : b.ticks with
  | nil =>
    exact ⟨b.freeSample, { b with draws := b.draws + 1 }.shown b.freeSample,
      by simp only [h], rfl, rfl⟩
  | cons v rest => exact ⟨v, { b with ticks := rest }.shown v, by simp only [h], rfl, rfl⟩

theorem setScratch_went (f : Scratch → Scratch) (b : Bus) :
    Went (setScratch f) b (Talk.join []) () b.cs (b.withScratch f) :=
  ⟨rfl, rfl, rfl⟩

theorem startWait_went (b : Bus) : ∃ v c, Went startWait b (nowTalk v) v b.cs c := by
  obtain ⟨v, c, h⟩ := now_went b
  exact ⟨v, _, h.andThen (((setScratch_went _ _).andThen (.pure v _)).congr rfl h.cs)⟩

theorem expired_went (t0 : Word) (T : Nat) (b : Bus) :
    ∃ v c, Went (expired t0 T) b (nowTalk v) (pastDeadline t0 T v) b.cs c := by
  obtain ⟨v, c, h⟩ := now_went b
  exact ⟨v, _, h.andThen ((Went.pure _ _).congr rfl h.cs)⟩

/-- The sample of a fair tick that has passed the deadline. -/
theorem lastSample_went (t0 : Word) (T : Nat) (b : Bus) (hT : T < 2 ^ 32) :
    ∃ v c, pastDeadline t0 T v = true ∧ Went (lastSample t0 T) b (nowTalk v) () b.cs c :=
  ⟨_, _, pastDeadline_tickPast t0 T b.deadlines b.tick (Config.freeAdvance b.draws).toNat hT, rfl, rfl, rfl⟩

theorem burstRead_went (n : Nat) (b : Bus) :
    ∃ data c, data.length = n ∧ Went (burstRead n) b (fillTalk data) data b.cs c := by
  induction n generalizing b with
  | zero => exact ⟨[], b, rfl, .pure _ _⟩
  | succ n ih =>
    obtain ⟨i, c, h⟩ := fill_went b
    obtain ⟨data, d, hl, h'⟩ := ih c
    exact ⟨i :: data, d, by simp [hl], (h.bind (h'.andThen (.pure (i :: data) d))).congr rfl (h'.cs.trans h.cs)⟩

theorem fillBytes_went (n : Nat) (b : Bus) :
    ∃ data c, data.length = n ∧ Went (fillBytes n) b (fillTalk data) () b.cs c := by
  induction n generalizing b with
  | zero => exact ⟨[], b, rfl, .pure _ _⟩
  | succ n ih =>
    obtain ⟨i, c, h⟩ := fill_went b
    obtain ⟨data, d, hl, h'⟩ := ih c
    exact ⟨i :: data, d, by simp [hl], (h.bind h').congr rfl h.cs⟩

theorem burstWrite_went (out : List Byte) (b : Bus) :
    ∃ arrived c, arrived.length = out.length ∧ Went (burstWrite out) b (sendTalk out arrived) () b.cs c := by
  induction out generalizing b with
  | nil => exact ⟨[], b, rfl, .pure _ _⟩
  | cons o out ih =>
    obtain ⟨i, c, h⟩ := xchg_went o b
    obtain ⟨arrived, d, hl, h'⟩ := ih c
    exact ⟨i :: arrived, d, by simp [hl], (h.bind h').congr rfl h.cs⟩

theorem deselect_went (b : Bus) : ∃ x c, Went deselect b (deselectTalk x) () .high c := by
  obtain ⟨x, c, h⟩ := fill_went ((b.heard (lineTalk (.cs .high))).withCs .high)
  have hl : Went (setCS .high) b (lineTalk (.cs .high)) () .high ((b.heard (lineTalk (.cs .high))).withCs .high) :=
    ⟨rfl, rfl, rfl⟩
  exact ⟨x, c, hl.bind ((h.andThen ((Went.pure () c).congr rfl h.cs)).congr (Talk.append_nil _).symm rfl)⟩

/-! ## Waits -/

theorem readyLoop_went (t0 : Word) (T n : Nat) (b : Bus) (hT : T < 2 ^ 32) :
    (∃ busy c, (busy.all fun p => p.1 != Config.idleByte && !pastDeadline t0 T p.2) = true
      ∧ Went (readyLoop t0 T n) b ((pollsTalk busy).append (fillTalk [Config.idleByte])) true b.cs c)
    ∨ ∃ busy d v c, (busy.all fun p => p.1 != Config.idleByte && !pastDeadline t0 T p.2) = true
      ∧ d ≠ Config.idleByte ∧ pastDeadline t0 T v = true
      ∧ Went (readyLoop t0 T n) b (pollsTalk (busy ++ [(d, v)])) false b.cs c := by
  induction n generalizing b with
  | zero =>
    obtain ⟨i, c, h⟩ := fill_went b
    by_cases hi : i = Config.idleByte
    · subst hi
      exact .inl ⟨[], c, rfl, h.andThen (.iteTrue rfl ((Went.pure true c).congr rfl h.cs))⟩
    · obtain ⟨v, d, hv, h'⟩ := lastSample_went t0 T c hT
      exact .inr ⟨[], i, v, d, rfl, hi, hv,
        (h.bind (.iteFalse hi (h'.andThen (.pure false d)))).congr rfl (h'.cs.trans h.cs)⟩
  | succ n ih =>
    obtain ⟨i, c, h⟩ := fill_went b
    by_cases hi : i = Config.idleByte
    · subst hi
      exact .inl ⟨[], c, rfl, h.andThen (.iteTrue rfl ((Went.pure true c).congr rfl h.cs))⟩
    · obtain ⟨v, d, h'⟩ := expired_went t0 T c
      cases hv : pastDeadline t0 T v with
      | true =>
        exact .inr ⟨[], i, v, d, rfl, hi, hv,
          (h.bind (.iteFalse hi (h'.andThen (.iteTrue hv (.pure false d))))).congr rfl (h'.cs.trans h.cs)⟩
      | false =>
        have hp : (i != Config.idleByte && !pastDeadline t0 T v) = true := by simp [hi, hv]
        obtain ⟨busy, e, hb, h''⟩ | ⟨busy, x, w, e, hb, hx, hw, h''⟩ := ih d
        · refine .inl ⟨(i, v) :: busy, e, by simp [hp, hb], ?_⟩
          refine Went.congr (h.bind (.iteFalse hi (h'.bind (.iteFalse (by simp [hv]) h'')))) ?_ (h'.cs.trans h.cs)
          simp [pollsTalk_cons, Talk.append_assoc]
        · refine .inr ⟨(i, v) :: busy, x, w, e, by simp [hp, hb], hx, hw, ?_⟩
          refine Went.congr (h.bind (.iteFalse hi (h'.bind (.iteFalse (by simp [hv]) h'')))) ?_ (h'.cs.trans h.cs)
          simp [pollsTalk_cons, Talk.append_assoc]

/-- R139, whatever the bus and the tick say. -/
theorem waitReady_went (T : Nat) (hT : T < 2 ^ 32) (b : Bus) :
    ∃ (w : Wait) (c : Bus), w.valid T = true ∧ Went (waitReady T) b w.talk w.ok b.cs c := by
  obtain ⟨t0, c, h⟩ := startWait_went b
  obtain ⟨busy, d, hb, h'⟩ | ⟨busy, x, v, d, hb, hx, hv, h'⟩ := readyLoop_went t0 T (pollBound c)
      (c.withDeadlines (t0 :: c.deadlines)) hT
  · refine ⟨.ready ⟨t0, busy⟩, d.withDeadlines c.deadlines, hb, ?_⟩
    refine (h.bind (Went.waiting t0 h')).congr ?_ h.cs
    simp [Wait.talk, ReadyWait.talk, Talk.join_cons]
  · refine ⟨.busy ⟨t0, busy, x, v⟩, d.withDeadlines c.deadlines, by
      simp only [Wait.valid, BusyWait.valid, hb]; simp [hx, hv], ?_⟩
    refine (h.bind (Went.waiting t0 h')).congr ?_ h.cs
    simp [Wait.talk, BusyWait.talk, Talk.join_cons]

/-! ## Commands -/

theorem pollLoop_went (n : Nat) (b : Bus) : ∃ polled c, polled ≠ [] ∧ polled.length ≤ n + 1
    ∧ (polled.dropLast.all fun x => !validR1 x) = true
    ∧ (validR1 (polled.getLastD 0) || polled.length == n + 1) = true
    ∧ Went (pollLoop n) b (fillTalk polled) (polled.getLastD 0) b.cs c := by
  have hnote : ∀ (r : Byte) (k : Nat) (c : Bus), Went (do setScratch (.noteR1 r k); pure r) c (Talk.join []) r c.cs
      (c.withScratch (.noteR1 r k)) :=
    fun r k c => (setScratch_went _ c).andThen (.pure r _)
  induction n generalizing b with
  | zero =>
    obtain ⟨i, c, h⟩ := fill_went b
    exact ⟨[i], _, by simp, by simp, by simp, by simp, h.andThen ((hnote i 0 c).congr rfl h.cs)⟩
  | succ n ih =>
    obtain ⟨i, c, h⟩ := fill_went b
    cases hv : validR1 i with
    | true =>
      exact ⟨[i], _, by simp, by simp, by simp, by simp [hv],
        h.andThen (.iteTrue hv ((hnote i (n + 1) c).congr rfl h.cs))⟩
    | false =>
      obtain ⟨polled, d, h0, hn, hs, hl, h'⟩ := ih c
      obtain ⟨x, xs, rfl⟩ := List.exists_cons_of_ne_nil h0
      refine ⟨i :: x :: xs, d, by simp, by simp at hn ⊢; omega, by simpa [hv] using hs, by simpa using hl, ?_⟩
      exact (h.bind (.iteFalse (by simp [hv]) h')).congr rfl h.cs

theorem stuffByte_went (index : CmdIndex) (b : Bus) :
    ∃ x c, Went (stuffByte index) b (fillTalk (if index = 12 then [x] else [])) () b.cs c := by
  by_cases hi : index = 12
  · obtain ⟨data, c, hl, h⟩ := fillBytes_went 1 b
    obtain ⟨x, rfl⟩ := List.length_eq_one_iff.1 hl
    exact ⟨x, c, .iteTrue hi (h.congr (by simp [hi]) rfl)⟩
  · exact ⟨0, b, .iteFalse hi ((Went.pure () b).congr (by rw [if_neg hi]; rfl) rfl)⟩

/-- R151, steps 2 to 5. -/
theorem sendPlain_went (index : CmdIndex) (arg : Word) (b : Bus) :
    ∃ (p : Transaction) (c : Bus), p.valid = true ∧ Went (sendPlain index arg) b (p.talk index arg) p.resp p.level c := by
  obtain ⟨x, c, hd⟩ := deselect_went b
  have hlow : Went (setCS .low) c (lineTalk (.cs .low)) () .low ((c.heard (lineTalk (.cs .low))).withCs .low) :=
    ⟨rfl, rfl, rfl⟩
  obtain ⟨y, d, hy⟩ := fill_went ((c.heard (lineTalk (.cs .low))).withCs .low)
  obtain ⟨w, e, hw, hwent⟩ := waitReady_went Config.tReadyMs (by decide) d
  have hcs : e.cs = .low := hwent.cs.trans hy.cs
  cases w with
  | ready w =>
    have hsel : Went select c (selectTalk y w.talk) true .low e := by
      refine (hlow.bind (hy.bind (hwent.andThen (.iteTrue rfl (.pure true e))))).congr ?_ hcs
      simp [selectTalk, Talk.join_cons, Wait.talk]
    obtain ⟨onFrame, f, hf, hframe⟩ := burstWrite_went (frameBytes index arg) e
    obtain ⟨z, g, hstuff⟩ := stuffByte_went index f
    obtain ⟨polled, h, h0, hn, hs, hl, hpoll⟩ := pollLoop_went (Config.nR1Poll - 1) g
    refine ⟨.answered ⟨x, y, w, onFrame, z, polled⟩, h, ?_, ?_⟩
    · simp only [Transaction.valid, Answer.valid, Answer.resp, Bool.and_eq_true, beq_iff_eq, bne_iff_ne,
        decide_eq_true_eq]
      refine ⟨⟨⟨⟨⟨hw, by simp [hf]⟩, by simpa using h0⟩, hn⟩, hs⟩, hl⟩
    · refine (hd.bind (hsel.bind (.iteTrue rfl (hframe.bind (hstuff.bind hpoll))))).congr ?_
        (hstuff.cs.trans (hframe.cs.trans hcs))
      simp [Transaction.talk, Answer.talk, Answer.stuff, Talk.join_cons]
  | busy w =>
    obtain ⟨z, f, hz⟩ := deselect_went e
    have hsel : Went select c ((selectTalk y w.talk).append (deselectTalk z)) false .high f := by
      refine (hlow.bind (hy.bind (hwent.bind (.iteFalse (by simp [Wait.ok])
        (hz.andThen (.pure false f)))))).congr ?_ hz.cs
      simp [selectTalk, Talk.join_cons, Wait.talk, Talk.append_assoc]
    refine ⟨.unselected ⟨x, y, w, z⟩, f, hw, ?_⟩
    refine (hd.bind (hsel.andThen (.iteFalse (by simp) (.pure _ f)))).congr ?_ hz.cs
    simp [Transaction.talk, NoSelect.talk, Talk.join_cons]

/-- R150 to R157, whatever the bus answers. -/
theorem sendCommand_went (k : CommandCode) (arg : Word) (b : Bus) :
    ∃ (r : CommandRun) (c : Bus), r.valid k = true ∧ Went (sendCommand k arg) b (r.talk k arg) r.resp r.level c := by
  cases ha : k.app with
  | false =>
    obtain ⟨p, c, hp, h⟩ := sendPlain_went k.index arg b
    exact ⟨.plain p, c, by simp [CommandRun.valid, ha, hp], .iteFalse (by simp [ha]) h⟩
  | true =>
    obtain ⟨p, c, hp, h⟩ := sendPlain_went 55 0 b
    cases ho : okOrIdleR1 p.resp with
    | false =>
      refine ⟨.app p none, c, by simp [CommandRun.valid, ha, hp, ho], .iteTrue ha ?_⟩
      exact (h.andThen (.iteFalse (by simp [ho]) (.pure _ c))).congr (by simp [CommandRun.talk]) h.cs
    | true =>
      obtain ⟨q, d, hq, h'⟩ := sendPlain_went k.index arg c
      refine ⟨.app p (some q), d, by simp [CommandRun.valid, ha, hp, ho, hq], .iteTrue ha ?_⟩
      exact (h.bind (.iteTrue ho h')).congr (by simp [CommandRun.talk, Talk.join_cons]) rfl

/-! ## Packets -/

theorem tokenLoop_went (t0 : Word) (n : Nat) (b : Bus) :
    (∃ (idle : List Word) (tok : Byte) (c : Bus), (idle.all fun v => !pastDeadline t0 Config.tTokenMs v) = true ∧ tok ≠ Config.idleByte
      ∧ Went (tokenLoop t0 n) b ((pollsTalk (idle.map fun v => (Config.idleByte, v))).append (fillTalk [tok])) tok
        b.cs c)
    ∨ ∃ (idle : List Word) (v : Word) (c : Bus), (idle.all fun v => !pastDeadline t0 Config.tTokenMs v) = true
      ∧ pastDeadline t0 Config.tTokenMs v = true
      ∧ Went (tokenLoop t0 n) b (pollsTalk ((idle ++ [v]).map fun v => (Config.idleByte, v))) Config.idleByte
        b.cs c := by
  induction n generalizing b with
  | zero =>
    obtain ⟨i, c, h⟩ := fill_went b
    by_cases hi : i = Config.idleByte
    · subst hi
      obtain ⟨v, d, hv, h'⟩ := lastSample_went t0 Config.tTokenMs c (by decide)
      exact .inr ⟨[], v, d, rfl, hv,
        Went.congr (k := (fillTalk [Config.idleByte]).append (nowTalk v))
          (h.bind (.iteTrue rfl (h'.andThen (.pure _ d)))) rfl (h'.cs.trans h.cs)⟩
    · exact .inl ⟨[], i, c, rfl, hi, h.andThen (.iteFalse hi ((Went.pure i c).congr rfl h.cs))⟩
  | succ n ih =>
    obtain ⟨i, c, h⟩ := fill_went b
    by_cases hi : i = Config.idleByte
    · subst hi
      obtain ⟨v, d, h'⟩ := expired_went t0 Config.tTokenMs c
      cases hv : pastDeadline t0 Config.tTokenMs v with
      | true =>
        exact .inr ⟨[], v, d, rfl, hv,
          Went.congr (k := (fillTalk [Config.idleByte]).append (nowTalk v))
            (h.bind (.iteTrue rfl (h'.andThen (.iteTrue hv (.pure _ d))))) rfl (h'.cs.trans h.cs)⟩
      | false =>
        obtain ⟨idle, tok, e, hb, ht, h''⟩ | ⟨idle, w, e, hb, hw, h''⟩ := ih d
        · refine .inl ⟨v :: idle, tok, e, by simp [hb, hv], ht, ?_⟩
          refine Went.congr (h.bind (.iteTrue rfl (h'.bind (.iteFalse (by simp [hv]) h'')))) ?_ (h'.cs.trans h.cs)
          simp [pollsTalk_cons, Talk.append_assoc]
        · refine .inr ⟨v :: idle, w, e, by simp [hb, hv], hw, ?_⟩
          refine Went.congr (h.bind (.iteTrue rfl (h'.bind (.iteFalse (by simp [hv]) h'')))) ?_ (h'.cs.trans h.cs)
          simp [pollsTalk_cons, Talk.append_assoc]
    · exact .inl ⟨[], i, c, rfl, hi, h.andThen (.iteFalse hi ((Went.pure i c).congr rfl h.cs))⟩

/-- R190 to R192, whatever the bus answers. -/
theorem receiveBlock_went (len : Nat) (b : Bus) :
    ∃ (r : Reception) (c : Bus), r.valid len = true ∧ Went (receiveBlock len) b r.talk r.data b.cs c := by
  obtain ⟨t0, c, h⟩ := startWait_went b
  have hawait : ∀ {k : Talk} {tok : Byte} {d : Bus},
      Went (tokenLoop t0 (pollBound c)) (c.withDeadlines (t0 :: c.deadlines)) k tok c.cs d →
      Went awaitToken b ((nowTalk t0).append k) tok b.cs
        ((d.withDeadlines c.deadlines).withScratch (.noteTok tok)) := by
    intro k tok d h'
    refine (h.bind ((Went.waiting t0 h').andThen
      ((setScratch_went (.noteTok tok) _).andThen (.pure tok _)))).congr rfl (h'.cs.trans h.cs)
  obtain ⟨idle, tok, d, hb, ht, h'⟩ | ⟨idle, v, d, hb, hv, h'⟩ := tokenLoop_went t0 (pollBound c)
    (c.withDeadlines (t0 :: c.deadlines))
  · by_cases hs : tok = Config.tokenStart
    · subst hs
      obtain ⟨data, e, hl, hdata⟩ := burstRead_went len
        ((d.withDeadlines c.deadlines).withScratch (.noteTok Config.tokenStart))
      obtain ⟨chk, f, hc, hchk⟩ := fillBytes_went 2 e
      obtain ⟨u, v, rfl⟩ := List.length_eq_two.1 hc
      refine ⟨.packet ⟨t0, idle, data, u, v⟩, f, by simp only [Reception.valid, Packet.valid, hb]; simp [hl], ?_⟩
      refine ((hawait h').bind (.iteTrue rfl (hdata.bind (hchk.andThen (.pure (some data) f))))).congr ?_
        (hchk.cs.trans (hdata.cs.trans (h'.cs.trans h.cs)))
      simp [Reception.talk, Packet.talk, tokenTalk, Talk.join_cons, Talk.append_assoc]
    · refine ⟨.badToken ⟨t0, idle, tok⟩, (d.withDeadlines c.deadlines).withScratch (.noteTok tok), by
        simp only [Reception.valid, BadToken.valid, hb]; simp [ht, hs], ?_⟩
      refine ((hawait h').andThen (.iteFalse hs (.pure _ _))).congr ?_ (h'.cs.trans h.cs)
      simp [Reception.talk, BadToken.talk, tokenTalk, Talk.join_cons, Talk.append_assoc]
  · refine ⟨.noToken ⟨t0, idle, v⟩, (d.withDeadlines c.deadlines).withScratch (.noteTok Config.idleByte), by
      simp only [Reception.valid, NoToken.valid, hb]; simp [hv], ?_⟩
    refine ((hawait h').andThen (.iteFalse (by decide) (.pure _ _))).congr ?_ (h'.cs.trans h.cs)
    simp [Reception.talk, NoToken.talk, tokenTalk, Talk.join_cons]

/-- R193, R194, whatever the bus answers. -/
theorem transmitBlock_went (data : List Byte) (token : Byte) (b : Bus) (hd : data.length = Config.sectorSize)
    (ht : token ≠ Config.tokenStop) :
    ∃ (r : Transmission) (c : Bus), r.valid = true ∧ Went (transmitBlock data token) b (r.talk token data) r.ok b.cs c := by
  obtain ⟨w, c, hw, h⟩ := waitReady_went Config.tReadyMs (by decide) b
  cases w with
  | busy w => exact ⟨.busy w, c, hw, h.andThen (.iteFalse (by simp [Wait.ok]) ((Went.pure _ c).congr rfl h.cs))⟩
  | ready w =>
    obtain ⟨x, d, hx⟩ := xchg_went token c
    obtain ⟨onData, e, hl, hdata⟩ := burstWrite_went data d
    obtain ⟨chk, f, hc, hchk⟩ := fillBytes_went 2 e
    obtain ⟨u, v, rfl⟩ := List.length_eq_two.1 hc
    obtain ⟨resp, g, hr⟩ := fill_went f
    refine ⟨.sent ⟨w, x, onData, u, v, resp⟩, g.withScratch (.noteResp resp), ?_, ?_⟩
    · simp only [Transmission.valid, Sent.valid, Bool.and_eq_true, beq_iff_eq]
      exact ⟨hw, hl.trans hd⟩
    · refine (h.bind (.iteTrue rfl (hx.bind (.iteFalse ht (hdata.bind (hchk.bind (hr.andThen
        ((setScratch_went (.noteResp resp) g).andThen (.pure (dataAccepted resp) _))))))))).congr ?_
        (hr.cs.trans (hchk.cs.trans (hdata.cs.trans (hx.cs.trans h.cs))))
      simp [Transmission.talk, Sent.talk, Talk.join_cons, Wait.talk]

/-- R195, R258, whatever the bus answers. -/
theorem sendStop_went (b : Bus) :
    ∃ (r : StopRun) (c : Bus), r.valid = true ∧ Went sendStop b r.talk r.ok b.cs c := by
  obtain ⟨w, c, hw, h⟩ := waitReady_went Config.tReadyMs (by decide) b
  cases w with
  | busy w => exact ⟨.busy w, c, hw, h.andThen (.iteFalse (by simp [Wait.ok]) ((Went.pure _ c).congr rfl h.cs))⟩
  | ready w =>
    obtain ⟨x, d, hx⟩ := xchg_went Config.tokenStop c
    refine ⟨.stopped ⟨w, x⟩, d, hw, ?_⟩
    refine (h.bind (.iteTrue rfl (hx.andThen (.iteTrue rfl (.pure _ d))))).congr ?_ (hx.cs.trans h.cs)
    simp [StopRun.talk, Stopped.talk, Talk.join_cons, Wait.talk]

/-! ## The block loops -/

theorem receiveTo_went (dst len : Nat) (s : State) : ∃ (r : Reception) (t : State), r.valid len = true ∧
    receiveTo dst len s = (r.data.isSome, t) ∧ t.mem = (r.data.map (s.mem.writeBytes dst)).getD s.mem ∧ t.bus.trace =
        r.talk.events.reverse ++ s.bus.trace := by
  obtain ⟨r, c, hr, h⟩ := receiveBlock_went len s.bus
  cases hd : r.data with
  | none =>
    rw [hd] at h
    exact ⟨r, s.withBus c, hr, by simp [receiveTo, h.run, hd], by simp [hd], h.trace⟩
  | some data =>
    rw [hd] at h
    exact ⟨r, { s.withBus c with mem := s.mem.writeBytes dst data }, hr, by simp [receiveTo, h.run, hd, bufWrite], by
        simp [hd], h.trace⟩

theorem BlocksFit.single {α : Type} {ok : α → Bool} {count : Nat} {x : α} (h : ok x = false ∨ count = 0) : BlocksFit
    ok (count + 1) [x] := by
  refine ⟨by simp, by simp, ?_⟩
  obtain h | h := h <;> simp [h]

theorem BlocksFit.more {α : Type} {ok : α → Bool} {count : Nat} {x : α}
    {xs : List α} (h : ok x = true) (hx : BlocksFit ok count xs) : BlocksFit ok (count + 1) (x :: xs) := by
  have h0 := hx.ne_nil
  obtain ⟨y, ys, rfl⟩ := List.exists_cons_of_ne_nil h0
  obtain ⟨a, b, c⟩ := hx
  refine ⟨by simp at a ⊢; omega, by simpa [h] using b, by simpa using c⟩

theorem readBlocks_went (base count off : Nat) (s : State) (hm : s.mem.wf = true) (hc : count ≠ 0) :
    ∃ (blocks : List Reception) (t : State), blocks.all (Reception.valid Config.sectorSize) = true ∧ BlocksFit (fun x
        => x.data.isSome) count blocks ∧
      readBlocks base count off s = (count - (blocks.filterMap Reception.data).length, t) ∧
      t.mem = s.mem.writeBytes (base + off) (blocks.filterMap Reception.data).flatten ∧
      t.bus.trace = (Talk.join (blocks.map Reception.talk)).events.reverse ++ s.bus.trace := by
  induction count generalizing off s with
  | zero => exact absurd rfl hc
  | succ n ih =>
    obtain ⟨r, t, hr, h, hmem, htr⟩ := receiveTo_went (base + off) Config.sectorSize s
    cases hd : r.data with
    | none =>
      refine ⟨[r], t, by simp [hr], .single (.inl (by simp [hd])), ?_, ?_, ?_⟩
      · simp [readBlocks, h, hd]
      · simp [hmem, hd, Memory.writeBytes]
      · simp [htr]
    | some data =>
      rw [hd] at hmem h
      have hmem : t.mem = s.mem.writeBytes (base + off) data := hmem
      have hlen := r.data_length _ hr data hd
      by_cases h0 : n = 0
      · subst h0
        refine ⟨[r], (noteProgress 0 (off + Config.sectorSize) t).2, by simp [hr], .single (.inr rfl), ?_, ?_, ?_⟩
        · simp [readBlocks, h, hd]
        · simp [hmem, hd, noteProgress]
        · simp [htr, noteProgress]
      · have hw : (noteProgress n (off + Config.sectorSize) t).2.mem.wf = true := by
          show t.mem.wf = true
          rw [hmem]; exact Memory.writeBytes_wf _ _ _ hm
        obtain ⟨blocks, u, hv, hf, hrun, hm', ht'⟩ := ih (off + Config.sectorSize) (noteProgress n (off +
            Config.sectorSize) t).2 hw h0
        refine ⟨r :: blocks, u, by simp [hr, hv], .more (by simp [hd]) hf, ?_, ?_, ?_⟩
        · simp only [readBlocks, bind_apply, h, ite_run, Option.isSome_some, if_true, hrun]
          simp [hd]
        · rw [hm']
          show t.mem.writeBytes _ _ = _
          have e : base + (off + Config.sectorSize) = base + off + data.length := by omega
          rw [hmem, e, Memory.writeBytes_behind _ _ _ _ hm]
          simp [hd]
        · rw [ht']
          show _ ++ t.bus.trace = _
          rw [htr]
          simp [Talk.join_cons, Talk.append]

theorem data_flatten_length (blocks : List Reception) (hv : blocks.all (Reception.valid Config.sectorSize) = true) :
    (blocks.filterMap Reception.data).flatten.length = (blocks.filterMap Reception.data).length * 512 := by
  induction blocks with
  | nil => rfl
  | cons x xs ih =>
    simp only [List.all_cons, Bool.and_eq_true] at hv
    cases hd : x.data with
    | none => simp [hd, ih hv.2]
    | some data =>
      have := x.data_length _ hv.1 data hd
      simp only [Config.sectorSize] at this
      have h2 := ih hv.2
      simp [hd, this] at h2 ⊢
      omega

theorem transmitFrom_went (src : Nat) (token : Byte) (s : State) (ht : token ≠ Config.tokenStop) :
    ∃ (r : Transmission) (c : Bus), r.valid = true ∧ transmitFrom src token s = (r.ok, s.withBus c)
      ∧ c.trace = (r.talk token (s.mem.readBytes src Config.sectorSize)).events.reverse ++ s.bus.trace := by
  obtain ⟨r, c, hr, h⟩ := transmitBlock_went (s.mem.readBytes src Config.sectorSize) token s.bus (by simp) ht
  exact ⟨r, c, hr, by simp [transmitFrom, bufRead, h.run], h.trace⟩

/-- R257, whatever the bus answers. -/
theorem writeBlocks_went (base count off : Nat) (s : State) (hc : count ≠ 0) :
    ∃ (blocks : List Transmission) (c : Bus), blocks.all Transmission.valid = true
      ∧ BlocksFit Transmission.ok count blocks
      ∧ writeBlocks base count off s = (count - (blocks.filter Transmission.ok).length, s.withBus c)
      ∧ c.trace = (blocksTalk s.mem Config.tokenMulti (base + off) blocks).events.reverse ++ s.bus.trace := by
  induction count generalizing off s with
  | zero => exact absurd rfl hc
  | succ n ih =>
    obtain ⟨r, c, hr, h, htr⟩ := transmitFrom_went (base + off) Config.tokenMulti s (by decide)
    cases hd : r.ok with
    | false =>
      refine ⟨[r], c, by simp [hr], .single (.inl hd), ?_, ?_⟩
      · simp [writeBlocks, h, hd]
      · simp [htr, blocksTalk]
    | true =>
      by_cases h0 : n = 0
      · subst h0
        refine ⟨[r], (noteProgress 0 (off + Config.sectorSize) (s.withBus c)).2.bus, by simp [hr], .single (.inr rfl),
            ?_, ?_⟩
        · simp [writeBlocks, h, hd, noteProgress, State.withBus]
        · simp [htr, noteProgress, blocksTalk]
      · obtain ⟨blocks, d, hv, hf, hrun, ht'⟩ :=
          ih (off + Config.sectorSize) (noteProgress n (off + Config.sectorSize) (s.withBus c)).2 h0
        refine ⟨r :: blocks, d, by simp [hr, hv], .more hd hf, ?_, ?_⟩
        · simp only [writeBlocks, bind_apply, h, ite_run, hd, if_true, hrun]
          simp [hd, noteProgress, State.withBus]
        · rw [ht']
          show (blocksTalk s.mem _ _ _).events.reverse ++ c.trace = _
          rw [htr, ← Nat.add_assoc]
          simp [blocksTalk, Talk.append]

end Sys2Proof.Machine
end

