-- ==== Sys2Proof/Laws/PerInstr.lean ====
section
/-! SUPPORT. The family `EncodeShape`: how many bytes name each instruction, and what the first of them is. -/

namespace Sys2Proof.Laws.EncodeShape

open Sys2Proof Sys2Proof.Machine

/-- An instruction is named by one byte (R91, R103) or by a frame of six whose first two bits are 0, 1 (R94), a frame
exactly when it is a wire command. -/
def Statement (i : Instr) : Prop :=
  match commandOf i with
  | some (c, _) => (encode i).bytes.length = 6 ∧ (encode i).bytes.head? = some (frameHead c.index)
  | none => ∃ code : Byte, (encode i).bytes = [code] ∧ i.isHost = decide (code.toNat ≤ 0x0C)

theorem initializeCard (drv : Nat) : Statement (.initializeCard drv) := ⟨_, rfl, rfl⟩
theorem status (drv : Nat) : Statement (.status drv) := ⟨_, rfl, rfl⟩
theorem read (drv : Nat) (buf : HostBuf) (sector : Word) (count : Nat) : Statement (.read drv buf sector count) := ⟨_, rfl, rfl⟩
theorem write (drv : Nat) (buf : HostBuf) (sector : Word) (count : Nat) : Statement (.write drv buf sector count) := ⟨_, rfl, rfl⟩
theorem sync : Statement .sync := ⟨_, rfl, rfl⟩
theorem sectorCount : Statement .sectorCount := ⟨_, rfl, rfl⟩
theorem sectorSize : Statement .sectorSize := ⟨_, rfl, rfl⟩
theorem eraseBlockSectors : Statement .eraseBlockSectors := ⟨_, rfl, rfl⟩
theorem ioctlTrim (drv : Nat) (st ed : Word) : Statement (.ioctlTrim drv st ed) := ⟨_, rfl, rfl⟩
theorem ioctlGetCid (drv : Nat) : Statement (.ioctlGetCid drv) := ⟨_, rfl, rfl⟩
theorem ioctlGetOcr (drv : Nat) : Statement (.ioctlGetOcr drv) := ⟨_, rfl, rfl⟩
theorem ioctlGetSdStatus (drv : Nat) : Statement (.ioctlGetSdStatus drv) := ⟨_, rfl, rfl⟩
theorem ioctlGetCardClass (drv : Nat) : Statement (.ioctlGetCardClass drv) := ⟨_, rfl, rfl⟩
theorem tokStartData (use : TokenUse) : Statement (.tokStartData use) := ⟨_, rfl, rfl⟩
theorem tokMultiWrite (src : Nat) : Statement (.tokMultiWrite src) := ⟨_, rfl, rfl⟩
theorem tokStopTran : Statement .tokStopTran := ⟨_, rfl, rfl⟩
theorem cmd0 : Statement .cmd0 := ⟨rfl, rfl⟩
theorem cmd1 : Statement .cmd1 := ⟨rfl, rfl⟩
theorem cmd8 : Statement .cmd8 := ⟨rfl, rfl⟩
theorem cmd9 : Statement .cmd9 := ⟨rfl, rfl⟩
theorem cmd10 : Statement .cmd10 := ⟨rfl, rfl⟩
theorem cmd12 : Statement .cmd12 := ⟨rfl, rfl⟩
theorem acmd13 : Statement .acmd13 := ⟨rfl, rfl⟩
theorem cmd16 : Statement .cmd16 := ⟨rfl, rfl⟩
theorem cmd17 (arg : Word) : Statement (.cmd17 arg) := ⟨rfl, rfl⟩
theorem cmd18 (arg : Word) : Statement (.cmd18 arg) := ⟨rfl, rfl⟩
theorem acmd23 (arg : Word) : Statement (.acmd23 arg) := ⟨rfl, rfl⟩
theorem cmd24 (arg : Word) : Statement (.cmd24 arg) := ⟨rfl, rfl⟩
theorem cmd25 (arg : Word) : Statement (.cmd25 arg) := ⟨rfl, rfl⟩
theorem cmd32 (arg : Word) : Statement (.cmd32 arg) := ⟨rfl, rfl⟩
theorem cmd33 (arg : Word) : Statement (.cmd33 arg) := ⟨rfl, rfl⟩
theorem cmd38 : Statement .cmd38 := ⟨rfl, rfl⟩
theorem acmd41 (arg : Word) : Statement (.acmd41 arg) := ⟨rfl, rfl⟩
theorem cmd55 : Statement .cmd55 := ⟨rfl, rfl⟩
theorem cmd58 : Statement .cmd58 := ⟨rfl, rfl⟩

end Sys2Proof.Laws.EncodeShape
end

