-- ==== Sys2Proof/Tests/Slice0.lean ====
section
/-! SUPPORT. The model's own tests: words written out from spec/30_encoding.md, single steps from the vectors of
spec/95_test_vectors.md (a vector's answers are its inputs), and for each statement with hypotheses a state and
operands that meet them all. -/

namespace Sys2Proof.Tests

-- one theorem after another: each kernel evaluation would otherwise hold a thread of its own until those before it end
set_option Elab.async false

open Sys2Proof Sys2Proof.Machine

/-! ## Helpers -/

/-- The next state, when there is one. -/
def after (o : Host.Outcome State Fault Refusal) : Option State :=
  match o with
  | .next s => some s
  | .fault _ => none
  | .refused _ => none

/-- The refusal, when there is one. -/
def refusal (o : Host.Outcome State Fault Refusal) : Option Refusal :=
  match o with
  | .next _ => none
  | .fault _ => none
  | .refused r => some r

/-- The fault, when there is one. -/
def stopped (o : Host.Outcome State Fault Refusal) : Option Fault :=
  match o with
  | .next _ => none
  | .fault r => some r
  | .refused _ => none

theorem exists_of_after {o : Host.Outcome State Fault Refusal} (h : (after o).isSome = true) : ∃ t, o = .next t := by
  cases o with
  | next s => exact ⟨s, rfl⟩
  | fault r => cases h
  | refused r => cases h

/-- The reply of an instruction run at `s`. -/
def replyOf (i : Instr) (s : State) : Option Reply :=
  (after (exec i s)).bind (·.reply)

/-- The history of an instruction run at `s`. -/
def historyOf (i : Instr) (s : State) : Option (List Event) :=
  (after (exec i s)).map (·.bus.history)

/-- The bytes an instruction run at `s` sends. -/
def sentBy (i : Instr) (s : State) : List Byte :=
  ((historyOf i s).getD []).filterMap Event.sent

/-- A drive as after a successful `initialize`, the bus answering `rx` and the tick `ticks`. -/
def ready (k : CardClass) (rx : List Byte) (ticks : List Word) : State where
  status := ⟨false, false, false⟩
  cardClass := some k
  sectorCount := 15523840
  eraseBlockSectors := 8192
  busy := false
  phase := .ready
  bus := { cs := .high, pwr := .on, clk := .fast, trace := [], rx := rx, ticks := ticks, tick := 0
           deadlines := [], draws := 0, scratch := {} }
  mem := []
  reply := none
  inputs := []
  powerOnWaitMs := 0
  resultCodes := {}

/-- A drive that was never initialized. -/
def fresh (rx : List Byte) (ticks : List Word) : State where
  status := ⟨true, false, false⟩
  cardClass := none
  sectorCount := 0
  eraseBlockSectors := 0
  busy := false
  phase := .poweredOff
  bus := { cs := .low, pwr := .off, clk := .fast, trace := [], rx := rx, ticks := ticks, tick := 0
           deadlines := [], draws := 0, scratch := {} }
  mem := []
  reply := none
  inputs := []
  powerOnWaitMs := 0
  resultCodes := {}

/-- The block-addressed card of programs P4 to P8. -/
abbrev blockCard : CardClass := .sdv2 .blockAddressed

/-! A wait reads off first how many tick samples are in store (`pollBound`), so that the stores below end with a sample
or two more than a vector has: those are never taken. -/

/-- What arrives in a plain transaction of a ready card that answers `r1` on the second polled byte (V-F3). -/
def answered (r1 : Byte) : List Byte :=
  List.replicate 10 0xFF ++ [r1]

/-! ## Well-formedness -/

theorem test_acmd41_other_argument_refused : (Instr.acmd41 1).wellFormed = false := by decide
theorem test_acmd41_both_arguments_accepted :
    (Instr.acmd41 0).wellFormed = true ∧ (Instr.acmd41 0x40000000).wellFormed = true := by decide

/-! ## Decoding -/

/-- R91: the thirteen ordinals. -/
theorem test_decode_host :
    decode ⟨.host, [0x00], { drv := 0 }⟩ = .ok (.initializeCard 0)
      ∧ decode ⟨.host, [0x01], { drv := 1 }⟩ = .ok (.status 1)
      ∧ decode ⟨.host, [0x02], { buf := ⟨4096, 512⟩, sector := 7, count := 1 }⟩ = .ok (.read 0 ⟨4096, 512⟩ 7 1)
      ∧ decode ⟨.host, [0x03], { buf := ⟨8, 1024⟩, sector := 9, count := 2 }⟩ = .ok (.write 0 ⟨8, 1024⟩ 9 2)
      ∧ decode ⟨.host, [0x04], {}⟩ = .ok .sync
      ∧ decode ⟨.host, [0x05], {}⟩ = .ok .sectorCount
      ∧ decode ⟨.host, [0x06], {}⟩ = .ok .sectorSize
      ∧ decode ⟨.host, [0x07], {}⟩ = .ok .eraseBlockSectors
      ∧ decode ⟨.host, [0x08], { sector := 16, endSector := 31 }⟩ = .ok (.ioctlTrim 0 16 31)
      ∧ decode ⟨.host, [0x09], {}⟩ = .ok (.ioctlGetCid 0)
      ∧ decode ⟨.host, [0x0A], {}⟩ = .ok (.ioctlGetOcr 0)
      ∧ decode ⟨.host, [0x0B], {}⟩ = .ok (.ioctlGetSdStatus 0)
      ∧ decode ⟨.host, [0x0C], {}⟩ = .ok (.ioctlGetCardClass 0) := by decide

/-- V-F1: every frame the engine can emit. -/
theorem test_decode_frames :
    decode ⟨.wire, [0x40, 0x00, 0x00, 0x00, 0x00, 0x95], {}⟩ = .ok .cmd0
      ∧ decode ⟨.wire, [0x41, 0x00, 0x00, 0x00, 0x00, 0x01], {}⟩ = .ok .cmd1
      ∧ decode ⟨.wire, [0x48, 0x00, 0x00, 0x01, 0xAA, 0x87], {}⟩ = .ok .cmd8
      ∧ decode ⟨.wire, [0x49, 0x00, 0x00, 0x00, 0x00, 0x01], {}⟩ = .ok .cmd9
      ∧ decode ⟨.wire, [0x4A, 0x00, 0x00, 0x00, 0x00, 0x01], {}⟩ = .ok .cmd10
      ∧ decode ⟨.wire, [0x4C, 0x00, 0x00, 0x00, 0x00, 0x01], {}⟩ = .ok .cmd12
      ∧ decode ⟨.wire, [0x4D, 0x00, 0x00, 0x00, 0x00, 0x01], {}⟩ = .ok .acmd13
      ∧ decode ⟨.wire, [0x50, 0x00, 0x00, 0x02, 0x00, 0x01], {}⟩ = .ok .cmd16
      ∧ decode ⟨.wire, [0x51, 0x00, 0x00, 0x0A, 0x00, 0x01], {}⟩ = .ok (.cmd17 0x00000A00)
      ∧ decode ⟨.wire, [0x52, 0x00, 0x01, 0x23, 0x45, 0x01], {}⟩ = .ok (.cmd18 0x00012345)
      ∧ decode ⟨.wire, [0x57, 0x00, 0x00, 0x00, 0x05, 0x01], {}⟩ = .ok (.acmd23 5)
      ∧ decode ⟨.wire, [0x58, 0xFF, 0xFF, 0xFE, 0x00, 0x01], {}⟩ = .ok (.cmd24 0xFFFFFE00)
      ∧ decode ⟨.wire, [0x59, 0x00, 0x00, 0x00, 0x64, 0x01], {}⟩ = .ok (.cmd25 100)
      ∧ decode ⟨.wire, [0x60, 0x00, 0x00, 0x00, 0x10, 0x01], {}⟩ = .ok (.cmd32 16)
      ∧ decode ⟨.wire, [0x61, 0x00, 0x00, 0x00, 0x1F, 0x01], {}⟩ = .ok (.cmd33 31)
      ∧ decode ⟨.wire, [0x66, 0x00, 0x00, 0x00, 0x00, 0x01], {}⟩ = .ok .cmd38
      ∧ decode ⟨.wire, [0x69, 0x40, 0x00, 0x00, 0x00, 0x01], {}⟩ = .ok (.acmd41 0x40000000)
      ∧ decode ⟨.wire, [0x69, 0x00, 0x00, 0x00, 0x00, 0x01], {}⟩ = .ok (.acmd41 0)
      ∧ decode ⟨.wire, [0x77, 0x00, 0x00, 0x00, 0x00, 0x01], {}⟩ = .ok .cmd55
      ∧ decode ⟨.wire, [0x7A, 0x00, 0x00, 0x00, 0x00, 0x01], {}⟩ = .ok .cmd58 := by decide

/-- R103: the three tokens. -/
theorem test_decode_tokens :
    decode ⟨.wire, [0xFE], { use := .receive 64 16 }⟩ = .ok (.tokStartData (.receive 64 16))
      ∧ decode ⟨.wire, [0xFC], { buf := ⟨64, 512⟩ }⟩ = .ok (.tokMultiWrite 64)
      ∧ decode ⟨.wire, [0xFD], {}⟩ = .ok .tokStopTran := by decide

/-- What is rejected, each by name: the reasons of `DecodeError`. -/
theorem test_decode_rejects :
    decode ⟨.host, [], {}⟩ = .error .empty
      ∧ decode ⟨.wire, [], {}⟩ = .error .empty
      ∧ decode ⟨.host, [0x00, 0x00], {}⟩ = .error .badLength
      ∧ decode ⟨.wire, [0x40, 0x00], {}⟩ = .error .badLength
      ∧ decode ⟨.host, [0x0D], {}⟩ = .error (.unknownCode 0x0D)
      ∧ decode ⟨.host, [0xFE], {}⟩ = .error (.unknownCode 0xFE)
      ∧ decode ⟨.wire, [0x07], {}⟩ = .error (.notAToken 0x07)
      ∧ decode ⟨.wire, [0xC0, 0x00, 0x00, 0x00, 0x00, 0x95], {}⟩ = .error .notAFrame
      ∧ decode ⟨.wire, [0x42, 0x00, 0x00, 0x00, 0x00, 0x01], {}⟩ = .error (.unlistedCommand 2)
      ∧ decode ⟨.wire, [0x40, 0x00, 0x00, 0x00, 0x00, 0x01], {}⟩ = .error .badChecksum
      ∧ decode ⟨.wire, [0x48, 0x00, 0x00, 0x01, 0xAB, 0x87], {}⟩ = .error .badArgument := by decide

/-! ## Wire commands -/

/-- V-F3: one whole transaction. -/
theorem test_cmd17_transaction :
    historyOf (.cmd17 0xA00) (ready blockCard (List.replicate 10 0xFF ++ [0x00]) [0, 0]) = some
      [.cs .high, .xchg 0xFF 0xFF, .cs .low, .xchg 0xFF 0xFF, .now 0, .xchg 0xFF 0xFF, .xchg 0x51 0xFF,
        .xchg 0x00 0xFF, .xchg 0x00 0xFF, .xchg 0x0A 0xFF, .xchg 0x00 0xFF, .xchg 0x01 0xFF, .xchg 0xFF 0xFF,
        .xchg 0xFF 0x00] := by decide +kernel

/-- V-F4: the selection times out. -/
theorem test_cmd17_unselected :
    historyOf (.cmd17 0) (ready blockCard [0xFF, 0x00, 0x00, 0x00, 0xFF] [1000, 1250, 1500, 0]) = some
        [.cs .high, .xchg 0xFF 0xFF, .cs .low, .xchg 0xFF 0x00, .now 1000, .xchg 0xFF 0x00, .now 1250,
          .xchg 0xFF 0x00, .now 1500, .cs .high, .xchg 0xFF 0xFF]
      ∧ replyOf (.cmd17 0) (ready blockCard [0xFF, 0x00, 0x00, 0x00, 0xFF] [1000, 1250, 1500, 0]) =
        some (.response 0xFF) := by decide +kernel

/-- V-F5: the tenth byte counts, and no eleventh is polled. -/
theorem test_cmd0_tenth_byte :
    replyOf .cmd0 (ready blockCard (List.replicate 9 0xFF ++ List.replicate 9 0x80 ++ [0xC1, 0x00]) [0, 0]) =
      some (.response 0xC1) := by decide +kernel

/-- V-F1: the frames sent. -/
theorem test_cmd1_frame : sentBy .cmd1 (ready .mmc (answered 0x01) [0, 0]) =
    [0xFF, 0xFF, 0xFF, 0x41, 0x00, 0x00, 0x00, 0x00, 0x01, 0xFF, 0xFF] := by decide +kernel
theorem test_cmd8_tail : sentBy .cmd8 (ready blockCard (answered 0x01 ++ [0, 0, 1, 0xAA]) [0, 0]) =
    [0xFF, 0xFF, 0xFF, 0x48, 0x00, 0x00, 0x01, 0xAA, 0x87, 0xFF, 0xFF, 0xFF, 0xFF, 0xFF, 0xFF] := by decide +kernel
theorem test_cmd8_rejected_no_tail : sentBy .cmd8 (ready blockCard (answered 0x05) [0, 0]) =
    [0xFF, 0xFF, 0xFF, 0x48, 0x00, 0x00, 0x01, 0xAA, 0x87, 0xFF, 0xFF] := by decide +kernel
theorem test_cmd9_frame : sentBy .cmd9 (ready blockCard (answered 0x00) [0, 0]) =
    [0xFF, 0xFF, 0xFF, 0x49, 0x00, 0x00, 0x00, 0x00, 0x01, 0xFF, 0xFF] := by decide +kernel
theorem test_cmd10_frame : sentBy .cmd10 (ready blockCard (answered 0x00) [0, 0]) =
    [0xFF, 0xFF, 0xFF, 0x4A, 0x00, 0x00, 0x00, 0x00, 0x01, 0xFF, 0xFF] := by decide +kernel
/-- P6: the stuff byte of CMD12 is discarded although it has bit 7 clear. -/
theorem test_cmd12_stuff_byte :
    replyOf .cmd12 (ready blockCard (List.replicate 9 0xFF ++ [0x7F, 0xFF, 0x00]) [0, 0]) = some (.response 0x00) := by
  decide +kernel
/-- V-Q3: ACMD13 is CMD55 and index 13, and one byte is discarded behind an R1 of 0x00. -/
theorem test_acmd13_frames : sentBy .acmd13 (ready blockCard (answered 0x00 ++ answered 0x00 ++ [0x00]) [0, 0, 0]) =
    [0xFF, 0xFF, 0xFF, 0x77, 0x00, 0x00, 0x00, 0x00, 0x01, 0xFF, 0xFF,
      0xFF, 0xFF, 0xFF, 0x4D, 0x00, 0x00, 0x00, 0x00, 0x01, 0xFF, 0xFF, 0xFF] := by decide +kernel
theorem test_cmd16_frame : sentBy .cmd16 (ready .sdv1 (answered 0x00) [0, 0]) =
    [0xFF, 0xFF, 0xFF, 0x50, 0x00, 0x00, 0x02, 0x00, 0x01, 0xFF, 0xFF] := by decide +kernel
theorem test_cmd18_frame : sentBy (.cmd18 0x12345) (ready blockCard (answered 0x00) [0, 0]) =
    [0xFF, 0xFF, 0xFF, 0x52, 0x00, 0x01, 0x23, 0x45, 0x01, 0xFF, 0xFF] := by decide +kernel
theorem test_acmd23_frames : sentBy (.acmd23 5) (ready blockCard (answered 0x00 ++ answered 0x00) [0, 0, 0]) =
    [0xFF, 0xFF, 0xFF, 0x77, 0x00, 0x00, 0x00, 0x00, 0x01, 0xFF, 0xFF,
      0xFF, 0xFF, 0xFF, 0x57, 0x00, 0x00, 0x00, 0x05, 0x01, 0xFF, 0xFF] := by decide +kernel
theorem test_cmd24_frame : sentBy (.cmd24 0xFFFFFE00) (ready blockCard (answered 0x00) [0, 0]) =
    [0xFF, 0xFF, 0xFF, 0x58, 0xFF, 0xFF, 0xFE, 0x00, 0x01, 0xFF, 0xFF] := by decide +kernel
theorem test_cmd25_frame : sentBy (.cmd25 100) (ready blockCard (answered 0x00) [0, 0]) =
    [0xFF, 0xFF, 0xFF, 0x59, 0x00, 0x00, 0x00, 0x64, 0x01, 0xFF, 0xFF] := by decide +kernel
theorem test_cmd32_frame : sentBy (.cmd32 16) (ready blockCard (answered 0x00) [0, 0]) =
    [0xFF, 0xFF, 0xFF, 0x60, 0x00, 0x00, 0x00, 0x10, 0x01, 0xFF, 0xFF] := by decide +kernel
theorem test_cmd33_frame : sentBy (.cmd33 31) (ready blockCard (answered 0x00) [0, 0]) =
    [0xFF, 0xFF, 0xFF, 0x61, 0x00, 0x00, 0x00, 0x1F, 0x01, 0xFF, 0xFF] := by decide +kernel
theorem test_cmd38_frame : sentBy .cmd38 (ready blockCard (answered 0x00) [0, 0]) =
    [0xFF, 0xFF, 0xFF, 0x66, 0x00, 0x00, 0x00, 0x00, 0x01, 0xFF, 0xFF] := by decide +kernel
/-- V-F6: CMD55 answered 0x05, so that CMD41 is never framed. -/
theorem test_acmd41_announcement_rejected :
    sentBy (.acmd41 0) (ready .mmc (answered 0x05) [0, 0]) =
        [0xFF, 0xFF, 0xFF, 0x77, 0x00, 0x00, 0x00, 0x00, 0x01, 0xFF, 0xFF]
      ∧ replyOf (.acmd41 0) (ready .mmc (answered 0x05) [0, 0]) = some (.response 0x05) := by decide +kernel
theorem test_cmd55_frame : sentBy .cmd55 (ready blockCard (answered 0x01) [0, 0]) =
    [0xFF, 0xFF, 0xFF, 0x77, 0x00, 0x00, 0x00, 0x00, 0x01, 0xFF, 0xFF] := by decide +kernel
theorem test_cmd58_tail : sentBy .cmd58 (ready blockCard (answered 0x00 ++ [0xC0, 0xFF, 0x80, 0x00]) [0, 0]) =
    [0xFF, 0xFF, 0xFF, 0x7A, 0x00, 0x00, 0x00, 0x00, 0x01, 0xFF, 0xFF, 0xFF, 0xFF, 0xFF, 0xFF] := by decide +kernel

/-! ## Tokens -/

/-- V-B3: bytes equal to 0xFE and 0xFF inside the payload are data. -/
theorem test_receive_token_bytes_are_data :
    ((after (exec (.tokStartData (.receive 100 2)) (ready blockCard [0xFE, 0xFE, 0xFF, 0x00, 0x00] [0, 0]))).map
      fun t => (t.reply, t.mem.readBytes 100 2)) = some (some (.token true), [0xFE, 0xFF]) := by decide +kernel
/-- V-B2: an error token. -/
theorem test_receive_error_token :
    replyOf (.tokStartData (.receive 100 512)) (ready blockCard [0xFF, 0x08, 0xAA] [0, 0, 0]) = some (.token false) := by
  decide +kernel
/-- V-B5: behind a card that is busy for one byte; 518 exchanges. -/
theorem test_multi_write_packet :
    ((historyOf (.tokMultiWrite 0) (ready blockCard ([0x00] ++ List.replicate 516 0xFF ++ [0x05]) [0, 0, 0])).map
        fun h => (h.filterMap Event.sent).length) = some 518
      ∧ replyOf (.tokMultiWrite 0) (ready blockCard ([0x00] ++ List.replicate 516 0xFF ++ [0x05]) [0, 0, 0]) =
        some (.token true) := by decide +kernel
/-- V-B6: the stop token, no data and no response; not sent to a card that stays busy, across a wrap of the tick. -/
theorem test_stop_token :
    historyOf .tokStopTran (ready blockCard [0xFF, 0xFF] [0, 0]) = some [.now 0, .xchg 0xFF 0xFF, .xchg 0xFD 0xFF]
      ∧ historyOf .tokStopTran (ready blockCard [0x00, 0x00] [4294967040, 0, 256, 0]) = some
        [.now 4294967040, .xchg 0xFF 0x00, .now 0, .xchg 0xFF 0x00, .now 256] := by decide +kernel

/-! ## Host operations -/

/-- P5: no card. -/
theorem test_initialize_no_card :
    ((after (exec (.initializeCard 0) (fresh (List.replicate 30 0xFF) [0, 0, 0, 0, 5, 10, 0, 0, 0]))).map fun t =>
        (t.reply, t.phase, t.bus.pwr, t.bus.clk, t.bus.history.length)) =
      some (some (.status ⟨true, false, false⟩), .failed, .off, .slow, 43) := by decide +kernel

/-- U16: a wait of 2^32 ms never ends; one of 2^32 - 1 ms does, at the sample that is so far behind the first. -/
theorem test_initialize_longest_wait :
    stopped (exec (.initializeCard 0) { fresh [] [] with powerOnWaitMs := 4294967296 }) = some .powerOnWaitNeverEnds
      ∧ (after (exec (.initializeCard 0) { fresh (List.replicate 30 0xFF) [7, 5, 6, 6, 6, 6, 6, 16, 16, 16] with
          powerOnWaitMs := 4294967295 })).isSome = true := by decide +kernel

/-- The CSD of P1, and its 16 bytes of SD status. -/
def csdP1 : List Byte := [0x40, 0x0E, 0x00, 0x32, 0x5B, 0x59, 0x00, 0x00, 0x3B, 0x37, 0x7F, 0x80, 0x0A, 0x40, 0x00, 0x01]
def sdsP1 : List Byte := List.replicate 10 0x00 ++ [0x90] ++ List.replicate 5 0x00

/-- P1: an SDv2 block-addressed card. -/
theorem test_initialize_sdv2 :
    ((after (exec (.initializeCard 0) (fresh
        (List.replicate 10 0xFF ++ answered 0x01 ++ answered 0x01 ++ [0x00, 0x00, 0x01, 0xAA]
          ++ answered 0x01 ++ answered 0x01 ++ answered 0x01 ++ answered 0x00
          ++ answered 0x00 ++ [0xC0, 0xFF, 0x80, 0x00] ++ [0xFF]
          ++ answered 0x00 ++ [0xFF, 0xFE] ++ csdP1 ++ [0x12, 0x34] ++ [0xFF]
          ++ answered 0x00 ++ answered 0x00 ++ [0x00, 0xFF, 0xFE] ++ sdsP1 ++ [0x00, 0x00]
          ++ List.replicate 46 0x00 ++ [0x9A, 0xBC] ++ [0xFF])
        (List.replicate 40 0)))).map fun t =>
      (t.cardClass, t.sectorCount, t.eraseBlockSectors, t.phase, (t.bus.history.filterMap Event.sent).length)) =
      some (some blockCard, 15523840, 8192, .ready, 220) := by
  decide +kernel

/-- V-A11, V-A18. -/
theorem test_status :
    replyOf (.status 0) { fresh [] [] with status := ⟨true, true, false⟩ } = some (.status ⟨true, true, false⟩)
      ∧ replyOf (.status 1) (ready blockCard [] []) = some (.status ⟨true, false, false⟩) := by decide +kernel
theorem test_sync : replyOf .sync (fresh [] []) = some (.result .ok) := by decide +kernel
theorem test_sector_count : replyOf .sectorCount (ready blockCard [] []) = some (.word 15523840) := by decide +kernel
theorem test_sector_size : replyOf .sectorSize (fresh [] []) = some (.word 512) := by decide +kernel
theorem test_erase_block_sectors : replyOf .eraseBlockSectors (ready blockCard [] []) = some (.word 8192) := by
  decide +kernel

/-- P2: sector 5 of a byte-addressed card is at 0xA00; the block is stored in arrival order. -/
theorem test_read_single :
    ((after (exec (.read 0 ⟨256, 512⟩ 5 1) (ready .sdv1
        (answered 0x00 ++ [0xFF, 0xFF, 0xFE] ++ ((List.range 512).map fun i => BitVec.ofNat 8 (35 + 3 * i))
          ++ [0xAA, 0x55, 0xFF]) [0, 0, 0, 0, 0, 0, 0]))).map fun t =>
      (t.reply, t.mem.readBytes 256 8, t.mem.readBytes (256 + 508) 4, (t.bus.history.filterMap Event.sent).length,
        ((t.bus.history.filterMap Event.sent).drop 3).take 6)) =
      some (some (.result .ok), [0x23, 0x26, 0x29, 0x2C, 0x2F, 0x32, 0x35, 0x38], [0x17, 0x1A, 0x1D, 0x20], 529,
        [0x51, 0x00, 0x00, 0x0A, 0x00, 0x01]) := by decide +kernel
/-- V-A3, P7. -/
theorem test_read_refused_and_unselected :
    replyOf (.read 0 ⟨0, 512⟩ 7 0) (ready blockCard [] []) = some (.result .invalidParameter)
      ∧ replyOf (.read 0 ⟨0, 512⟩ 0 1) (ready blockCard [0xFF, 0x00, 0x00, 0x00, 0xFF, 0xFF] [1000, 1250, 1500, 0, 0, 0]) =
        some (.result .error) := by decide +kernel

/-- V-R12: both blocks accepted, the card then busy for more than 500 ms: the stop token is not sent. -/
theorem test_write_stop_not_sent :
    ((after (exec (.write 0 ⟨0, 1024⟩ 7 2) (ready .mmc
        (answered 0x00 ++ List.replicate 516 0xFF ++ [0x05] ++ List.replicate 516 0xFF ++ [0x05]
          ++ [0x00, 0x00, 0xFF]) [0, 0, 0, 0, 300, 600, 0, 0, 0]))).map fun t =>
      (t.reply, (t.bus.history.filterMap Event.sent).contains 0xFD, t.bus.rx)) =
      some (some (.result .error), false, []) := by decide +kernel
/-- V-A12. -/
theorem test_write_protected :
    replyOf (.write 0 ⟨0, 512⟩ 0 1) { ready blockCard [] [] with status := ⟨false, false, true⟩ } =
      some (.result .writeProtect) := by decide +kernel

/-- P8: busy for two bytes behind CMD38. -/
theorem test_trim :
    replyOf (.ioctlTrim 0 16 31) (ready blockCard
      (answered 0x00 ++ [0xFF, 0xFE] ++ csdP1 ++ [0x12, 0x34] ++ answered 0x00 ++ answered 0x00 ++ answered 0x00
        ++ [0x00, 0x00, 0xFF, 0xFF]) [0, 0, 0, 0, 0, 0, 0, 0, 40, 0, 0, 0]) = some (.result .ok) := by decide +kernel
/-- V-R14: a deselect and no command. -/
theorem test_trim_mmc :
    historyOf (.ioctlTrim 0 16 31) (ready .mmc [0xFF] []) = some [.cs .high, .xchg 0xFF 0xFF]
      ∧ replyOf (.ioctlTrim 0 16 31) (ready .mmc [0xFF] []) = some (.result .error) := by decide +kernel

/-- V-Q1. -/
theorem test_get_cid :
    replyOf (.ioctlGetCid 0) (ready blockCard (answered 0x00 ++ [0xFF, 0xFE]
        ++ [0x10, 0x11, 0x12, 0x13, 0x14, 0x15, 0x16, 0x17, 0x18, 0x19, 0x1A, 0x1B, 0x1C, 0x1D, 0x1E, 0x1F]
        ++ [0x56, 0x78, 0xFF]) [0, 0, 0, 0, 0, 0]) =
      some (.bytes .ok (some
        [0x10, 0x11, 0x12, 0x13, 0x14, 0x15, 0x16, 0x17, 0x18, 0x19, 0x1A, 0x1B, 0x1C, 0x1D, 0x1E, 0x1F])) := by
  decide +kernel
/-- V-Q2, V-Q4. -/
theorem test_get_ocr :
    replyOf (.ioctlGetOcr 0) (ready blockCard (answered 0x00 ++ [0xC0, 0xFF, 0x80, 0x00, 0xFF]) [0, 0, 0, 0]) =
        some (.bytes .ok (some [0xC0, 0xFF, 0x80, 0x00]))
      ∧ replyOf (.ioctlGetOcr 0) (ready blockCard (answered 0x01 ++ [0xFF]) [0, 0, 0, 0]) = some (.bytes .error none) := by
  decide +kernel
/-- V-Q3, V-Q5. -/
theorem test_get_sd_status :
    replyOf (.ioctlGetSdStatus 0) (ready blockCard (answered 0x00 ++ answered 0x00 ++ [0x00, 0xFF, 0xFE]
        ++ (List.replicate 10 0x00 ++ [0x90] ++ List.replicate 53 0x00) ++ [0x9A, 0xBC, 0xFF]) [0, 0, 0, 0, 0, 0, 0]) =
        some (.bytes .ok (some (List.replicate 10 0x00 ++ [0x90] ++ List.replicate 53 0x00)))
      ∧ replyOf (.ioctlGetSdStatus 0) (ready .mmc (answered 0x05 ++ [0xFF]) [0, 0, 0, 0]) = some (.bytes .error none) := by
  decide +kernel
/-- V-A19, V-A10. -/
theorem test_get_card_class :
    replyOf (.ioctlGetCardClass 0) (ready blockCard [] []) = some (.cardClass .ok (some (some blockCard)))
      ∧ replyOf (.ioctlGetCardClass 0) (fresh [] []) = some (.cardClass .notReady none) := by decide +kernel

/-! ## The step -/

/-- R91 as the table numbers it: `initialize` is the first instruction after the reset of a machine that need not
wait. -/
theorem test_initialize_after_reset :
    (after (step ((State.resetWith 0 {}).withFetchWord 8 0x00))).isSome = true := rfl

/-- R7, R73: the host contract on the count, and the width of the tick. -/
theorem test_contract :
    withinContract 0 = false ∧ withinContract 1 = true ∧ withinContract 128 = true ∧ withinContract 129 = false
      ∧ BitVec Config.tickWidth = Word ∧ Config.nIdleBytes = 10 := ⟨rfl, rfl, rfl, rfl, rfl, rfl⟩

/-- R24, U14. -/
theorem test_environment :
    ((after (step { ready blockCard [] [] with inputs := [.environment true true] })).map (·.status)) =
        some ⟨false, true, true⟩
      ∧ refusal (step { ready blockCard [] [] with busy := true, inputs := [.environment true true] }) =
        some .environmentDuringOperation := by decide +kernel

/-- V-T1, V-M, V-G1 to V-G3: rows of the tables. -/
theorem test_formulas :
    pastDeadline 0xFFFFFF00 500 0x000000F3 = false ∧ pastDeadline 0xFFFFFF00 500 0x000000F4 = true
      ∧ addr (some .sdv1) 0x00800001 = 0x00000200 ∧ addr (some blockCard) 0xFFFFFFFF = 0xFFFFFFFF
      ∧ sectorsV2 [0x40, 0, 0, 0, 0, 0, 0, 0x3F, 0xFF, 0xFF] = 0
      ∧ sectorsV1 [0x00, 0, 0, 0, 0, 0x5A, 0x83, 0xBF, 0xF6, 0xDB, 0xFF] = 3932160
      ∧ eraseSectorsSdv2 (List.replicate 10 0 ++ [0xF0]) = 524288
      ∧ eraseSectorsSdv1 (List.replicate 10 0 ++ [0x1F, 0x80]) = 64
      ∧ eraseSectorsMmc (List.replicate 10 0 ++ [0x84, 0x20]) = 4 := by decide +kernel

/-! ## Hypotheses can be met

For each statement with hypotheses, values that meet them all.  Where a statement speaks of several cases, each has its
own, at the ends of its range. -/

theorem witness_DecodeOfEncode : (Instr.acmd41 0x40000000).wellFormed = true := by decide
theorem witness_EncodeOfDecode : decode ⟨.wire, [0x48, 0x00, 0x00, 0x01, 0xAA, 0x87], {}⟩ = .ok .cmd8 := by decide
/-- The three checksum bytes. -/
theorem witness_FrameBits :
    commandOf .cmd0 = some (cmd 0, 0) ∧ commandOf .cmd8 = some (cmd 8, 0x1AA)
      ∧ commandOf (.acmd23 5) = some (acmd 23, 5) := by decide
theorem witness_StepRunsRequest :
    ({ fresh [] [] with inputs := [.request ⟨.host, [0x04], {}⟩] } : State).inputs = .request ⟨.host, [0x04], {}⟩ :: []
      ∧ decode ⟨.host, [0x04], {}⟩ = .ok .sync := by decide
theorem witness_StepIdles : State.reset.inputs = [] := rfl
/-- The least code, those that are tokens on the wire, and the greatest. -/
theorem witness_UnknownCodeInvalid :
    (fresh [] []).busy = false
      ∧ (∀ code : Byte, code = 0x0D ∨ code = 0xFC ∨ code = 0xFD ∨ code = 0xFE ∨ code = 0xFF →
          ({ fresh [] [] with inputs := [.request ⟨.host, [code], {}⟩] } : State).inputs =
            .request ⟨.host, [code], {}⟩ :: []
          ∧ 0x0D ≤ code.toNat) := by
  refine ⟨rfl, ?_⟩
  rintro code (rfl | rfl | rfl | rfl | rfl) <;> exact ⟨rfl, by decide⟩
theorem witness_EnvironmentBetweenOperations :
    ({ fresh [] [] with inputs := [.environment true true] } : State).inputs = .environment true true :: [] := rfl
theorem witness_BusyRefused :
    Instr.sync.isHost = true ∧ ({ fresh [] [] with busy := true } : State).busy = true := by decide

theorem atRest_ready : (ready blockCard [] []).AtRest := by
  constructor <;> decide
theorem linesAgree_reset : State.reset.LinesAgree := by
  constructor <;> intro l h <;> cases h
theorem startsWithPowerOn_reset (waitMs : Nat) (codes : ResultCodes) : (State.resetWith waitMs codes).StartsWithPowerOn :=
  ⟨fun _ => rfl, fun h => absurd rfl h⟩

theorem witness_StepKeepsAtRest : (ready blockCard [] []).AtRest
    ∧ ∃ t, step { ready blockCard [] [] with inputs := [.request ⟨.host, [0x04], {}⟩] } = .next t
    ∧ ({ ready blockCard [] [] with inputs := [.request ⟨.host, [0x04], {}⟩] } : State).AtRest := by
  refine ⟨atRest_ready, _, rfl, ?_⟩
  constructor <;> decide
theorem witness_StepKeepsLinesAgree :
    State.reset.LinesAgree ∧ ∃ t, step State.reset = .next t :=
  ⟨linesAgree_reset, _, rfl⟩
/-- A stream of which one sample has been taken and two stand in store, before an instruction that waits. -/
def midStream : State :=
  { ready blockCard [] [5, 9] with
    bus := { (ready blockCard [] [5, 9]).bus with trace := [.now 4], tick := 4 }
    inputs := [.request ⟨.wire, [0x40, 0, 0, 0, 0, 0x95], {}⟩] }
theorem witness_StepKeepsTickStream : midStream.bus.TakesFrom [4, 5, 9] ∧ ∃ t, step midStream = .next t :=
  ⟨⟨⟨[], rfl⟩, by simp [midStream, Bus.samples, Bus.history, Event.sample]⟩, _, rfl⟩
theorem witness_HistoryStartsWithPowerOn :
    (Instr.sync.isHost = true ∧ (∀ drv, Instr.sync ≠ .initializeCard drv)
        ∧ State.reset.status.notInitialized = true ∧ ∃ t, exec .sync State.reset = .next t)
      ∧ ((Instr.initializeCard 0).isHost = true ∧ (State.resetWith 0 {}).StartsWithPowerOn
        ∧ ∃ t, exec (.initializeCard 0) (State.resetWith 0 {}) = .next t) :=
  ⟨⟨rfl, nofun, rfl, _, rfl⟩, rfl, startsWithPowerOn_reset 0 {}, _, rfl⟩
theorem witness_HistoryAppendOnly : ∃ t, step State.reset = .next t := ⟨_, rfl⟩
theorem witness_OnlyInitializeWritesRegisters :
    (∀ drv, Instr.cmd0 ≠ .initializeCard drv) ∧ Instr.cmd0.isHost = false
      ∧ ∃ t, exec .cmd0 (ready blockCard [] []) = .next t :=
  ⟨nofun, rfl, _, rfl⟩
theorem witness_InitializeFrame : ∃ t, exec (.initializeCard 0) (fresh [] []) = .next t := ⟨_, rfl⟩
/-- A form that stores, and one that does not. -/
theorem witness_MemoryFrame :
    (ready blockCard [] []).mem.wf = true
      ∧ storeRange (.read 0 ⟨8, 512⟩ 0 1) = some (8, 512)
      ∧ (∃ t, exec (.read 0 ⟨8, 512⟩ 0 1) (ready blockCard [] []) = .next t)
      ∧ storeRange .cmd0 = none ∧ ∃ t, exec .cmd0 (ready blockCard [] []) = .next t :=
  ⟨rfl, rfl, ⟨_, rfl⟩, rfl, _, rfl⟩
theorem witness_HostOperationsEndDeselected :
    (Instr.ioctlGetCid 0).isHost = true ∧ (∀ drv, Instr.ioctlGetCid 0 ≠ .initializeCard drv)
      ∧ ∃ t, exec (.ioctlGetCid 0) (ready blockCard [] []) = .next t :=
  ⟨rfl, nofun, _, rfl⟩
theorem witness_EnvironmentFlagsNotTested :
    (∀ drv, Instr.status 0 = .initializeCard drv ∨ Instr.status 0 = .status drv → drv = 0)
      ∧ (∀ drv buf sector count, Instr.status 0 = .write drv buf sector count → true = false) := by
  refine ⟨?_, nofun⟩
  rintro drv (h | h)
  · cases h
  · exact (Instr.status.inj h).symm
/-- The clauses in turn: a bad drive; a count of 0; not initialized; write-protected; admitted with the least buffer. -/
theorem witness_AdmissionOrder :
    (fresh [] []).busy = false ∧ (1 : Nat) ≠ 0 ∧ (fresh [] []).status.notInitialized = true
      ∧ (ready blockCard [] []).busy = false ∧ (ready blockCard [] []).status.notInitialized = false
      ∧ (ready blockCard [] []).status.writeProtected = false
      ∧ ({ ready blockCard [] [] with status := ⟨false, false, true⟩ } : State).busy = false
      ∧ ({ ready blockCard [] [] with status := ⟨false, false, true⟩ } : State).status.notInitialized = false
      ∧ ({ ready blockCard [] [] with status := ⟨false, false, true⟩ } : State).status.writeProtected = true
      ∧ 1 * 512 ≤ (HostBuf.mk 0 512).len := by decide
theorem witness_BadDriveIndex : (fresh [] []).busy = false ∧ (1 : Nat) ≠ 0 := by decide
theorem witness_ShortBufferRefused :
    (ready blockCard [] []).isOpen = true ∧ (1 : Nat) ≠ 0 ∧ (HostBuf.mk 0 511).len < 1 * 512
      ∧ (ready blockCard [] []).status.writeProtected = false := by decide
theorem witness_StatusReturnsStatus : (fresh [] []).busy = false := rfl
theorem witness_SyncReturnsOk : (fresh [] []).busy = false := rfl
theorem witness_GettersReturnGeometry : (ready blockCard [] []).busy = false := rfl
/-- The gate closed, and open. -/
theorem witness_GetCardClassReturnsClass :
    (fresh [] []).busy = false ∧ (fresh [] []).status.notInitialized = true
      ∧ (ready blockCard [] []).busy = false ∧ (ready blockCard [] []).status.notInitialized = false := by decide

/-- A plain transaction answered `resp` on the first polled byte. -/
def quick (resp : Byte) : Answer := ⟨0xFF, 0xFF, ⟨0, []⟩, List.replicate 6 0xFF, 0xFF, [resp]⟩
/-- A plain command answered so. -/
def plainRun (resp : Byte) : CommandRun := .plain (.answered (quick resp))
/-- An application command whose announcement and frame are answered so. -/
def appRun (announce resp : Byte) : CommandRun := .app (.answered (quick announce)) (some (.answered (quick resp)))
/-- V-F4: a selection that times out. -/
def timedOut : NoSelect := ⟨0xFF, 0x00, ⟨1000, [(0x00, 1250)], 0x00, 1500⟩, 0xFF⟩
/-- A packet behind one idle byte. -/
def packetOf (data : List Byte) : Packet := ⟨0, [5], data, 0xAA, 0x55⟩
/-- A transmitted block the card accepts. -/
def sentBlock (resp : Byte) : Sent := ⟨⟨0, [(0x00, 5)]⟩, 0xFF, List.replicate 512 0xFF, 0xFF, 0xFF, resp⟩
/-- A ready wait of 500 ms that times out. -/
def staysBusy : BusyWait := ⟨0, [(0x00, 499)], 0x00, 500⟩

/-- First and tenth polled byte; unselected; application commands with and without their second frame; the tails. -/
theorem witness_CommandConversation :
    (plainRun 0).valid (cmd 17) = true ∧ tailLength (.cmd17 0) 0 = 0
      ∧ (CommandRun.plain (.answered { quick 0 with polled := List.replicate 9 0x80 ++ [0xC1] })).valid (cmd 0) = true
      ∧ (CommandRun.plain (.unselected timedOut)).valid (cmd 1) = true
      ∧ (appRun 1 0).valid (acmd 41) = true ∧ (CommandRun.app (.answered (quick 2)) none).valid (acmd 41) = true
      ∧ (plainRun 1).valid (cmd 8) = true ∧ tailLength .cmd8 (plainRun 1).resp = 4
      ∧ (plainRun 0).valid (cmd 58) = true ∧ tailLength .cmd58 (plainRun 0).resp = 4
      ∧ (appRun 0 0).valid (acmd 13) = true ∧ tailLength .acmd13 (appRun 0 0).resp = 1
      ∧ commandOf .cmd8 = some (cmd 8, 0x1AA) := by decide
theorem witness_EveryCommandIsARun : commandOf (.cmd24 512) = some (cmd 24, 512) := rfl
/-- A packet, at the last sample before 200 ms; another token; no token, the sample at 200 ms. -/
theorem witness_ReceivedPacket :
    (Reception.packet ⟨0, [199], [0xFE, 0xFF], 0, 0⟩).valid 2 = true
      ∧ (Reception.badToken ⟨0, [199], 0x08⟩).valid 512 = true
      ∧ (Reception.noToken ⟨0, [199], 200⟩).valid 512 = true := by decide
theorem witness_TransmittedPacket :
    (Transmission.sent (sentBlock 0xE5)).valid = true ∧ (Transmission.busy staysBusy).valid = true := by
  decide +kernel
theorem witness_StopToken :
    (StopRun.stopped ⟨⟨0, [(0x00, 499)]⟩, 0xFF⟩).valid = true ∧ (StopRun.busy staysBusy).valid = true := by decide

/-- A block of 512 zeros received. -/
def zeroBlock : Reception := .packet (packetOf (List.replicate 512 0x00))
/-- One block; a command rejected; two blocks; two blocks of which the second fails. -/
theorem witness_ReadConversation :
    (ready blockCard [] []).isOpen = true ∧ (ready blockCard [] []).mem.wf = true
      ∧ (1 : Nat) ≠ 0 ∧ 1 * 512 ≤ (HostBuf.mk 0 512).len ∧ 2 * 512 ≤ (HostBuf.mk 0 1024).len
      ∧ (ReadRun.mk (plainRun 0) [zeroBlock] none 0xFF).valid 1 = true
      ∧ (ReadRun.mk (plainRun 4) [] none 0xFF).valid 1 = true
      ∧ (ReadRun.mk (plainRun 0) [zeroBlock, zeroBlock] (some (plainRun 0)) 0xFF).valid 2 = true
      ∧ (ReadRun.mk (plainRun 0) [zeroBlock, .badToken ⟨0, [], 0x08⟩] (some (plainRun 0)) 0xFF).valid 2 = true := by
  decide +kernel
theorem witness_EveryReadIsARun :
    (ready .mmc [] []).isOpen = true ∧ (ready .mmc [] []).mem.wf = true ∧ (2 : Nat) ≠ 0
      ∧ 2 * 512 ≤ (HostBuf.mk 0 1024).len := by decide

/-- One block; a command rejected; two blocks with and without ACMD23; the stop token that cannot be sent. -/
theorem witness_WriteConversation :
    (ready blockCard [] []).isOpen = true ∧ (ready blockCard [] []).status.writeProtected = false
      ∧ (1 : Nat) ≠ 0 ∧ 1 * 512 ≤ (HostBuf.mk 0 512).len ∧ 2 * 512 ≤ (HostBuf.mk 0 1024).len
      ∧ isSdFamily (ready blockCard [] []).cardClass = true ∧ isSdFamily (ready .mmc [] []).cardClass = false
      ∧ (WriteRun.mk none (plainRun 0) [.sent (sentBlock 0x05)] none 0xFF).valid true 1 = true
      ∧ (WriteRun.mk none (plainRun 4) [] none 0xFF).valid false 1 = true
      ∧ (WriteRun.mk (some (appRun 0 4)) (plainRun 0) [.sent (sentBlock 0x05), .sent (sentBlock 0x05)]
          (some (.stopped ⟨⟨0, []⟩, 0xFF⟩)) 0xFF).valid true 2 = true
      ∧ (WriteRun.mk none (plainRun 0) [.sent (sentBlock 0x0D)] (some (.busy staysBusy)) 0xFF).valid false 2 =
          true := by decide +kernel
theorem witness_EveryWriteIsARun :
    (ready .mmc [] []).isOpen = true ∧ (ready .mmc [] []).status.writeProtected = false ∧ (2 : Nat) ≠ 0
      ∧ 2 * 512 ≤ (HostBuf.mk 0 1024).len := by decide

/-- The CSD of P1 read from the card. -/
def csdRun : FetchRun := ⟨plainRun 0, some (.packet (packetOf csdP1))⟩
/-- An MMC; a card of the SD family whose erase runs to its end, up to the wait's 30000 ms; each earlier end. -/
theorem witness_TrimConversation :
    (ready blockCard [] []).isOpen = true ∧ isSdFamily (ready blockCard [] []).cardClass = true
      ∧ (ready .mmc [] []).isOpen = true ∧ isSdFamily (ready .mmc [] []).cardClass = false
      ∧ (TrimRun.mk none none 0xFF).valid false = true
      ∧ (TrimRun.mk (some csdRun) (some (.erased (plainRun 0) (plainRun 0) (plainRun 0)
          (.ready ⟨0, [(0x00, 29999)]⟩))) 0xFF).valid true = true
      ∧ (TrimRun.mk (some csdRun) (some (.erased (plainRun 0) (plainRun 0) (plainRun 0)
          (.busy ⟨0, [(0x00, 29999)], 0x00, 30000⟩))) 0xFF).valid true = true
      ∧ (TrimRun.mk (some csdRun) (some (.noStart (plainRun 1))) 0xFF).valid true = true
      ∧ (TrimRun.mk (some csdRun) (some (.noEnd (plainRun 0) (plainRun 1))) 0xFF).valid true = true
      ∧ (TrimRun.mk (some csdRun) (some (.noErase (plainRun 0) (plainRun 0) (plainRun 1))) 0xFF).valid true = true
      ∧ (TrimRun.mk (some ⟨plainRun 4, none⟩) none 0xFF).valid true = true := by decide +kernel

/-- A write of the block at 512 that the card accepts. -/
def roundTripWrite : WriteRun := ⟨none, plainRun 0, [.sent (sentBlock 0x05)], none, 0xFF⟩
/-- What that write sends behind its token. -/
def roundTripData (s : State) : List Byte :=
  (sendTalk (s.mem.readBytes 512 512) (sentBlock 0x05).onData).events.filterMap Event.sent
/-- A host memory that holds 0xAB at 513. -/
def roundTripState : State := { ready blockCard [] [] with mem := [(513, 0xAB)] }
theorem witness_RoundTrip :
    roundTripState.isOpen = true ∧ roundTripState.status.writeProtected = false ∧ roundTripState.mem.wf = true
      ∧ 512 ≤ (HostBuf.mk 512 512).len ∧ 512 ≤ (HostBuf.mk 4096 512).len
      ∧ roundTripWrite.valid (isSdFamily roundTripState.cardClass) 1 = true
      ∧ roundTripWrite.blocks = [.sent (sentBlock 0x05)] ∧ dataAccepted (sentBlock 0x05).resp = true
      ∧ (∃ t, exec (.write 0 ⟨512, 512⟩ 9 1) (roundTripState.feed
          (roundTripWrite.talk roundTripState.mem 512 1 (addr roundTripState.cardClass 9))) = .next t)
      ∧ (ReadRun.mk (plainRun 0) [.packet (packetOf (roundTripData roundTripState))] none 0xFF).valid 1 = true
      ∧ (packetOf (roundTripData roundTripState)).data =
          (sendTalk (roundTripState.mem.readBytes (HostBuf.mk 512 512).base 512)
            (sentBlock 0x05).onData).events.filterMap Event.sent :=
  ⟨by decide, by decide, by decide, by decide, by decide, by decide +kernel, rfl, by decide, ⟨_, rfl⟩,
    by decide +kernel, rfl⟩

theorem witness_GetCidConversation :
    (ready .sdv1 [] []).isOpen = true ∧ csdRun.valid (cmd 10) 16 = true
      ∧ (FetchRun.mk (plainRun 4) none).valid (cmd 10) 16 = true
      ∧ (FetchRun.mk (plainRun 0) (some (.noToken ⟨0, [], 200⟩))).valid (cmd 10) 16 = true := by decide +kernel
theorem witness_GetOcrConversation :
    (ready .sdv1 [] []).isOpen = true ∧ (OcrRun.mk (plainRun 0) (some [0xC0, 0xFF, 0x80, 0x00])).valid = true
      ∧ (OcrRun.mk (plainRun 1) none).valid = true := by decide
theorem witness_GetSdStatusConversation :
    (ready .mmc [] []).isOpen = true
      ∧ (SdStatusRun.mk (appRun 0 0) (some (0x00, .packet (packetOf (List.replicate 64 0x00))))).valid 64 = true
      ∧ (SdStatusRun.mk (.app (.answered (quick 5)) none) none).valid 64 = true := by decide +kernel

/-- A wait loop won on its second poll. -/
def wonLoop (r : Byte → CommandRun) : LoopRun := ⟨[(1, r 1)], 2, some (r 0)⟩
/-- A wait loop that runs out of time. -/
def lostLoop (r : Byte → CommandRun) : LoopRun := ⟨[(999, r 1)], 1000, none⟩
/-- An `initialize` that classifies no card, `c` being its classification. -/
def failedInit (c : ClassifyRun) : InitRun :=
  ⟨⟨0, [], 0⟩, List.replicate 10 0xFF, c, 0xFF, none, some ⟨0, [9], 10⟩⟩
/-- An `initialize` that classifies a card. -/
def goodInit (c : ClassifyRun) (g : GeometryRun) : InitRun :=
  ⟨⟨0, [], 0⟩, List.replicate 10 0xFF, c, 0xFF, some g, none⟩
/-- The SDv2 branch with OCR byte 0 `x`, the SDv1 branch, the MMC branch. -/
def sdv2Branch (x : Byte) : ClassifyRun :=
  ⟨plainRun 1, some (0, plainRun 1, .sdv2 [0, 0, 1, 0xAA] (wonLoop (appRun 1)) ⟨3, some (plainRun 0)⟩
    (some [x, 0xFF, 0x80, 0x00]))⟩
def sdv1Branch : ClassifyRun :=
  ⟨plainRun 1, some (0, plainRun 5, .legacy (appRun 1 1) (wonLoop (appRun 1)) ⟨3, some (plainRun 0)⟩)⟩
def mmcBranch : ClassifyRun :=
  ⟨plainRun 1, some (0, plainRun 5, .legacy (.app (.answered (quick 5)) none) (wonLoop plainRun) ⟨3, some (plainRun 0)⟩)⟩

/-- No idle card; a wrong echo; the deadline reached; CMD16 rejected. -/
theorem witness_InitializeFails :
    (fresh [] []).busy = false ∧ (fresh [] []).powerOnWaitMs = 0
      ∧ (failedInit ⟨plainRun 0, none⟩).valid 0 = true
      ∧ (failedInit ⟨plainRun 1, some (0, plainRun 1, .echoWrong [0, 0, 1, 0xAB])⟩).valid 0 = true
      ∧ (failedInit ⟨plainRun 1, some (0, plainRun 1, .sdv2 [0, 0, 1, 0xAA] (lostLoop (appRun 1)) ⟨1000, none⟩
          none)⟩).valid 0 = true
      ∧ (failedInit ⟨plainRun 1, some (0, plainRun 5, .legacy (appRun 1 1) (wonLoop (appRun 1))
          ⟨999, some (plainRun 4)⟩)⟩).valid 0 = true := by decide +kernel
/-- The least wait that never ends. -/
theorem witness_InitializeNeverEnds :
    (State.resetWith 4294967296 {}).busy = false ∧ 2 ^ 32 ≤ (State.resetWith 4294967296 {}).powerOnWaitMs := by decide
/-- The longest deadline; a sample past the wait's deadline that is the last to keep (a) for the deadline around it. -/
theorem witness_FreeSampleRange :
    (State.resetWith 0 {}).bus.ticks = []
      ∧ (pastDeadline 100 500 0xFFFFFFFF = true
        ∧ ∀ t ∈ [(100 : Word), 0], (200 - t).toNat + ((0xFFFFFFFF : Word) - 200).toNat < 2 ^ 32)
      ∧ 4294967295 < 2 ^ 32 :=
  ⟨rfl, ⟨by decide +kernel, by simp⟩, by decide⟩
/-- No sample in store, no deadline running, and the longest deadline that can end. -/
theorem witness_FreeSamplesHold :
    (State.resetWith 0 {}).bus.ticks = [] ∧ (State.resetWith 0 {}).bus.deadlines = [] ∧ 4294967295 < 2 ^ 32 := by decide
/-- The SDv2 and the SDv1 branch of a card that never leaves the idle state. -/
def lostSdv2 : ClassifyRun :=
  ⟨plainRun 1, some (0, plainRun 1, .sdv2 [0, 0, 1, 0xAA] ⟨[], 1000, none⟩ ⟨1000, none⟩ none)⟩
def lostSdv1 : ClassifyRun :=
  ⟨plainRun 1, some (0, plainRun 5, .legacy (appRun 1 1) ⟨[], 1000, none⟩ ⟨1000, none⟩)⟩
theorem witness_ExpiredDeadlineStaysExpired :
    lostSdv2.valid = true ∧ lostSdv1.valid = true
      ∧ ticksHold 0 (Talk.join [(plainRun 1).talk (cmd 8) 0x000001AA,
          (BranchRun.sdv2 [0, 0, 1, 0xAA] ⟨[], 1000, none⟩ ⟨1000, none⟩ none).talk]).ticks = true
      ∧ ticksHold 0 (Talk.join [(plainRun 5).talk (cmd 8) 0x000001AA,
          (BranchRun.legacy (appRun 1 1) ⟨[], 1000, none⟩ ⟨1000, none⟩).talk]).ticks = true := by decide +kernel
/-- Across a wrap, up to the last millisecond before a whole turn, the deadline passed and not. -/
theorem witness_DifferenceIsElapsed :
    ticksHold 0xFFFFFF00 ([0xFFFFFFFF] ++ 0x000000F4 :: [0xFFFFFEFF]) = true
      ∧ pastDeadline 0xFFFFFF00 500 0x000000F4 = true ∧ pastDeadline 0xFFFFFF00 500 0x000000F3 = false
      ∧ ticksHold 0xFFFFFF00 ([0xFFFFFFFF] ++ 0x000000F4 :: [0xFFFFFF00]) = false := by decide
/-- The three families; a CSD or an SD status that does not come. -/
theorem witness_InitializeSucceeds :
    (fresh [] []).busy = false ∧ (fresh [] []).powerOnWaitMs = 0
      ∧ (sdv2Branch 0xC0).cardClass = some blockCard
      ∧ (goodInit (sdv2Branch 0xC0) ⟨csdRun, 0xFF, .sdStatus ⟨appRun 0 0, some (0x00, .packet (packetOf sdsP1))⟩
          (some (List.replicate 48 0x00)), 0xFF⟩).valid 0 = true
      ∧ (sdv2Branch 0x80).cardClass = some (.sdv2 .byteAddressed)
      ∧ (goodInit (sdv2Branch 0x80) ⟨⟨plainRun 4, none⟩, 0xFF, .sdStatus ⟨appRun 0 4, none⟩ none, 0xFF⟩).valid 0 = true
      ∧ sdv1Branch.cardClass = some .sdv1 ∧ (goodInit sdv1Branch ⟨csdRun, 0xFF, .csd csdRun, 0xFF⟩).valid 0 = true
      ∧ mmcBranch.cardClass = some .mmc ∧ (goodInit mmcBranch ⟨csdRun, 0xFF, .csd csdRun, 0xFF⟩).valid 0 = true
      ∧ sectorsStated csdP1 = true ∧ sectorsValue csdP1 = 15523840 := by decide +kernel
/-- The shortest wait, and the longest that ends. -/
theorem witness_InitializeOutcome :
    (State.resetWith 0 {}).busy = false ∧ (State.resetWith 0 {}).powerOnWaitMs < 2 ^ 32
      ∧ (State.resetWith 4294967295 {}).powerOnWaitMs < 2 ^ 32 := by decide

theorem witness_CsdFieldsAreBitRanges :
    (List.range 16).map (fun k => (0x400E00325B5900003B377F800A400001 : BitVec 128).extractLsb' (120 - 8 * k) 8) =
      csdP1 := by decide +kernel
/-- The largest version 2 field and the one below it; a shift factor of 9. -/
theorem witness_GeometryRanges :
    cSizeV2 [0x40, 0, 0, 0, 0, 0, 0, 0x3F, 0xFF, 0xFF] + 1 = 4194304
      ∧ cSizeV2 [0x40, 0, 0, 0, 0, 0, 0, 0x3F, 0xFF, 0xFE] + 1 < 4194304
      ∧ shiftV1 [0, 0, 0, 0, 0, 0x07, 0, 0, 0, 0, 0] = 9 := by decide
theorem witness_AddressConversion :
    (none : Option CardClass) ≠ some blockCard ∧ some CardClass.mmc ≠ some blockCard := by decide

/-- The numbering D3 suggests. -/
theorem test_suggested_numbering :
    [Result.ok, .error, .writeProtect, .notReady, .invalidParameter].map (Result.code {}) = [0, 1, 2, 3, 4] := by
  decide
/-- V-A9 of 95_test_vectors.md, `NotReady`, on a machine with another numbering. -/
theorem test_not_ready_number :
    (after (exec (.ioctlGetCid 0) { fresh [] [] with resultCodes := { notReady := 7 } })).bind State.resultCode =
      some 7 := by decide
/-- A numbering, two states that hand over different Results, and a step. -/
theorem witness_ResultNumbering :
    (∀ r r' : Result, r.code {} = r'.code {} → r = r')
      ∧ (fresh [] []).resultCodes = (ready blockCard [] []).resultCodes
      ∧ (after (step ((ready blockCard [] []).withFetchWord 8 0x04))).isSome = true := by
  refine ⟨fun r r' => ?_, rfl, by decide⟩
  cases r <;> cases r' <;> decide

end Sys2Proof.Tests
end

section
/-! The history of events (10_state.md R48): every step only adds to it, and `exec` never reads it. -/

namespace Sys2Proof.Machine

/-! ## The history only grows -/

theorem Bus.Follows.history {b c : Bus} (h : b.Follows c) : ∃ newer, c.history = b.history ++ newer := by
  obtain ⟨newer, htrace, -⟩ := h
  exact ⟨newer.reverse, by simp [Bus.history, htrace]⟩

/-- The reply of an operation clears the scratch and is no event (R28, R30). -/
theorem deliver_follows (r : Reply) (s : State) : s.bus.Follows (deliver r s).bus :=
  ⟨[], rfl, rfl, rfl, rfl, rfl⟩

theorem HostNext.follows {lo hi : Nat} {s t : State} (h : HostNext lo hi s t) : s.bus.Follows t.bus := by
  obtain ⟨-, ⟨r, rfl⟩ | ⟨op, hop, -, rfl⟩⟩ := h
  · exact deliver_follows r s
  · exact (hop.keeps { s with busy := true }).bus.trans (deliver_follows _ _)

theorem exec_initialize_follows (drv : Nat) (s t : State) (h : exec (.initializeCard drv) s = .next t) :
    s.bus.Follows t.bus := by
  obtain ⟨-, ⟨-, rfl⟩ | ⟨-, u, rfl, rfl⟩⟩ := exec_initialize_next drv s t h
  · exact deliver_follows _ s
  · exact (initBody_prepares.keeps { s with busy := true }).bus.trans (deliver_follows _ _)

theorem exec_wire_follows (i : Instr) (s t : State) (hi : i.isHost = false) (h : exec i s = .next t) :
    s.bus.Follows t.bus := by
  obtain ⟨op, hop, hexec⟩ := exec_wire i hi
  obtain rfl := Host.Outcome.next.inj ((hexec s).symm.trans h)
  exact (hop.keeps s).bus

theorem exec_follows (i : Instr) (s t : State) (h : exec i s = .next t) : s.bus.Follows t.bus := by
  cases hi : i.isHost with
  | false => exact exec_wire_follows i s t hi h
  | true =>
    by_cases hinit : ∃ drv, i = .initializeCard drv
    · obtain ⟨drv, rfl⟩ := hinit
      exact exec_initialize_follows drv s t h
    · exact (exec_host_next i s t hi (not_exists.1 hinit) h).follows

theorem environmentStep_follows (noMedia writeProtected : Bool) (s t : State)
    (h : environmentStep noMedia writeProtected s = .next t) : s.bus.Follows t.bus := by
  unfold environmentStep at h
  split at h
  · cases h
  · cases h
    exact .refl _

/-- Of the requests that name no instruction only an unknown host code reaches a next state, a reply alone (R108). -/
theorem undecodableStep_follows (e : DecodeError) (s t : State) (h : undecodableStep e s = .next t) :
    s.bus.Follows t.bus := by
  cases e with
  | unknownCode code =>
    have hanswer : hostCall (some .invalidParameter) .result (answer fun _ => .result .invalidParameter) s =
      .next t := h
    exact (answer_next (lo := 0) (hi := 0) hanswer).follows
  | empty | badLength | notAToken | notAFrame | unlistedCommand | badChecksum | badArgument => cases h

theorem step_follows (s t : State) (h : step s = .next t) : s.bus.Follows t.bus := by
  unfold step at h
  split at h
  case h_1 =>
    cases h
    exact .refl _
  case h_2 rest _ => exact environmentStep_follows _ _ { s with inputs := rest } t h
  case h_3 rest _ =>
    split at h
    case h_1 i _ => exact exec_follows i { s with inputs := rest } t h
    case h_2 e _ => exact undecodableStep_follows e { s with inputs := rest } t h

/-! ## The history is never read -/

section WithOlder
variable (older : List Event) (s : State)

@[simp] theorem State.withOlder_busy : (s.withOlder older).busy = s.busy := rfl
@[simp] theorem State.withOlder_status : (s.withOlder older).status = s.status := rfl

@[simp] theorem deliver_withOlder (r : Reply) : deliver r (s.withOlder older) = (deliver r s).withOlder older := rfl

end WithOlder

/-- The procedure answers the same whatever was before the history, and hands that on. -/
def Unread {α : Type} (op : Engine α) : Prop :=
  ∀ (s : State) (older : List Event), op (s.withOlder older) = ((op s).1, (op s).2.withOlder older)

theorem Steady.unread {α : Type} {lo hi : Nat} {op : Engine α} (h : Steady lo hi op) : Unread op := h.older

theorem answer_unread (f : State → Reply) (hf : ∀ s older, f (s.withOlder older) = f s) : Unread (answer f) :=
  fun s older => by rw [answer, hf]; rfl

theorem initOperation_unread : Unread initOperation := fun s older => by
  rw [initOperation_body, initBody_prepares.older, initOperation_body, State.withOlder_status]

section Calls
variable {op : Engine Reply} (hop : Unread op) (older : List Event) (s : State)
include hop

theorem runOperation_withOlder : runOperation op (s.withOlder older) = (runOperation op s).withOlder older := by
  have hrun : op { s.withOlder older with busy := true } = _ := hop { s with busy := true } older
  rw [runOperation, hrun, deliver_withOlder, runOperation]

theorem wireCall_withOlder : wireCall op (s.withOlder older) = mapNext (State.withOlder older) (wireCall op s) := by
  rw [wireCall, hop s older]
  rfl

theorem hostCall_withOlder (adm : Option Result) (turnedAway : Result → Reply) :
    hostCall adm turnedAway op (s.withOlder older) =
      mapNext (State.withOlder older) (hostCall adm turnedAway op s) := by
  cases hb : s.busy with
  | true => simp [hostCall, hb, mapNext]
  | false =>
    cases adm with
    | some r => simp [hostCall, hb, mapNext]
    | none => simp [hostCall, hb, mapNext, runOperation_withOlder hop]

theorem bufferCall_withOlder (adm : Option Result) (buf : HostBuf) (count : Nat) :
    bufferCall adm buf count op (s.withOlder older) =
      mapNext (State.withOlder older) (bufferCall adm buf count op s) := by
  cases hb : s.busy with
  | true => simp [bufferCall, hb, mapNext]
  | false =>
    cases adm with
    | some r => simp [bufferCall, hb, mapNext]
    | none =>
      by_cases hshort : buf.len < count * Config.sectorSize
      · simp [bufferCall, hb, hshort, mapNext]
      · simp [bufferCall, hb, hshort, mapNext, runOperation_withOlder hop]

/-- A wait that ends makes it a plain host operation (`waitCall_ends`); one that does not runs nothing. -/
theorem waitCall_withOlder (adm : Option Result) (turnedAway : Result → Reply) (waitMs : Nat) :
    waitCall adm turnedAway waitMs op (s.withOlder older) =
      mapNext (State.withOlder older) (waitCall adm turnedAway waitMs op s) := by
  cases hends : canExpire waitMs with
  | true => simp only [waitCall_ends hends, hostCall_withOlder hop]
  | false => cases hb : s.busy <;> cases adm <;> simp [waitCall, hb, hends, mapNext]

end Calls

/-- An operation that answers a register (R270 to R275, R281): the registers are the same under an older history. -/
theorem answerCall_withOlder (f : State → Reply) (hf : ∀ s older, f (s.withOlder older) = f s) (older : List Event)
    (s : State) (adm : Option Result) (turnedAway : Result → Reply) :
    hostCall adm turnedAway (answer f) (s.withOlder older) =
      mapNext (State.withOlder older) (hostCall adm turnedAway (answer f) s) :=
  hostCall_withOlder (answer_unread f hf) older s adm turnedAway

theorem exec_withOlder (i : Instr) (s : State) (older : List Event) :
    exec i (s.withOlder older) = mapNext (State.withOlder older) (exec i s) := by
  cases hi : i.isHost with
  | false =>
    obtain ⟨op, hop, hexec⟩ := exec_wire i hi
    rw [hexec, hexec, wireCall_withOlder hop.unread]
  | true =>
    cases i with
    | initializeCard drv => exact waitCall_withOlder initOperation_unread older s _ _ _
    | status drv => exact answerCall_withOlder _ (fun _ _ => rfl) older s _ _
    | read drv buf sector count => exact bufferCall_withOlder (readOperation_steady _ _ _).unread older s _ _ _
    | write drv buf sector count => exact bufferCall_withOlder (writeOperation_steady 0 0 _ _ _).unread older s _ _ _
    | sync => exact answerCall_withOlder (fun _ => .result .ok) (fun _ _ => rfl) older s none .result
    | sectorCount => exact answerCall_withOlder (fun s => .word s.sectorCount) (fun _ _ => rfl) older s none .result
    | sectorSize => exact answerCall_withOlder (fun s => .word s.sectorSize) (fun _ _ => rfl) older s none .result
    | eraseBlockSectors =>
      exact answerCall_withOlder (fun s => .word s.eraseBlockSectors) (fun _ _ => rfl) older s none .result
    | ioctlTrim drv st ed => exact hostCall_withOlder (trimOperation_steady 0 0 _ _).unread older s _ _
    | ioctlGetCid drv => exact hostCall_withOlder (query_steady 0 0 cidBody_tame).unread older s _ _
    | ioctlGetOcr drv => exact hostCall_withOlder (query_steady 0 0 ocrBody_tame).unread older s _ _
    | ioctlGetSdStatus drv => exact hostCall_withOlder (query_steady 0 0 sdStatusBody_tame).unread older s _ _
    | ioctlGetCardClass drv => exact answerCall_withOlder _ (fun _ _ => rfl) older s _ _
    | cmd0 | cmd1 | cmd8 | cmd9 | cmd10 | cmd12 | acmd13 | cmd16 | cmd17 | cmd18 | acmd23 | cmd24 | cmd25 | cmd32
    | cmd33 | cmd38 | acmd41 | cmd55 | cmd58 | tokStartData | tokMultiWrite | tokStopTran => cases hi

/-- Settles O17: a step's next state follows the history before it (`step_follows`), and every instruction commutes
with events put before the history (`exec_withOlder`). -/
theorem historyAppendOnly : Obligations.HistoryAppendOnly :=
  ⟨rfl, fun s t h => (step_follows s t h).history, exec_withOlder⟩

end Sys2Proof.Machine
end

section
/-! The tests on an R1 and on a data response, over all bytes (10_state.md R34, R36; 41_command_engine.md R158). -/

namespace Sys2Proof.Machine

section EveryByte
variable (resp : Byte)

/-- R34 (a): bit 7 is clear below 128. -/
theorem validR1_iff : validR1 resp = true ↔ resp.toNat < 128 := by
  simp [validR1, BitVec.msb_eq_decide]

theorem idleR1_iff : idleR1 resp = true ↔ resp.toNat = 1 := by
  simp [idleR1, ← BitVec.toNat_inj]

theorem acceptedR1_iff : acceptedR1 resp = true ↔ resp.toNat = 0 := by
  simp [acceptedR1, ← BitVec.toNat_inj]

theorem okOrIdleR1_iff : okOrIdleR1 resp = true ↔ resp.toNat = 0 ∨ resp.toNat = 1 := by
  rw [okOrIdleR1, decide_eq_true_iff]
  omega

/-- R36: the mask 0x1F keeps the remainder by 32, so that bits 7:5 play no part. -/
theorem toNat_and_drespMask : (resp &&& Config.drespMask).toNat = resp.toNat % 32 :=
  (BitVec.toNat_and resp Config.drespMask).trans (Nat.and_two_pow_sub_one_eq_mod resp.toNat 5)

theorem dataAccepted_iff : dataAccepted resp = true ↔ resp.toNat % 32 = 5 := by
  rw [dataAccepted, beq_iff_eq, ← BitVec.toNat_inj, toNat_and_drespMask]
  rfl

end EveryByte

/-- Settles O57: each of the five tests by its own lemma. -/
theorem responseDecoding : Obligations.ResponseDecoding := fun resp =>
  ⟨validR1_iff resp, idleR1_iff resp, acceptedR1_iff resp, okOrIdleR1_iff resp, dataAccepted_iff resp⟩

end Sys2Proof.Machine
end

section
/-! How a sector is named (20_memory.md R70, R71), and the single-sector transfers over it (45_block_io.md R251, R256)
with their round trip (20_memory.md R85). -/

namespace Sys2Proof.Machine

/-! ## The argument that names a sector -/

/-- R71: of the classes only the block-addressed one names a sector by its index. -/
theorem addr_of_ne_blockAddressed (c : Option CardClass) (sector : Word) (h : c ≠ some (.sdv2 .blockAddressed)) :
    addr c sector = sector * 512 := by
  match c, h with
  | none, _ | some .mmc, _ | some .sdv1, _ | some (.sdv2 .byteAddressed), _ => rfl
  | some (.sdv2 .blockAddressed), h => exact absurd rfl h

/-- Settles O55: 512 divides 2^32, so that the product modulo 2^32 is still a multiple of 512. -/
theorem addressConversion : Obligations.AddressConversion := by
  refine fun sector => ⟨rfl, fun c hc => ?_⟩
  have hproduct : (addr c sector).toNat = sector.toNat * 512 % 2 ^ 32 := by
    rw [addr_of_ne_blockAddressed c sector hc]
    exact BitVec.toNat_mul sector 512
  exact ⟨hproduct, by omega⟩

/-! ## read and write around their transfer -/

/-- `read` but for its close: the transfer of one sector or of several (R250); how many are missing. -/
def readTransfer (buf : HostBuf) (sector : Word) (count : Nat) : Engine Nat := do
  let c ← readClass
  if count = 1 then readSingle buf.base (addr c sector) else readMultiple buf.base count (addr c sector)

/-- `write` but for its close (R254). -/
def writeTransfer (buf : HostBuf) (sector : Word) (count : Nat) : Engine Nat := do
  let c ← readClass
  if count = 1 then writeSingle buf.base (addr c sector) else writeMultiple buf.base count c (addr c sector)

theorem readOperation_eq (buf : HostBuf) (sector : Word) (count : Nat) :
    readOperation buf sector count = readTransfer buf sector count >>= closeBlockIO := by
  funext s
  by_cases hc : count = 1 <;> simp [readOperation, readTransfer, hc]

theorem writeOperation_eq (buf : HostBuf) (sector : Word) (count : Nat) :
    writeOperation buf sector count = writeTransfer buf sector count >>= closeBlockIO := by
  funext s
  by_cases hc : count = 1 <;> simp [writeOperation, writeTransfer, hc]

section Admitted
variable (s : State) (buf : HostBuf) (sector : Word) (count : Nat)

theorem exec_read_admitted (ho : s.isOpen = true) (hc : count ≠ 0) (hl : count * Config.sectorSize ≤ buf.len) :
    exec (.read 0 buf sector count) s = .next (runOperation (readTransfer buf sector count >>= closeBlockIO) s) := by
  obtain ⟨hidle, hready⟩ := s.isOpen_iff.1 ho
  show bufferCall (admitRead 0 count s) buf count (readOperation buf sector count) s = _
  rw [admitRead_open s count hready hc, bufferCall_admitted buf count _ s hidle hl, readOperation_eq]

theorem exec_write_admitted (ho : s.isOpen = true) (hp : s.status.writeProtected = false) (hc : count ≠ 0)
    (hl : count * Config.sectorSize ≤ buf.len) :
    exec (.write 0 buf sector count) s =
      .next (runOperation (writeTransfer buf sector count >>= closeBlockIO) s) := by
  obtain ⟨hidle, hready⟩ := s.isOpen_iff.1 ho
  show bufferCall (admitWrite 0 count s) buf count (writeOperation buf sector count) s = _
  rw [admitWrite_open s count hready hp hc, bufferCall_admitted buf count _ s hidle hl, writeOperation_eq]

end Admitted

/-- A transfer and the close behind it, as a whole operation (R259, R263, R265). -/
theorem runOperation_close {transfer : Engine Nat} {s t : State} {k : Talk} {remaining : Nat} (y : Byte)
    (h : Does transfer { s with busy := true } k remaining t) :
    runOperation (transfer >>= closeBlockIO) (s.feed (k.append (deselectTalk y))) =
      t.returning (.result (if remaining = 0 then .ok else .error))
        (t.bus.settle {} .high (s.bus.heard (k.append (deselectTalk y)))) :=
  runOperation_does _ s t _ _ (h.bind (closeBlockIO_does remaining y t)) fun _ => closeBlockIO_high _ _

theorem readClass_does (s : State) : Does readClass s (Talk.join []) s.cardClass s :=
  Does.read State.cardClass (fun _ _ => rfl) s

/-! ## A single sector -/

/-- A block loop of one block holds exactly that block. -/
theorem BlocksFit.eq_singleton {α : Type} {ok : α → Bool} {xs : List α} (h : BlocksFit ok 1 xs) : ∃ x, xs = [x] := by
  have hpos := List.length_pos_iff.2 h.ne_nil
  exact List.length_eq_one_iff.1 (Nat.le_antisymm h.1 hpos)

/-- What a single-sector `read` is: CMD17 and one block if it was accepted, and no CMD12 (R251). -/
theorem ReadRun.single_of_valid (r : ReadRun) (h : r.valid 1 = true) :
    r.command.valid (cmd 17) = true ∧ r.stop = none
      ∧ ((r.command.accepted = true ∧ ∃ x, r.blocks = [x] ∧ x.valid Config.sectorSize = true)
        ∨ (r.command.accepted = false ∧ r.blocks = [])) := by
  simp only [ReadRun.valid, Bool.and_eq_true, beq_iff_eq] at h
  obtain ⟨⟨⟨⟨hcommand, hblocks⟩, -⟩, hstop⟩, hfit⟩ := h
  refine ⟨hcommand, by simpa using hstop, ?_⟩
  cases ha : r.command.accepted with
  | true =>
    simp only [ha, if_true, Bool.and_eq_true, decide_eq_true_eq] at hfit
    obtain ⟨⟨hlen, hinit⟩, hlast⟩ := hfit
    obtain ⟨x, hx⟩ := BlocksFit.eq_singleton (ok := fun x : Reception => x.data.isSome)
      ⟨hlen, hinit, by simpa using hlast⟩
    exact .inl ⟨rfl, x, hx, by simpa [hx] using hblocks⟩
  | false => exact .inr ⟨rfl, by simpa [ha] using hfit⟩

/-- What a single-sector `write` is: CMD24 and one block if it was accepted, without ACMD23 and stop token (R256). -/
theorem WriteRun.single_of_valid (sd : Bool) (r : WriteRun) (h : r.valid sd 1 = true) :
    r.declare = none ∧ r.command.valid (cmd 24) = true ∧ r.stop = none
      ∧ ((r.command.accepted = true ∧ ∃ x, r.blocks = [x] ∧ x.valid = true)
        ∨ (r.command.accepted = false ∧ r.blocks = [])) := by
  simp only [WriteRun.valid, Bool.and_eq_true, beq_iff_eq] at h
  obtain ⟨⟨⟨⟨⟨⟨hdeclare, -⟩, hcommand⟩, hblocks⟩, -⟩, hstop⟩, hfit⟩ := h
  refine ⟨by simpa using hdeclare, hcommand, by simpa using hstop, ?_⟩
  cases ha : r.command.accepted with
  | true =>
    simp only [ha, if_true, Bool.and_eq_true, decide_eq_true_eq] at hfit
    obtain ⟨⟨hlen, hinit⟩, hlast⟩ := hfit
    obtain ⟨x, hx⟩ := BlocksFit.eq_singleton ⟨hlen, hinit, hlast⟩
    exact .inl ⟨rfl, x, hx, by simpa [hx] using hblocks⟩
  | false => exact .inr ⟨rfl, by simpa [ha] using hfit⟩

/-- R251, for every way the bus can answer it. -/
theorem readSingle_does (base : Nat) (a : Word) (r : ReadRun) (s : State) (h : r.valid 1 = true) :
    Does (readSingle base a) s (Talk.join [r.command.talk (cmd 17) a, Talk.join (r.blocks.map Reception.talk)])
      (1 - (r.blocks.filterMap Reception.data).length) { s with mem := s.mem.writeBytes base r.stored } := by
  obtain ⟨hcommand, -, hblocks⟩ := r.single_of_valid h
  obtain ⟨command, blocks, stop, release⟩ := r
  refine Does.accepted (cmd 17) a command hcommand (fun ha => ?_) (fun ha => ?_)
  · obtain ⟨-, x, rfl, hx⟩ | ⟨hn, -⟩ := hblocks
    · refine Does.congr (l := Talk.join [Talk.join [x.talk]])
        (Does.bind (l := Talk.join []) (receiveTo_does base Config.sectorSize x s hx) ?_) (by simp)
      cases hd : x.data with
      | none => simpa [ReadRun.stored, hd, Memory.writeBytes] using Does.pure 1 s
      | some data => simpa [ReadRun.stored, hd] using Does.pure 0 { s with mem := s.mem.writeBytes base data }
    · simp [ha] at hn
  · obtain ⟨hn, -⟩ | ⟨-, rfl⟩ := hblocks
    · simp [ha] at hn
    · exact ⟨rfl, rfl, rfl⟩

/-- R256, for every way the bus can answer it. -/
theorem writeSingle_does (sd : Bool) (base : Nat) (a : Word) (r : WriteRun) (s : State) (h : r.valid sd 1 = true) :
    Does (writeSingle base a) s
      (Talk.join [r.command.talk (cmd 24) a, blocksTalk s.mem Config.tokenStart base r.blocks])
      (1 - (r.blocks.filter Transmission.ok).length) s := by
  obtain ⟨-, hcommand, -, hblocks⟩ := r.single_of_valid sd h
  obtain ⟨declare, command, blocks, stop, release⟩ := r
  refine Does.accepted (cmd 24) a command hcommand (fun ha => ?_) (fun ha => ?_)
  · obtain ⟨-, x, rfl, hx⟩ | ⟨hn, -⟩ := hblocks
    · refine Does.congr (Does.bind (l := Talk.join []) (transmitFrom_does base Config.tokenStart x s hx (by decide)) ?_)
        (by simp [blocksTalk])
      cases hok : x.ok with
      | false => simpa [hok] using Does.pure 1 s
      | true => simpa [hok] using Does.pure 0 s
    · simp [ha] at hn
  · obtain ⟨hn, -⟩ | ⟨-, rfl⟩ := hblocks
    · simp [ha] at hn
    · exact ⟨rfl, rfl, rfl⟩

theorem ReadRun.talk_single (r : ReadRun) (a : Word) (h : r.valid 1 = true) :
    r.talk 1 a = (Talk.join [r.command.talk (cmd 17) a, Talk.join (r.blocks.map Reception.talk)]).append
      (deselectTalk r.release) := by
  obtain ⟨-, hstop, -⟩ := r.single_of_valid h
  simp [ReadRun.talk, transferCommand, hstop, Talk.join_cons, Talk.append_assoc]

theorem WriteRun.talk_single (sd : Bool) (r : WriteRun) (mem : Memory) (base : Nat) (a : Word)
    (h : r.valid sd 1 = true) :
    r.talk mem base 1 a = (Talk.join [r.command.talk (cmd 24) a, blocksTalk mem Config.tokenStart base r.blocks]).append
      (deselectTalk r.release) := by
  obtain ⟨hdeclare, -, hstop, -⟩ := r.single_of_valid sd h
  simp [WriteRun.talk, transferCommand, hdeclare, hstop, Talk.join_cons, Talk.append_assoc]

/-- R265: nothing is missing iff the one block arrived. -/
theorem ReadRun.result_single (r : ReadRun) (h : r.valid 1 = true) :
    r.result 1 = if 1 - (r.blocks.filterMap Reception.data).length = 0 then .ok else .error := by
  obtain ⟨-, -, ⟨-, x, hx, -⟩ | ⟨-, hnil⟩⟩ := r.single_of_valid h
  · cases hd : x.data <;> simp [ReadRun.result, hx, hd]
  · simp [ReadRun.result, hnil]

/-- R259: nothing is missing iff the one block was accepted. -/
theorem WriteRun.result_single (sd : Bool) (r : WriteRun) (h : r.valid sd 1 = true) :
    r.result 1 = if 1 - (r.blocks.filter Transmission.ok).length = 0 then .ok else .error := by
  obtain ⟨-, -, hstop, ⟨-, x, hx, -⟩ | ⟨-, hnil⟩⟩ := r.single_of_valid sd h
  · cases hok : x.ok <;> simp [WriteRun.result, hx, hok, hstop]
  · simp [WriteRun.result, hnil]

/-- A single-sector `read`, for every way the bus can answer it. -/
theorem exec_read_single (s : State) (buf : HostBuf) (sector : Word) (r : ReadRun) (ho : s.isOpen = true)
    (hl : 512 ≤ buf.len) (h : r.valid 1 = true) :
    exec (.read 0 buf sector 1) (s.feed (r.talk 1 (addr s.cardClass sector))) =
      .next (({ s with mem := s.mem.writeBytes buf.base r.stored } : State).returning (.result (r.result 1))
        ((s.bus.heard (r.talk 1 (addr s.cardClass sector))).withCs .high)) := by
  have htransfer : Does (readTransfer buf sector 1) { s with busy := true } _ _ _ :=
    ((readClass_does _).bind (readSingle_does buf.base (addr s.cardClass sector) r _ h)).congr (Talk.nil_append _)
  rw [exec_read_admitted (s.feed _) buf sector 1 ho Nat.one_ne_zero hl, r.talk_single _ h, r.result_single h,
    runOperation_close r.release htransfer]
  rfl

/-- A single-sector `write`, for every way the bus can answer it. -/
theorem exec_write_single (s : State) (buf : HostBuf) (sector : Word) (r : WriteRun) (ho : s.isOpen = true)
    (hp : s.status.writeProtected = false) (hl : 512 ≤ buf.len) (h : r.valid (isSdFamily s.cardClass) 1 = true) :
    exec (.write 0 buf sector 1) (s.feed (r.talk s.mem buf.base 1 (addr s.cardClass sector))) =
      .next (s.returning (.result (r.result 1))
        ((s.bus.heard (r.talk s.mem buf.base 1 (addr s.cardClass sector))).withCs .high)) := by
  have htransfer : Does (writeTransfer buf sector 1) { s with busy := true } _ _ _ :=
    ((readClass_does _).bind (writeSingle_does _ buf.base (addr s.cardClass sector) r _ h)).congr (Talk.nil_append _)
  rw [exec_write_admitted (s.feed _) buf sector 1 ho hp Nat.one_ne_zero hl, r.talk_single _ _ _ _ h,
    r.result_single _ h, runOperation_close r.release htransfer]
  rfl

/-! ## The round trip (R85) -/

/-- The bytes sent by exchanges that send `sent`. -/
theorem sendTalk_sent (sent received : List Byte) (h : received.length = sent.length) :
    (sendTalk sent received).events.filterMap Event.sent = sent := by
  induction sent generalizing received with
  | nil => rfl
  | cons o os ih =>
    obtain ⟨i, is, rfl⟩ := List.exists_cons_of_length_eq_add_one h
    exact congrArg (o :: ·) (ih is (Nat.succ.inj h))

theorem Sent.onData_length (p : Sent) (h : p.valid = true) : p.onData.length = 512 := by
  simp only [Sent.valid, Bool.and_eq_true, beq_iff_eq] at h
  exact h.2

/-- Settles O41: the `write` leaves memory, class and the open gate as they were (`exec_write_single`), so that the
`read` names the same sector and stores what it is answered (`exec_read_single`): the bytes sent behind the token, which
are the buffer's (`sendTalk_sent`). -/
theorem roundTrip : Obligations.RoundTrip := by
  intro s src dst sector w p r q t ho hp hm hsrc hdst hw hwrote hacc hexec hr hcame hdata
  rw [exec_write_single s src sector w ho hp hsrc hw] at hexec
  obtain rfl := Host.Outcome.next.inj hexec
  have hwok : w.result 1 = .ok := by simp [w.result_single _ hw, hwrote, Transmission.ok, hacc]
  have hrok : r.result 1 = .ok := by simp [r.result_single hr, hcame, Reception.data]
  have hsent : p.valid = true := by
    obtain ⟨-, -, -, ⟨-, x, hx, hvalid⟩ | ⟨-, hnone⟩⟩ := w.single_of_valid _ hw
    · obtain rfl := List.singleton_inj.1 (hwrote.symm.trans hx)
      exact hvalid
    · simp [hwrote] at hnone
  have hstored : r.stored = s.mem.readBytes src.base 512 := by
    have hlength : p.onData.length = (s.mem.readBytes src.base 512).length := by
      rw [p.onData_length hsent, Memory.readBytes_length]
    rw [sendTalk_sent _ _ hlength] at hdata
    simp [ReadRun.stored, hcame, Reception.data, hdata]
  have hopen : (s.returning (.result (w.result 1))
      ((s.bus.heard (w.talk s.mem src.base 1 (addr s.cardClass sector))).withCs .high)).isOpen = true :=
    (State.isOpen_iff _).2 ⟨rfl, (s.isOpen_iff.1 ho).2⟩
  have hback := Memory.readBytes_writeBytes (s.mem.readBytes src.base 512) dst.base s.mem hm
  rw [Memory.readBytes_length] at hback
  refine ⟨by simp [hwok], by simp [Bus.history], _, exec_read_single _ dst sector r hopen hdst hr, ?_, ?_, ?_⟩
  · simp [hrok]
  · simp [Bus.history]
  · simp [hstored, hback]

end Sys2Proof.Machine
end

section
/-! A command frame read as one word of 48 bits, the first byte most significant (30_encoding.md R94, R95, R98). -/

namespace Sys2Proof.Machine

/-- A wire command is encoded as the frame of its code's index and its argument (R94, R99). -/
theorem encode_bytes_of_commandOf (i : Instr) (c : CommandCode) (arg : Word) (h : commandOf i = some (c, arg)) :
    (encode i).bytes = frameBytes c.index arg := by
  cases i with
  | cmd0 | cmd1 | cmd8 | cmd9 | cmd10 | cmd12 | acmd13 | cmd16 | cmd17 | cmd18 | acmd23 | cmd24 | cmd25 | cmd32 | cmd33
  | cmd38 | acmd41 | cmd55 | cmd58 => cases h; rfl
  | initializeCard | status | read | write | sync | sectorCount | sectorSize | eraseBlockSectors | ioctlTrim
  | ioctlGetCid | ioctlGetOcr | ioctlGetSdStatus | ioctlGetCardClass | tokStartData | tokMultiWrite | tokStopTran =>
    cases h

/-- R95: start bit 0 and transmission bit 1 above the index. -/
theorem frameHead_eq_append (index : CmdIndex) : frameHead index = 0b01#2 ++ index := by
  revert index; decide

/-- Four bytes put behind others one by one are the word they join to, put behind them. -/
theorem append_bytes_eq_append_joinArg {n : Nat} (head : BitVec n) (a3 a2 a1 a0 : Byte) :
    head ++ a3 ++ a2 ++ a1 ++ a0 = head ++ joinArg a3 a2 a1 a0 := by
  simp only [joinArg, BitVec.append_assoc, BitVec.cast_eq]

/-- Settles O3: the bytes are those of the frame (`encode_bytes_of_commandOf`), whose first is 01 and the index
(`frameHead_eq_append`), whose next four join to the argument (`joinArg_argBytes`), and whose last is `checksumByte` of
the index (R98). -/
theorem frameBits : Obligations.FrameBits := by
  intro i c arg h
  refine ⟨_, _, _, _, _, _, encode_bytes_of_commandOf i c arg h, ?_⟩
  rw [append_bytes_eq_append_joinArg (frameHead c.index), joinArg_argBytes, frameHead_eq_append]
  rfl

end Sys2Proof.Machine
end

section
/-! A wire command with the bytes that follow its R1 unframed, for every way the bus can answer (41_command_engine.md
R150 to R157; 30_encoding.md R101). -/

namespace Sys2Proof.Machine

/-- The instruction is the whole transaction of the command code `c` with the argument `arg`, and of the bytes that
follow its R1 unframed, for every way the bus can answer. -/
def Converses (i : Instr) (c : CommandCode) (arg : Word) : Prop :=
  ∀ (s : State) (r : CommandRun) (tail : List Byte), r.valid c = true → tail.length = tailLength i r.resp →
    exec i (s.feed (Talk.join [r.talk c arg, fillTalk tail])) =
      .next { s with
        bus := (((s.bus.heard (Talk.join [r.talk c arg, fillTalk tail])).withScratch
          fun x => tailNote i tail (r.note x)).withCs r.level)
        reply := some (.response r.resp) }

@[simp] theorem Talk.join_fillTalk_nil (k : Talk) : Talk.join [k, fillTalk []] = k := Talk.append_nil k

@[simp] theorem tailNote_nil (i : Instr) (x : Scratch) : tailNote i [] x = x := rfl

theorem Converses.ofPlain {i : Instr} {c : CommandCode} {arg : Word} (hexec : ∀ s, exec i s = plainCommand c arg s)
    (hlength : ∀ resp, tailLength i resp = 0) : Converses i c arg := by
  intro s r tail hr htail
  obtain rfl : tail = [] := List.eq_nil_of_length_eq_zero (htail.trans (hlength r.resp))
  simp only [hexec, Talk.join_fillTalk_nil, tailNote_nil, plainCommand_run c arg s r hr]

/-- `n` bytes follow an R1 that passes `test`, and `op` reads them. -/
theorem Converses.ofTail {α : Type} {i : Instr} {c : CommandCode} {arg : Word} {test : Byte → Bool} {op : Transport α}
    {n : Nat} (hexec : ∀ s, exec i s = tailCommand c arg test op s)
    (hlength : ∀ resp, tailLength i resp = if test resp then n else 0)
    (hop : ∀ tail : List Byte, tail.length = n → ∃ x, ∀ b : Bus,
      op (b.feed (fillTalk tail)) = (x, (b.heard (fillTalk tail)).withScratch (tailNote i tail))) :
    Converses i c arg := by
  intro s r tail hr htail
  rw [hlength] at htail
  cases htest : test r.resp with
  | true =>
    rw [if_pos htest] at htail
    obtain ⟨x, hx⟩ := hop tail htail
    rw [hexec, tailCommand_run c arg test op (fillTalk tail) (tailNote i tail) x s r hr htest hx]
  | false =>
    obtain rfl : tail = [] := List.eq_nil_of_length_eq_zero (by simpa [htest] using htail)
    simp only [hexec, Talk.join_fillTalk_nil, tailNote_nil, tailCommand_none c arg test op s r hr htest]

/-! ## The commands with unframed bytes (R101) -/

theorem tailLength_cmd8 (resp : Byte) : tailLength .cmd8 resp = if idleR1 resp then 4 else 0 := by
  simp [tailLength, idleR1]

theorem tailLength_cmd58 (resp : Byte) : tailLength .cmd58 resp = if acceptedR1 resp then 4 else 0 := by
  simp [tailLength, acceptedR1]

theorem tailLength_acmd13 (resp : Byte) : tailLength .acmd13 resp = if acceptedR1 resp then 1 else 0 := by
  simp [tailLength, acceptedR1]

theorem tailNote_cmd8 {tail : List Byte} (h : tail.length = 4) : tailNote .cmd8 tail = .noteR7 tail := by
  funext x
  simp [tailNote, h]

theorem tailNote_cmd58 {tail : List Byte} (h : tail.length = 4) : tailNote .cmd58 tail = .noteOcr tail := by
  funext x
  simp [tailNote, h]

theorem tailNote_acmd13 {tail : List Byte} (h : tail.length = 1) : tailNote .acmd13 tail = id := by
  funext x
  simp [tailNote, h]

/-- R162: the four bytes are kept as `r7`. -/
theorem cmd8_converses : Converses .cmd8 (cmd 8) Config.cmd8Pattern :=
  .ofTail (fun _ => rfl) tailLength_cmd8 fun tail h =>
    ⟨tail, fun b => by rw [tailNote_cmd8 h, readR7_feed tail b h]⟩

/-- R178: the four bytes are kept as `ocr`. -/
theorem cmd58_converses : Converses .cmd58 (cmd 58) 0 :=
  .ofTail (fun _ => rfl) tailLength_cmd58 fun tail h =>
    ⟨tail, fun b => by rw [tailNote_cmd58 h, readOcr_feed tail b h]⟩

/-- R166: the one byte is discarded. -/
theorem acmd13_converses : Converses .acmd13 (acmd 13) 0 :=
  .ofTail (fun _ => rfl) tailLength_acmd13 fun tail h =>
    ⟨(), fun b => by rw [tailNote_acmd13 h, fillBytes_feed_of_length 1 tail b h]; rfl⟩

/-- Settles O30: sixteen commands are the plain transaction alone (`Converses.ofPlain`, over `plainCommand_run`); bytes
follow the R1 of CMD8, CMD58 and ACMD13 (`Converses.ofTail`). -/
theorem commandConversation : Obligations.CommandConversation := by
  show ∀ (i : Instr) (c : CommandCode) (arg : Word), commandOf i = some (c, arg) → Converses i c arg
  intro i c arg h
  cases i with
  | cmd8 => cases h; exact cmd8_converses
  | cmd58 => cases h; exact cmd58_converses
  | acmd13 => cases h; exact acmd13_converses
  | cmd0 | cmd1 | cmd9 | cmd10 | cmd12 | cmd16 | cmd17 | cmd18 | acmd23 | cmd24 | cmd25 | cmd32 | cmd33 | cmd38 | acmd41
  | cmd55 => cases h; exact .ofPlain (fun _ => rfl) fun _ => rfl
  | initializeCard | status | read | write | sync | sectorCount | sectorSize | eraseBlockSectors | ioctlTrim
  | ioctlGetCid | ioctlGetOcr | ioctlGetSdStatus | ioctlGetCardClass | tokStartData | tokMultiWrite | tokStopTran =>
    cases h

end Sys2Proof.Machine
end

section
/-! The three tokens (42_block_transfer.md R190 to R195), for every way the bus can answer: what `receiveBlock`,
`transmitBlock` and `sendStop` do to the transport side (`receiveBlock_run`, `transmitBlock_run`, `sendStop_run`), carried
to the whole state and to the reply. -/

namespace Sys2Proof.Machine

/-- A conversation of the transport side is one of the engine's, the rest of the state untouched. -/
theorem onBus_feed {α : Type} {m : Transport α} {k : Talk} {x : α} {f : Scratch → Scratch} {s : State}
    (h : m (s.bus.feed k) = (x, (s.bus.heard k).withScratch f)) :
    onBus m (s.feed k) = (x, s.withBus ((s.bus.heard k).withScratch f)) := by
  rw [onBus_apply, State.feed_bus, h]
  rfl

/-- A token's reply is its outcome, whatever state that leaves. -/
theorem wireCall_tokenReply {m : Engine Bool} {s t : State} {ok : Bool} (h : m s = (ok, t)) :
    wireCall (tokenReply m) s = .next { t with reply := some (.token ok) } := by
  rw [wireCall, tokenReply, bind_apply, h, pure_apply]

/-- R190: the destination is written on success alone, and then with the whole packet. -/
theorem receiveTo_run (dst len : Nat) (r : Reception) (s : State) (h : r.valid len = true) :
    receiveTo dst len (s.feed r.talk) =
      (r.data.isSome, { s with
        bus := (s.bus.heard r.talk).withScratch r.note
        mem := (r.data.map (s.mem.writeBytes dst)).getD s.mem }) := by
  rw [receiveTo, bind_apply, onBus_feed (receiveBlock_run len r s.bus h)]
  cases r.data with
  | none => rfl
  | some data => rfl

/-- R193: the packet sent is the 512 bytes from `src` up. -/
theorem transmitFrom_run (src : Nat) (token : Byte) (r : Transmission) (s : State) (h : r.valid = true)
    (ht : token ≠ Config.tokenStop) :
    transmitFrom src token (s.feed (r.talk token (s.mem.readBytes src 512))) =
      (r.ok, s.withBus ((s.bus.heard (r.talk token (s.mem.readBytes src 512))).withScratch r.note)) :=
  onBus_feed (transmitBlock_run _ token r s.bus h (Memory.readBytes_length ..) ht)

/-- Settles O32: `receiveTo_run` over the three ways a reception ends. -/
theorem receivedPacket : Obligations.ReceivedPacket := by
  intro s dst len r h
  refine (wireCall_tokenReply (receiveTo_run dst len r s h)).trans ?_
  cases r with
  | packet p => rfl
  | badToken p => rfl
  | noToken p => rfl

/-- Settles O33: neither start token is the stop token, so that `transmitFrom_run` holds behind both. -/
theorem transmittedPacket : Obligations.TransmittedPacket := by
  intro s src r h
  have hstart := transmitFrom_run src Config.tokenStart r s h (by decide)
  have hmulti := transmitFrom_run src Config.tokenMulti r s h (by decide)
  exact ⟨wireCall_tokenReply hstart, wireCall_tokenReply hmulti⟩

/-- Settles O34: `sendStop_run` over either end of the ready wait, carried to the whole state. -/
theorem stopToken : Obligations.StopToken := fun s r h =>
  wireCall_tokenReply (onBus_feed (sendStop_run r s.bus h))

end Sys2Proof.Machine
end

section
/-! `initialize` for every way the bus can answer it (43_init_fsm.md R202): its call past admission, shared by both ends
of the classification, and the end without a class (R214, 60_exceptions.md R302). -/

namespace Sys2Proof.Machine

/-- A run whose classification names no class ends, behind its opening, with the power-down (R214). -/
theorem InitRun.talk_of_none {powerOnMs : Nat} {r : InitRun} (hv : r.valid powerOnMs = true)
    (hc : r.classify.cardClass = none) : ∃ d : Delay, d.valid Config.tPowerDownMs = true
      ∧ r.talk = r.opening.append ((lineTalk (.pwr .off)).append d.talk) := by
  simp only [InitRun.valid, hc, Bool.and_eq_true, Option.any_eq_true] at hv
  obtain ⟨-, -, d, hd, hdv⟩ := hv
  exact ⟨d, hdv, by simp [InitRun.talk, hc, hd, Talk.join_cons]⟩

/-- A run of `initialize` past its admission, from what its operation does: the power-on wait ends (`InitRun.canExpire`)
and the operation leaves the card deselected (`initOperation_high`). -/
theorem exec_initialize_run {s t : State} {r : InitRun} {y : Reply} (hb : s.busy = false)
    (hv : r.valid s.powerOnWaitMs = true) (h : Does initOperation { s with busy := true } r.talk y t) :
    exec (.initializeCard 0) (s.feed r.talk) = .next (t.returning y (t.bus.settle {} .high (s.bus.heard r.talk))) :=
  calc exec (.initializeCard 0) (s.feed r.talk)
    _ = hostCall none (fun _ => .status badDriveStatus) initOperation (s.feed r.talk) :=
      waitCall_ends (InitRun.canExpire hv) none (fun _ => .status badDriveStatus) initOperation (s.feed r.talk)
    _ = .next (runOperation initOperation (s.feed r.talk)) := hostCall_admitted _ _ _ hb
    _ = _ := congrArg _ (runOperation_does _ _ _ _ _ h initOperation_high)

/-- R202, R214: a classification without a class turns the supply off and leaves `NotInitialized` set. -/
theorem initOperation_fails (s : State) (r : InitRun) (hv : r.valid s.powerOnWaitMs = true)
    (hc : r.classify.cardClass = none) :
    Does initOperation s r.talk (.status s.status.setNotInitialized)
      { s with
        status := s.status.setNotInitialized
        cardClass := none
        phase := .failed
        bus := { s.bus with pwr := .off, clk := .slow } } := by
  obtain ⟨d, hd, hk⟩ := InitRun.talk_of_none hv hc
  obtain ⟨ph, opening⟩ := opening_does s r hv
  rw [initOperation_eq, hk]
  refine opening _ _ _ _ ?_
  simp only [hc]
  have hreply := Does.read (fun s => Reply.status s.status) (fun _ _ => rfl)
  exact Does.congr (Does.bind (initFailed_does _ d hd) (hreply _)) (Talk.append_nil _)

/-- Settles O45: the operation's failing end (`initOperation_fails`) through the shared call (`exec_initialize_run`). -/
theorem initializeFails : Obligations.InitializeFails := fun s r hb hv hc =>
  exec_initialize_run hb hv (initOperation_fails { s with busy := true } r hv hc)

end Sys2Proof.Machine
end

section
/-! The geometry formulas (44_geometry.md R233 to R241): how far each field of the card's registers reaches, and that no
formula over these fields leaves 32 bits but the version 2 count at its largest field. -/

namespace Sys2Proof.Machine

/-! ## The fields' ranges (R39, R49) -/

/-- A masked byte is no larger than its mask. -/
theorem toNat_and_le_mask (b m : Byte) : (b &&& m).toNat ≤ m.toNat := by
  rw [BitVec.toNat_and]
  exact Nat.and_le_right

theorem readBlLen_lt (csd : List Byte) : readBlLen csd < 16 :=
  Nat.lt_succ_of_le (toNat_and_le_mask (byteAt csd 5) 0x0F)

theorem auCode_lt (sds : List Byte) : auCode sds < 16 :=
  BitVec.toNat_ushiftRight_lt (byteAt sds 10) 4 (by decide)

theorem cSizeMult_lt (csd : List Byte) : cSizeMult csd < 8 := by
  have hhigh : (byteAt csd 9 &&& 0x03).toNat ≤ 3 := toNat_and_le_mask _ _
  have hlow : (byteAt csd 10 >>> 7).toNat < 2 := BitVec.toNat_ushiftRight_lt _ _ (by decide)
  rw [cSizeMult, Nat.shiftLeft_eq]
  omega

theorem cSizeV1_lt (csd : List Byte) : cSizeV1 csd < 4096 := by
  have hhigh : (byteAt csd 6 &&& 0x03).toNat ≤ 3 := toNat_and_le_mask _ _
  have hmid : (byteAt csd 7).toNat < 256 := (byteAt csd 7).isLt
  have hlow : (byteAt csd 8 >>> 6).toNat < 4 := BitVec.toNat_ushiftRight_lt _ _ (by decide)
  rw [cSizeV1, Nat.shiftLeft_eq, Nat.shiftLeft_eq]
  omega

theorem cSizeV2_lt (csd : List Byte) : cSizeV2 csd < 4194304 := by
  have hhigh : (byteAt csd 7 &&& 0x3F).toNat ≤ 63 := toNat_and_le_mask _ _
  have hmid : (byteAt csd 8).toNat < 256 := (byteAt csd 8).isLt
  have hlow : (byteAt csd 9).toNat < 256 := (byteAt csd 9).isLt
  rw [cSizeV2, Nat.shiftLeft_eq, Nat.shiftLeft_eq]
  omega

theorem sectorSizeSd_lt (csd : List Byte) : sectorSizeSd csd < 128 := by
  have hhigh : (byteAt csd 10 &&& 0x3F).toNat ≤ 63 := toNat_and_le_mask _ _
  have hlow : (byteAt csd 11 >>> 7).toNat < 2 := BitVec.toNat_ushiftRight_lt _ _ (by decide)
  rw [sectorSizeSd, Nat.shiftLeft_eq]
  omega

theorem eraseGrpSize_lt (csd : List Byte) : eraseGrpSize csd < 32 := by
  have hmask : (byteAt csd 10 &&& 0x7C).toNat ≤ 124 := toNat_and_le_mask _ _
  rw [eraseGrpSize, BitVec.toNat_ushiftRight, Nat.shiftRight_eq_div_pow]
  omega

theorem eraseGrpMult_lt (csd : List Byte) : eraseGrpMult csd < 32 := by
  have hhigh : (byteAt csd 10 &&& 0x03).toNat ≤ 3 := toNat_and_le_mask _ _
  have hlow : (byteAt csd 11 >>> 5).toNat < 8 := BitVec.toNat_ushiftRight_lt _ _ (by decide)
  rw [eraseGrpMult, Nat.shiftLeft_eq]
  omega

/-- R234: the shift factor of a version 1 CSD is the sum of two fields and 2. -/
theorem shiftV1_range (csd : List Byte) : 2 ≤ shiftV1 csd ∧ shiftV1 csd ≤ 24 := by
  have hlen := readBlLen_lt csd
  have hmult := cSizeMult_lt csd
  rw [shiftV1]
  omega

/-! ## The formulas' values: narrowing to 32 bits loses nothing below 2^32 (R241) -/

/-- A quantity within a bound that fits a word is narrowed to itself, and so keeps the bound. -/
theorem toNat_ofNat_of_le {n bound : Nat} (h : n ≤ bound) (hb : bound < 2 ^ 32) :
    (BitVec.ofNat 32 n).toNat = n ∧ (BitVec.ofNat 32 n).toNat ≤ bound := by
  have hn : (BitVec.ofNat 32 n).toNat = n := Nat.mod_eq_of_lt (h.trans_lt hb)
  exact ⟨hn, hn.le.trans h⟩

/-- R233 below the largest field. -/
theorem sectorsV2_toNat (csd : List Byte) (h : cSizeV2 csd + 1 < 4194304) :
    (sectorsV2 csd).toNat = (cSizeV2 csd + 1) * 1024 := by
  rw [sectorsV2, Nat.shiftLeft_eq]
  exact (toNat_ofNat_of_le (Nat.mul_le_mul_right 1024 (Nat.le_of_lt_succ h)) (by decide)).1

/-- R233, U13: at the largest field the count is 2^32 and wraps. -/
theorem sectorsV2_of_largest (csd : List Byte) (h : cSizeV2 csd + 1 = 4194304) : sectorsV2 csd = 0 := by
  rw [sectorsV2, h]
  decide

/-- R234: at most 2^12 times 2^15. -/
theorem sectorsV1_value (csd : List Byte) :
    (sectorsV1 csd).toNat = (cSizeV1 csd + 1) * 2 ^ (shiftV1 csd - 9) ∧ (sectorsV1 csd).toNat ≤ 2 ^ 27 := by
  have hpow : 2 ^ (shiftV1 csd - 9) ≤ 2 ^ 15 :=
    Nat.pow_le_pow_right (by decide) (Nat.sub_le_sub_right (shiftV1_range csd).2 9)
  have hcount : (cSizeV1 csd + 1) * 2 ^ (shiftV1 csd - 9) ≤ 2 ^ 27 :=
    calc (cSizeV1 csd + 1) * 2 ^ (shiftV1 csd - 9)
      _ ≤ 2 ^ 12 * 2 ^ 15 := Nat.mul_le_mul (cSizeV1_lt csd) hpow
      _ = 2 ^ 27 := (pow_add 2 12 15).symm
  rw [sectorsV1, Nat.shiftLeft_eq]
  exact toNat_ofNat_of_le hcount (by decide)

/-- R237: at most 16 times 2^15. -/
theorem eraseSectorsSdv2_value (sds : List Byte) :
    (eraseSectorsSdv2 sds).toNat = 16 * 2 ^ auCode sds ∧ (eraseSectorsSdv2 sds).toNat ≤ 524288 := by
  have hpow : 2 ^ auCode sds ≤ 2 ^ 15 := Nat.pow_le_pow_right (by decide) (Nat.le_of_lt_succ (auCode_lt sds))
  rw [eraseSectorsSdv2, Nat.shiftLeft_eq]
  exact toNat_ofNat_of_le (Nat.mul_le_mul_left 16 hpow) (by decide)

/-- R238: with `WBL_SHIFT_SDV1 = 0` the formula is the field plus 1. -/
theorem eraseSectorsSdv1_value (csd : List Byte) :
    (eraseSectorsSdv1 csd).toNat = sectorSizeSd csd + 1 ∧ (eraseSectorsSdv1 csd).toNat ≤ 128 :=
  toNat_ofNat_of_le (sectorSizeSd_lt csd) (by decide)

/-- R239: at most 32 times 32. -/
theorem eraseSectorsMmc_value (csd : List Byte) :
    (eraseSectorsMmc csd).toNat = (eraseGrpSize csd + 1) * (eraseGrpMult csd + 1)
      ∧ (eraseSectorsMmc csd).toNat ≤ 1024 :=
  toNat_ofNat_of_le (Nat.mul_le_mul (eraseGrpSize_lt csd) (eraseGrpMult_lt csd)) (by decide)

/-- Settles O54: each formula's value lemma, over the ranges of the fields it is made of. -/
theorem geometryRanges : Obligations.GeometryRanges := by
  intro csd
  obtain ⟨hshiftLow, hshiftHigh⟩ := shiftV1_range csd
  obtain ⟨hau, hauMax⟩ := eraseSectorsSdv2_value csd
  obtain ⟨hsdv1, hsdv1Max⟩ := eraseSectorsSdv1_value csd
  obtain ⟨hmmc, hmmcMax⟩ := eraseSectorsMmc_value csd
  exact ⟨sectorsV2_toNat csd, cSizeV2_lt csd, sectorsV2_of_largest csd, hshiftLow, hshiftHigh, cSizeV1_lt csd,
    fun _ => sectorsV1_value csd, hau, hauMax, hsdv1, hsdv1Max, hmmc, hmmcMax⟩

end Sys2Proof.Machine
end

section
/-! What every instruction but `initialize` leaves alone (45_block_io.md R264; 10_state.md R22, R47). -/

namespace Sys2Proof.Machine

/-- From `s` to `t` no register of the engine's that a card gives its value, neither supply nor clock, no waiting input
and no open parameter has changed. -/
def State.SameRegisters (s t : State) : Prop :=
  t.status = s.status ∧ t.cardClass = s.cardClass ∧ t.sectorCount = s.sectorCount
    ∧ t.eraseBlockSectors = s.eraseBlockSectors ∧ t.phase = s.phase ∧ t.bus.pwr = s.bus.pwr
    ∧ t.bus.clk = s.bus.clk ∧ t.inputs = s.inputs ∧ t.powerOnWaitMs = s.powerOnWaitMs ∧ t.resultCodes = s.resultCodes

theorem State.Steady.sameRegisters {lo hi : Nat} {s t : State} (h : s.Steady lo hi t) : s.SameRegisters t :=
  ⟨h.status, h.cardClass, h.sectorCount, h.eraseBlockSectors, h.phase, h.pwr, h.clk, h.inputs, h.powerOnWaitMs,
    h.resultCodes⟩

/-- Whether a host operation is turned away or run, its outcome plays no part. -/
theorem HostNext.sameRegisters {lo hi : Nat} {s t : State} (h : HostNext lo hi s t) : s.SameRegisters t := by
  obtain ⟨-, ⟨r, rfl⟩ | ⟨op, hop, -, rfl⟩⟩ := h
  · exact (State.Steady.refl lo hi s).sameRegisters
  · exact (hop.keeps { s with busy := true }).sameRegisters

/-- Settles O18: a host operation by `HostNext.sameRegisters`, a wire-level instruction by the frame of its procedure
(`exec_wire`), which keeps `busy` too. -/
theorem onlyInitializeWritesRegisters : Obligations.OnlyInitializeWritesRegisters := by
  intro i s t hinit h
  suffices s.SameRegisters t ∧ (i.isHost = false → t.busy = s.busy) by
    simpa only [State.SameRegisters, and_assoc] using this
  cases hi : i.isHost with
  | true => exact ⟨(exec_host_next i s t hi hinit h).sameRegisters, nofun⟩
  | false =>
    obtain ⟨op, hop, hexec⟩ := exec_wire i hi
    obtain rfl := Host.Outcome.next.inj ((hexec s).symm.trans h)
    exact ⟨(hop.keeps s).sameRegisters, fun _ => (hop.keeps s).busy⟩

end Sys2Proof.Machine
end

section
/-! `read`, `write` and TRIM for every way the bus can answer them: the multi-sector transfers (45_block_io.md R252,
R253, R257, R258) beside the single-sector ones above, and the erase (R260 to R262). -/

namespace Sys2Proof.Machine

/-! ## read of several sectors -/

/-- What a multi-sector `read` is: CMD18, and if it was accepted the block loop and one CMD12 (R252, R253). -/
theorem ReadRun.multiple_of_valid {count : Nat} (r : ReadRun) (hc : count ≠ 1) (h : r.valid count = true) :
    r.command.valid (cmd 18) = true
      ∧ ((r.command.accepted = true ∧ r.blocks.all (Reception.valid Config.sectorSize) = true
          ∧ BlocksFit (fun x => x.data.isSome) count r.blocks ∧ ∃ p, r.stop = some p ∧ p.valid (cmd 12) = true)
        ∨ (r.command.accepted = false ∧ r.blocks = [] ∧ r.stop = none)) := by
  simp only [ReadRun.valid, transferCommand, if_neg hc, Bool.and_eq_true, beq_iff_eq] at h
  obtain ⟨⟨⟨⟨hcommand, hblocks⟩, hstopValid⟩, hstop⟩, hfit⟩ := h
  refine ⟨hcommand, ?_⟩
  cases ha : r.command.accepted with
  | true =>
    simp only [ha, if_true, Bool.and_eq_true, decide_eq_true_eq] at hfit
    obtain ⟨⟨hlen, hinit⟩, hlast⟩ := hfit
    obtain ⟨p, hp⟩ := Option.isSome_iff_exists.1 (hstop.trans (by simp [ha, hc]))
    exact .inl ⟨rfl, hblocks, ⟨hlen, hinit, by simpa using hlast⟩, p, hp, by simpa [hp] using hstopValid⟩
  | false => exact .inr ⟨rfl, by simpa [ha] using hfit, by simpa [ha] using hstop⟩

/-- The conversation of a multi-sector `read` but for its close. -/
def ReadRun.multipleTalk (a : Word) (r : ReadRun) : Talk :=
  Talk.join ([r.command.talk (cmd 18) a, Talk.join (r.blocks.map Reception.talk)]
    ++ r.stop.toList.map (CommandRun.talk (cmd 12) 0))

/-- R252, R253, for every way the bus can answer it. -/
theorem readMultiple_does (base count : Nat) (a : Word) (r : ReadRun) (s : State) (hm : s.mem.wf = true)
    (hc0 : count ≠ 0) (hc1 : count ≠ 1) (h : r.valid count = true) :
    Does (readMultiple base count a) s (r.multipleTalk a) (count - (r.blocks.filterMap Reception.data).length)
      { s with mem := s.mem.writeBytes base r.stored } := by
  obtain ⟨hcommand, hrest⟩ := r.multiple_of_valid hc1 h
  obtain ⟨command, blocks, stop, release⟩ := r
  refine Does.accepted (cmd 18) a command hcommand (fun ha => ?_) (fun ha => ?_)
  · obtain ⟨-, hblocks, hfit, p, rfl, hp⟩ | ⟨hn, -⟩ := hrest
    · refine Does.congr (Does.bind (noteProgress_does count 0 s)
        (Does.bind (readBlocks_does base count 0 blocks s hm hblocks hc0 hfit)
          (Does.bind (Does.onBus (sendCommand_speaks (cmd 12) 0 p hp) _) (Does.pure _ _)))) ?_
      simp [Talk.join_cons]
    · simp [ha] at hn
  · obtain ⟨hn, -⟩ | ⟨-, rfl, rfl⟩ := hrest
    · simp [ha] at hn
    · exact ⟨rfl, rfl, rfl⟩

theorem ReadRun.talk_multiple {count : Nat} (r : ReadRun) (a : Word) (hc : count ≠ 1) :
    r.talk count a = (r.multipleTalk a).append (deselectTalk r.release) := by
  rw [ReadRun.talk, ReadRun.multipleTalk, Talk.join_append, Talk.join_singleton, transferCommand, if_neg hc]

/-- R265: nothing is missing iff all blocks arrived, of which no more than `count` were asked for. -/
theorem ReadRun.result_multiple {count : Nat} (r : ReadRun) (hc : count ≠ 1) (h : r.valid count = true) :
    r.result count = if count - (r.blocks.filterMap Reception.data).length = 0 then .ok else .error := by
  have hle : (r.blocks.filterMap Reception.data).length ≤ count := by
    obtain ⟨-, ⟨-, -, ⟨hlen, -⟩, -⟩ | ⟨-, hnil, -⟩⟩ := r.multiple_of_valid hc h
    · exact (List.length_filterMap_le ..).trans hlen
    · simp [hnil]
  exact if_congr (by omega) rfl rfl

/-- A multi-sector `read`, for every way the bus can answer it. -/
theorem exec_read_multiple (s : State) (buf : HostBuf) (sector : Word) (count : Nat) (r : ReadRun)
    (ho : s.isOpen = true) (hm : s.mem.wf = true) (hc0 : count ≠ 0) (hc1 : count ≠ 1) (hl : count * 512 ≤ buf.len)
    (h : r.valid count = true) :
    exec (.read 0 buf sector count) (s.feed (r.talk count (addr s.cardClass sector))) =
      .next (({ s with mem := s.mem.writeBytes buf.base r.stored } : State).returning (.result (r.result count))
        ((s.bus.heard (r.talk count (addr s.cardClass sector))).withCs .high)) := by
  have htransfer : Does (readTransfer buf sector count) { s with busy := true } _ _ _ :=
    .congr ((readClass_does _).bind (.iteFalse hc1
      (readMultiple_does buf.base count _ r { s with busy := true } hm hc0 hc1 h))) (Talk.nil_append _)
  rw [exec_read_admitted (s.feed _) buf sector count ho hc0 hl, r.talk_multiple _ hc1, r.result_multiple hc1 h,
    runOperation_close r.release htransfer]
  rfl

/-- Settles O36: one sector is CMD17 and its block (`exec_read_single`), several are CMD18, the block loop and CMD12
(`exec_read_multiple`). -/
theorem readConversation : Obligations.ReadConversation := by
  intro s buf sector count r ho hm hc0 hl h
  by_cases hc1 : count = 1
  · subst hc1
    exact exec_read_single s buf sector r ho (by simpa using hl) h
  · exact exec_read_multiple s buf sector count r ho hm hc0 hc1 hl h

/-! ## write of several sectors -/

/-- What a multi-sector `write` is: ACMD23 for the SD family, CMD25, and if it was accepted the block loop and one
attempt at a stop token (R257, R258). -/
theorem WriteRun.multiple_of_valid {sd : Bool} {count : Nat} (r : WriteRun) (hc : count ≠ 1)
    (h : r.valid sd count = true) :
    (r.declare.isSome = sd ∧ r.declare.all (CommandRun.valid (acmd 23)) = true) ∧ r.command.valid (cmd 25) = true
      ∧ ((r.command.accepted = true ∧ r.blocks.all Transmission.valid = true
          ∧ BlocksFit Transmission.ok count r.blocks ∧ ∃ p, r.stop = some p ∧ p.valid = true)
        ∨ (r.command.accepted = false ∧ r.blocks = [] ∧ r.stop = none)) := by
  simp only [WriteRun.valid, transferCommand, if_neg hc, Bool.and_eq_true, beq_iff_eq] at h
  obtain ⟨⟨⟨⟨⟨⟨hdeclare, hdeclareValid⟩, hcommand⟩, hblocks⟩, hstopValid⟩, hstop⟩, hfit⟩ := h
  refine ⟨⟨hdeclare.trans (by simp [hc]), hdeclareValid⟩, hcommand, ?_⟩
  cases ha : r.command.accepted with
  | true =>
    simp only [ha, if_true, Bool.and_eq_true, decide_eq_true_eq] at hfit
    obtain ⟨⟨hlen, hinit⟩, hlast⟩ := hfit
    obtain ⟨p, hp⟩ := Option.isSome_iff_exists.1 (hstop.trans (by simp [ha, hc]))
    exact .inl ⟨rfl, hblocks, ⟨hlen, hinit, hlast⟩, p, hp, by simpa [hp] using hstopValid⟩
  | false => exact .inr ⟨rfl, by simpa [ha] using hfit, by simpa [ha] using hstop⟩

/-- R257: whatever comes of ACMD23, the transfer goes on. -/
theorem declareErase_does (c : Option CardClass) (count : Nat) (d : Option CommandRun) (s : State)
    (hsd : d.isSome = isSdFamily c) (hv : d.all (CommandRun.valid (acmd 23)) = true) :
    Does (declareErase c count) s (Talk.join (d.toList.map (CommandRun.talk (acmd 23) (eraseCountArg count)))) ()
      s := by
  cases d with
  | some p =>
    exact Does.iteTrue hsd.symm (Does.bind (Does.onBus (sendCommand_speaks (acmd 23) _ p hv) s) (Does.pure () s))
  | none => exact Does.iteFalse (by simp [← hsd]) (Does.pure () s)

/-- What is left of a multi-sector `write` when it ends; a stop token that failed leaves 1 (R258). -/
def WriteRun.remaining (count : Nat) (r : WriteRun) : Nat :=
  if r.stop.all StopRun.ok then count - (r.blocks.filter Transmission.ok).length else 1

/-- The conversation of a multi-sector `write` but for its close. -/
def WriteRun.multipleTalk (mem : Memory) (base count : Nat) (a : Word) (r : WriteRun) : Talk :=
  Talk.join (r.declare.toList.map (CommandRun.talk (acmd 23) (eraseCountArg count))
    ++ [r.command.talk (cmd 25) a, blocksTalk mem Config.tokenMulti base r.blocks]
    ++ r.stop.toList.map StopRun.talk)

/-- R257, R258, for every way the bus can answer it. -/
theorem writeMultiple_does (base count : Nat) (c : Option CardClass) (a : Word) (r : WriteRun) (s : State)
    (hc0 : count ≠ 0) (hc1 : count ≠ 1) (h : r.valid (isSdFamily c) count = true) :
    Does (writeMultiple base count c a) s (r.multipleTalk s.mem base count a) (r.remaining count) s := by
  obtain ⟨⟨hdeclare, hdeclareValid⟩, hcommand, hrest⟩ := r.multiple_of_valid hc1 h
  obtain ⟨declare, command, blocks, stop, release⟩ := r
  rw [WriteRun.multipleTalk, List.append_assoc, Talk.join_append]
  refine Does.bind (declareErase_does c count declare s hdeclare hdeclareValid) ?_
  refine Does.accepted (cmd 25) a command hcommand (fun ha => ?_) (fun ha => ?_)
  · obtain ⟨-, hblocks, hfit, p, rfl, hp⟩ | ⟨hn, -⟩ := hrest
    · refine Does.congr (Does.bind (noteProgress_does count 0 s)
        (Does.bind (writeBlocks_does base count 0 blocks s hblocks hc0 hfit)
          (Does.bind (Does.onBus (sendStop_speaks p hp) s) (Does.pure _ s)))) ?_
      simp [Talk.join_cons]
    · simp [ha] at hn
  · obtain ⟨hn, -⟩ | ⟨-, rfl, rfl⟩ := hrest
    · simp [ha] at hn
    · exact ⟨rfl, rfl, rfl⟩

theorem WriteRun.talk_multiple {count : Nat} (r : WriteRun) (mem : Memory) (base : Nat) (a : Word) (hc : count ≠ 1) :
    r.talk mem base count a = (r.multipleTalk mem base count a).append (deselectTalk r.release) := by
  rw [WriteRun.talk, Talk.join_append, Talk.join_singleton, transferCommand, if_neg hc, if_neg hc]
  rfl

/-- R259: nothing is left iff every block was accepted, of which no more than `count` were sent, and a due stop token
was sent. -/
theorem WriteRun.result_multiple {sd : Bool} {count : Nat} (r : WriteRun) (hc : count ≠ 1)
    (h : r.valid sd count = true) : r.result count = if r.remaining count = 0 then .ok else .error := by
  have hle : (r.blocks.filter Transmission.ok).length ≤ count := by
    obtain ⟨-, -, ⟨-, -, ⟨hlen, -⟩, -⟩ | ⟨-, hnil, -⟩⟩ := r.multiple_of_valid hc h
    · exact (List.length_filter_le ..).trans hlen
    · simp [hnil]
  refine if_congr ?_ rfl rfl
  cases hs : r.stop.all StopRun.ok with
  | true =>
    simp only [WriteRun.remaining, hs, if_true, and_true]
    omega
  | false => simp [WriteRun.remaining, hs]

/-- A multi-sector `write`, for every way the bus can answer it. -/
theorem exec_write_multiple (s : State) (buf : HostBuf) (sector : Word) (count : Nat) (r : WriteRun)
    (ho : s.isOpen = true) (hp : s.status.writeProtected = false) (hc0 : count ≠ 0) (hc1 : count ≠ 1)
    (hl : count * 512 ≤ buf.len) (h : r.valid (isSdFamily s.cardClass) count = true) :
    exec (.write 0 buf sector count) (s.feed (r.talk s.mem buf.base count (addr s.cardClass sector))) =
      .next (s.returning (.result (r.result count))
        ((s.bus.heard (r.talk s.mem buf.base count (addr s.cardClass sector))).withCs .high)) := by
  have htransfer : Does (writeTransfer buf sector count) { s with busy := true } _ _ _ :=
    .congr ((readClass_does _).bind (.iteFalse hc1
      (writeMultiple_does buf.base count _ _ r { s with busy := true } hc0 hc1 h))) (Talk.nil_append _)
  rw [exec_write_admitted (s.feed _) buf sector count ho hp hc0 hl, r.talk_multiple _ _ _ hc1,
    r.result_multiple hc1 h, runOperation_close r.release htransfer]
  rfl

/-- Settles O38: one sector is CMD24 and its block (`exec_write_single`), several are ACMD23 where it is due, CMD25, the
block loop and the stop token (`exec_write_multiple`). -/
theorem writeConversation : Obligations.WriteConversation := by
  intro s buf sector count r ho hp hc0 hl h
  by_cases hc1 : count = 1
  · subst hc1
    exact exec_write_single s buf sector r ho hp (by simpa using hl) h
  · exact exec_write_multiple s buf sector count r ho hp hc0 hc1 hl h

/-! ## TRIM -/

/-- TRIM but for its close (R261): 0 iff the erase sequence ran to its end. -/
def trimTransfer (st ed : Word) : Engine Nat := do
  let c ← readClass
  let ok ← onBus (trimCard c st ed)
  pure (if ok then 0 else 1)

theorem trimOperation_eq (st ed : Word) : trimOperation st ed = trimTransfer st ed >>= closeBlockIO := rfl

/-- The conversation of a TRIM but for its close. -/
def TrimRun.transferTalk (st ed : Word) (r : TrimRun) : Talk :=
  Talk.join (r.csd.toList.map (FetchRun.talk (cmd 9)) ++ r.erase.toList.map (EraseRun.talk st ed))

/-- R261, R262, for every way the bus can answer it. -/
theorem trimTransfer_does (st ed : Word) (r : TrimRun) (s : State) (h : r.valid (isSdFamily s.cardClass) = true) :
    Does (trimTransfer st ed) s (r.transferTalk (addr s.cardClass st) (addr s.cardClass ed))
      (if r.erase.any EraseRun.ok then 0 else 1) s :=
  ((readClass_does s).bind ((Does.onBus (trimCard_speaks s.cardClass st ed r h) s).bind
    (Does.pure (if r.erase.any EraseRun.ok then 0 else 1) s))).congr (by simp [TrimRun.transferTalk])

theorem exec_trim_admitted (st ed : Word) (s : State) (ho : s.isOpen = true) :
    exec (.ioctlTrim 0 st ed) s = .next (runOperation (trimTransfer st ed >>= closeBlockIO) s) := by
  obtain ⟨hidle, hready⟩ := s.isOpen_iff.1 ho
  show hostCall (admitIoctl 0 s) .result (trimOperation st ed) s = _
  rw [admitIoctl_open s hready, hostCall_admitted _ _ s hidle, trimOperation_eq]

theorem TrimRun.talk_close (r : TrimRun) (st ed : Word) :
    r.talk st ed = (r.transferTalk st ed).append (deselectTalk r.release) := by
  rw [TrimRun.talk, TrimRun.transferTalk, Talk.join_append, Talk.join_singleton]

theorem TrimRun.result_eq (r : TrimRun) :
    r.result = if (if r.erase.any EraseRun.ok then 0 else 1) = 0 then .ok else .error := by
  cases h : r.erase.any EraseRun.ok <;> simp [TrimRun.result, h]

/-- Settles O40: the body of TRIM over either family and either end of the erase sequence (`trimTransfer_does`), and the
close behind it (`runOperation_close`). -/
theorem trimConversation : Obligations.TrimConversation := by
  intro s st ed r ho h
  have htransfer := trimTransfer_does st ed r { s with busy := true } h
  rw [exec_trim_admitted st ed (s.feed _) ho, r.talk_close, r.result_eq, runOperation_close r.release htransfer]
  rfl

end Sys2Proof.Machine
end

section
/-! The control surface (46_control_surface.md): what an idle engine answers without bus traffic (R270 to R275), and
the three register queries for every way the bus can answer them (R277 to R280). -/

namespace Sys2Proof.Machine

/-! ## Operations without bus traffic -/

/-- An operation that only answers leaves everything but the reply, and what a return to the host clears (R28). -/
theorem runOperation_answer (f : State → Reply) (s : State) :
    runOperation (answer f) s = s.returning (f { s with busy := true }) s.bus := rfl

/-- Past its admission, such an operation answers in every idle state. -/
theorem hostCall_answer (turnedAway : Result → Reply) (f : State → Reply) (s : State) (h : s.busy = false) :
    hostCall none turnedAway (answer f) s = .next (s.returning (f { s with busy := true }) s.bus) := by
  rw [hostCall_admitted turnedAway (answer f) s h, runOperation_answer]

/-- R298: the drive index 0 passes the only test `status` makes. -/
theorem driveTest_zero_admits : firstFailure [driveTest 0] = none := rfl

/-- Settles O26: drive 0 is admitted (`driveTest_zero_admits`), and the answer is the status register
(`hostCall_answer`). -/
theorem statusReturnsStatus : Obligations.StatusReturnsStatus := by
  intro s hidle
  show hostCall (firstFailure [driveTest 0]) (fun _ => .status badDriveStatus) (answer fun s => .status s.status) s = _
  rw [driveTest_zero_admits, hostCall_answer _ _ s hidle]

/-- Settles O27: `sync` makes no admission test, and its answer reads no register (`hostCall_answer`). -/
theorem syncReturnsOk : Obligations.SyncReturnsOk := fun s hidle =>
  hostCall_answer .result (fun _ => .result .ok) s hidle

/-- Settles O28: no getter makes an admission test (`hostCall_answer`); two answer a register, and `sectorSize` the
hardwired 512 (R27). -/
theorem gettersReturnGeometry : Obligations.GettersReturnGeometry := fun s hidle =>
  ⟨hostCall_answer .result (fun s => .word s.sectorCount) s hidle,
    hostCall_answer .result (fun s => .word s.sectorSize) s hidle,
    hostCall_answer .result (fun s => .word s.eraseBlockSectors) s hidle⟩

/-! ## Register queries -/

/-- Settles O42: the frame of R277 (`queryCall_run`) around CMD10 and its packet of 16 (`cidBody_speaks`). -/
theorem getCidConversation : Obligations.GetCidConversation := fun s r x ho hr =>
  queryCall_run cidBody (r.talk (cmd 10)) r.data (cidBody_speaks r hr) x s ho

/-- Settles O43: the frame of R277 (`queryCall_run`) around CMD58 and its four unframed bytes (`ocrBody_speaks`). -/
theorem getOcrConversation : Obligations.GetOcrConversation := fun s r x ho hr =>
  queryCall_run ocrBody r.talk r.ocr (ocrBody_speaks r hr) x s ho

/-- Settles O44: the frame of R277 (`queryCall_run`) around ACMD13, the discarded byte and the packet of 64
(`sdStatusBody_speaks`); a rejected CMD55 is among its runs, and no class is asked for. -/
theorem getSdStatusConversation : Obligations.GetSdStatusConversation := fun s r x ho hr =>
  queryCall_run sdStatusBody r.talk r.data (sdStatusBody_speaks r hr) x s ho

end Sys2Proof.Machine
end

section
/-! The state right after engine reset (70_reset_and_hazards.md R322): whatever the open parameters (R8) are. -/

namespace Sys2Proof.Machine

/-- R27: `S.sectorSize` is hardwired, in every state. -/
@[simp] theorem State.sectorSize_eq (s : State) : s.sectorSize = 512 := rfl

/-- R46: the registers of the drive, its environment flags left open. -/
theorem State.resetWith_registers (waitMs : Nat) (codes : ResultCodes) :
    (resetWith waitMs codes).status.notInitialized = true ∧ (resetWith waitMs codes).cardClass = none
      ∧ (resetWith waitMs codes).sectorCount = 0 ∧ (resetWith waitMs codes).eraseBlockSectors = 0 :=
  ⟨rfl, rfl, rfl, rfl⟩

/-- R28: an engine just reset has no operation in progress, and its power-up has not begun. -/
theorem State.resetWith_idle (waitMs : Nat) (codes : ResultCodes) :
    (resetWith waitMs codes).busy = false ∧ (resetWith waitMs codes).phase = .poweredOff :=
  ⟨rfl, rfl⟩

/-- R48, R323: no event has happened, and no scratch has a value. -/
theorem State.resetWith_bus (waitMs : Nat) (codes : ResultCodes) :
    (resetWith waitMs codes).bus.history = [] ∧ (resetWith waitMs codes).bus.scratch = {} :=
  ⟨rfl, rfl⟩

/-- Settles O11: engine reset is `resetWith` for one choice of the open parameters, and R322 holds for each of them; the
sector size is the hardwired one (`State.sectorSize_eq`). -/
theorem resetState : Obligations.ResetState := by
  unfold Obligations.ResetState State.reset
  obtain ⟨hstatus, hclass, hsectors, herase⟩ := State.resetWith_registers Config.tPowerOnWaitMs Config.resultCodes
  obtain ⟨hbusy, hphase⟩ := State.resetWith_idle Config.tPowerOnWaitMs Config.resultCodes
  obtain ⟨hhistory, hscratch⟩ := State.resetWith_bus Config.tPowerOnWaitMs Config.resultCodes
  exact ⟨hstatus, hclass, hsectors, herase, State.sectorSize_eq _, hbusy, hphase, hhistory, hscratch⟩

end Sys2Proof.Machine
end

section
/-! The decoder and the encoder (30_encoding.md R91 to R106): each undoes the other, and which frames are commands of
the engine. -/

namespace Sys2Proof.Machine

/-! ## The decoder undoes the encoder -/

/-- The frame of a well-formed wire command decodes to it; of all arguments only that of ACMD41 is restricted (R96,
R97). -/
theorem decodeCommand_of_commandOf (i : Instr) (c : CommandCode) (arg : Word) (hw : i.wellFormed = true)
    (h : commandOf i = some (c, arg)) : decodeCommand c.index arg = .ok i := by
  cases i with
  | acmd41 a =>
    cases h
    have harg : arg = 0 ∨ arg = Config.hcsArg := by simpa [Instr.wellFormed] using hw
    exact if_pos harg
  | cmd0 | cmd1 | cmd8 | cmd9 | cmd10 | cmd12 | acmd13 | cmd16 | cmd17 | cmd18 | acmd23 | cmd24 | cmd25 | cmd32 | cmd33
  | cmd38 | cmd55 | cmd58 => cases h; rfl
  | initializeCard | status | read | write | sync | sectorCount | sectorSize | eraseBlockSectors | ioctlTrim
  | ioctlGetCid | ioctlGetOcr | ioctlGetSdStatus | ioctlGetCardClass | tokStartData | tokMultiWrite | tokStopTran =>
    cases h

/-- A wire command is put on the wire as its frame, with nothing beside it (R92, R94). -/
theorem encode_of_commandOf (i : Instr) (c : CommandCode) (arg : Word) (h : commandOf i = some (c, arg)) :
    encode i = ⟨.wire, frameBytes c.index arg, {}⟩ := by
  cases i with
  | cmd0 | cmd1 | cmd8 | cmd9 | cmd10 | cmd12 | acmd13 | cmd16 | cmd17 | cmd18 | acmd23 | cmd24 | cmd25 | cmd32 | cmd33
  | cmd38 | acmd41 | cmd55 | cmd58 => cases h; rfl
  | initializeCard | status | read | write | sync | sectorCount | sectorSize | eraseBlockSectors | ioctlTrim
  | ioctlGetCid | ioctlGetOcr | ioctlGetSdStatus | ioctlGetCardClass | tokStartData | tokMultiWrite | tokStopTran =>
    cases h

theorem decode_encode_of_commandOf (i : Instr) (c : CommandCode) (arg : Word) (hw : i.wellFormed = true)
    (h : commandOf i = some (c, arg)) : decode (encode i) = .ok i := by
  rw [encode_of_commandOf i c arg h, decode_frameBytes, decodeCommand_of_commandOf i c arg hw h]

/-- The one byte of a host operation or a token selects its row, and the operands are taken back from beside it. -/
theorem decode_encode_of_not_commandOf (i : Instr) (h : commandOf i = none) : decode (encode i) = .ok i := by
  cases i with
  | initializeCard | status | read | write | sync | sectorCount | sectorSize | eraseBlockSectors | ioctlTrim
  | ioctlGetCid | ioctlGetOcr | ioctlGetSdStatus | ioctlGetCardClass | tokStartData | tokMultiWrite | tokStopTran => rfl
  | cmd0 | cmd1 | cmd8 | cmd9 | cmd10 | cmd12 | acmd13 | cmd16 | cmd17 | cmd18 | acmd23 | cmd24 | cmd25 | cmd32 | cmd33
  | cmd38 | acmd41 | cmd55 | cmd58 => cases h

/-- Settles O1: a wire command through its frame (`decode_encode_of_commandOf`), every other instruction through its one
byte and the operands beside it (`decode_encode_of_not_commandOf`). -/
theorem decodeOfEncode : Obligations.DecodeOfEncode := by
  intro i hw
  cases h : commandOf i with
  | some p => exact decode_encode_of_commandOf i p.1 p.2 hw h
  | none => exact decode_encode_of_not_commandOf i h

/-! ## The encoder undoes the decoder -/

/-- A host code that decodes is the ordinal of what it decodes to. -/
theorem decodeCode_ok (bytes : List Byte) (o : Operands) (i : Instr) (h : decodeCode bytes o = .ok i) :
    i.wellFormed = true ∧ (encode i).port = .host ∧ (encode i).bytes = bytes := by
  unfold decodeCode at h
  split at h
  case h_2 code =>
    split at h
    case h_1 j hj =>
      cases h
      exact decodeHost_some code o i hj
    case h_2 => cases h
  all_goals cases h

/-- What decodes on the wire is a token's byte or a frame, and is that of what it decodes to. -/
theorem decodeWire_ok (bytes : List Byte) (o : Operands) (i : Instr) (h : decodeWire bytes o = .ok i) :
    i.wellFormed = true ∧ (encode i).port = .wire ∧ (encode i).bytes = bytes := by
  unfold decodeWire at h
  split at h
  case h_2 code =>
    split at h
    case h_1 j hj =>
      cases h
      exact decodeToken_some code o i hj
    case h_2 => cases h
  case h_3 b0 a3 a2 a1 a0 k =>
    obtain ⟨index, arg, hframe, hcommand⟩ := decodeFrame_ok b0 a3 a2 a1 a0 k i h
    rw [hframe]
    exact decodeCommand_ok index arg i hcommand
  all_goals cases h

/-- Settles O2: each port by what its decoder can answer (`decodeCode_ok`, `decodeWire_ok`). -/
theorem encodeOfDecode : Obligations.EncodeOfDecode := by
  rintro ⟨port, bytes, ops⟩ i h
  cases port with
  | host => exact decodeCode_ok bytes ops i h
  | wire => exact decodeWire_ok bytes ops i h

/-! ## The frames of the engine's commands -/

/-- No two commands share a frame: the first byte holds the index, the next four the argument. -/
theorem frameBytes_inj {index index' : CmdIndex} {arg arg' : Word} (h : frameBytes index arg = frameBytes index' arg') :
    index = index' ∧ arg = arg' := by
  simp only [frameBytes, argBytes, List.cons_append, List.nil_append, List.cons.injEq] at h
  obtain ⟨hhead, h3, h2, h1, h0, -⟩ := h
  constructor
  · rw [← (frameHead_fields index).2, hhead, (frameHead_fields index').2]
  · rw [← joinArg_argBytes arg, h3, h2, h1, h0, joinArg_argBytes]

/-- A command's index and argument are of the list of R96 and R97. -/
def ListedFrame (index : CmdIndex) (arg : Word) : Prop :=
  index ∈ [17, 18, 23, 24, 25, 32, 33]
    ∨ (index ∈ [0, 1, 9, 10, 12, 13, 38, 55, 58] ∧ arg = 0)
    ∨ (index = 8 ∧ arg = 0x000001AA) ∨ (index = 16 ∧ arg = 512)
    ∨ (index = 41 ∧ (arg = 0 ∨ arg = 0x40000000))

theorem listedFrame_of_commandOf (i : Instr) (c : CommandCode) (arg : Word) (hw : i.wellFormed = true)
    (h : commandOf i = some (c, arg)) : ListedFrame c.index arg := by
  cases i with
  | acmd41 a =>
    cases h
    have harg : arg = 0 ∨ arg = 0x40000000 := by simpa [Instr.wellFormed, Config.hcsArg] using hw
    exact .inr (.inr (.inr (.inr ⟨rfl, harg⟩)))
  | cmd8 => cases h; exact .inr (.inr (.inl ⟨rfl, rfl⟩))
  | cmd16 => cases h; exact .inr (.inr (.inr (.inl ⟨rfl, rfl⟩)))
  | cmd0 | cmd1 | cmd9 | cmd10 | cmd12 | acmd13 | cmd38 | cmd55 | cmd58 => cases h; exact .inr (.inl ⟨by decide, rfl⟩)
  | cmd17 | cmd18 | acmd23 | cmd24 | cmd25 | cmd32 | cmd33 =>
    cases h
    refine .inl ?_
    simp only [cmd, acmd]
    decide
  | initializeCard | status | read | write | sync | sectorCount | sectorSize | eraseBlockSectors | ioctlTrim
  | ioctlGetCid | ioctlGetOcr | ioctlGetSdStatus | ioctlGetCardClass | tokStartData | tokMultiWrite | tokStopTran =>
    cases h

/-- Only the wire commands are named by six bytes. -/
theorem commandOf_of_frameBytes (i : Instr) (index : CmdIndex) (arg : Word)
    (h : (encode i).bytes = frameBytes index arg) :
    ∃ c : CommandCode, c.index = index ∧ commandOf i = some (c, arg) := by
  cases hc : commandOf i with
  | some p =>
    obtain ⟨hindex, harg⟩ := frameBytes_inj ((encode_bytes_of_commandOf i p.1 p.2 hc).symm.trans h)
    exact ⟨p.1, hindex, by rw [← harg]⟩
  | none =>
    have hone : (encode i).bytes.length = 1 := by
      cases i with
      | initializeCard | status | read | write | sync | sectorCount | sectorSize | eraseBlockSectors | ioctlTrim
      | ioctlGetCid | ioctlGetOcr | ioctlGetSdStatus | ioctlGetCardClass | tokStartData | tokMultiWrite | tokStopTran =>
        rfl
      | cmd0 | cmd1 | cmd8 | cmd9 | cmd10 | cmd12 | acmd13 | cmd16 | cmd17 | cmd18 | acmd23 | cmd24 | cmd25 | cmd32
      | cmd33 | cmd38 | acmd41 | cmd55 | cmd58 => cases hc
    simp [h] at hone

/-- Every listed frame decodes. -/
theorem ListedFrame.decodes {index : CmdIndex} {arg : Word} (h : ListedFrame index arg) :
    ∃ i, decodeCommand index arg = .ok i := by
  simp only [ListedFrame, List.mem_cons, List.not_mem_nil, or_false] at h
  rcases h with hany | ⟨hzero, rfl⟩ | ⟨rfl, rfl⟩ | ⟨rfl, rfl⟩ | ⟨rfl, harg⟩
  · rcases hany with rfl | rfl | rfl | rfl | rfl | rfl | rfl <;> exact ⟨_, rfl⟩
  · rcases hzero with rfl | rfl | rfl | rfl | rfl | rfl | rfl | rfl | rfl <;> exact ⟨_, rfl⟩
  · exact ⟨_, rfl⟩
  · exact ⟨_, rfl⟩
  · exact ⟨_, if_pos harg⟩

/-- Settles O4: a frame that decodes is that of a well-formed wire command (`decodeCommand_ok`,
`commandOf_of_frameBytes`), and these are the listed ones. -/
theorem listedFrames : Obligations.ListedFrames := by
  intro index arg
  rw [decode_frameBytes]
  constructor
  · rintro ⟨i, hi⟩
    obtain ⟨hw, -, hbytes⟩ := decodeCommand_ok index arg i hi
    obtain ⟨c, rfl, hc⟩ := commandOf_of_frameBytes i index arg hbytes
    exact listedFrame_of_commandOf i c arg hw hc
  · exact fun h => ListedFrame.decodes h

/-- Settles O5: each word is evaluated through its bytes and its port. -/
theorem sampleWords : Obligations.SampleWords := by
  refine ⟨?_, ?_, ?_, ?_, ?_, ?_, ?_⟩ <;> decide

end Sys2Proof.Machine
end

section
/-! The step (10_state.md R24, R28; 70_reset_and_hazards.md R324): what it does with each input, and how a property that
every instruction keeps is kept by every step. -/

namespace Sys2Proof.Machine

/-! ## One input -/

theorem step_idle {s : State} (h : s.inputs = []) : step s = .next s := by
  rw [step, h]

theorem step_environment {s : State} {noMedia writeProtected : Bool} {rest : List HostInput}
    (h : s.inputs = .environment noMedia writeProtected :: rest) :
    step s = environmentStep noMedia writeProtected { s with inputs := rest } := by
  rw [step, h]

theorem step_decoded {s : State} {r : Request} {rest : List HostInput} {i : Instr} (h : s.inputs = .request r :: rest)
    (hd : decode r = .ok i) : step s = exec i { s with inputs := rest } := by
  rw [step, h]
  simp only [hd]

theorem step_undecoded {s : State} {r : Request} {rest : List HostInput} {e : DecodeError}
    (h : s.inputs = .request r :: rest) (hd : decode r = .error e) :
    step s = undecodableStep e { s with inputs := rest } := by
  rw [step, h]
  simp only [hd]

/-- Settles O6: `step_decoded`. -/
theorem stepRunsRequest : Obligations.StepRunsRequest := fun _ _ _ _ => step_decoded

/-- Settles O7: `step_idle`. -/
theorem stepIdles : Obligations.StepIdles := fun _ => step_idle

/-- The ordinals end with 0x0C (R91). -/
theorem decodeHost_of_le {code : Byte} (o : Operands) (h : 0x0D ≤ code.toNat) : decodeHost code o = none := by
  have hne : ∀ ordinal : Byte, ordinal.toNat < 0x0D → code ≠ ordinal := by
    rintro ordinal hlt rfl
    omega
  simp [decodeHost, hne]

/-- An operation turned away with its first failed test leaves everything but the reply and what a return clears. -/
theorem hostCall_turnedAway {r : Result} {turnedAway : Result → Reply} {op : Engine Reply} {s : State}
    (h : s.busy = false) : hostCall (some r) turnedAway op s = .next (s.returning (turnedAway r) s.bus) := by
  simp [hostCall, h, deliver_eq_returning]

theorem undecodableStep_unknownCode (code : Byte) (s : State) : undecodableStep (.unknownCode code) s =
    hostCall (some .invalidParameter) .result (pure (.result .invalidParameter)) s := rfl

/-- Settles O8: the code decodes to nothing (`decodeHost_of_le`), and what an idle engine does with that is to turn it
away (`hostCall_turnedAway`). -/
theorem unknownCodeInvalid : Obligations.UnknownCodeInvalid := by
  intro s code ops rest hinputs hidle hcode
  have hdecode : decode ⟨.host, [code], ops⟩ = .error (.unknownCode code) := by
    simp [decode, decodeCode, decodeHost_of_le ops hcode]
  rw [step_undecoded hinputs hdecode, undecodableStep_unknownCode]
  exact hostCall_turnedAway hidle

/-- Settles O9: `environmentStep` on the state with the input taken. -/
theorem environmentBetweenOperations : Obligations.EnvironmentBetweenOperations := by
  intro s nm wp rest hinputs
  rw [step_environment hinputs]
  rfl

/-! ## A busy engine (U1) -/

section Busy
variable {s : State} (h : s.busy = true) (adm : Option Result) (turnedAway : Result → Reply) (op : Engine Reply)
include h

theorem hostCall_busy : hostCall adm turnedAway op s = .refused .engineBusy :=
  if_pos h

theorem bufferCall_busy (buf : HostBuf) (count : Nat) : bufferCall adm buf count op s = .refused .engineBusy :=
  if_pos h

theorem waitCall_busy (waitMs : Nat) : waitCall adm turnedAway waitMs op s = .refused .engineBusy :=
  if_pos h

end Busy

/-- Settles O10: each of the three frames of a host operation tests `S.busy` first. -/
theorem busyRefused : Obligations.BusyRefused := by
  intro i s hhost hbusy
  cases i with
  | initializeCard => exact waitCall_busy hbusy _ _ _ _
  | read | write => exact bufferCall_busy hbusy _ _ _ _
  | status | ioctlTrim | ioctlGetCid | ioctlGetOcr | ioctlGetSdStatus | ioctlGetCardClass =>
    exact hostCall_busy hbusy _ _ _
  | sync | sectorCount | sectorSize | eraseBlockSectors => exact hostCall_busy hbusy none .result (answer _)
  | cmd0 | cmd1 | cmd8 | cmd9 | cmd10 | cmd12 | acmd13 | cmd16 | cmd17 | cmd18 | acmd23 | cmd24 | cmd25 | cmd32 | cmd33
  | cmd38 | acmd41 | cmd55 | cmd58 | tokStartData | tokMultiWrite | tokStopTran => cases hhost

/-! ## What every step keeps -/

/-- Of the requests that name no instruction only an unknown host code reaches a next state, a reply alone (R108). -/
theorem undecodableStep_next {e : DecodeError} {s t : State} (h : undecodableStep e s = .next t) :
    t = deliver (.result .invalidParameter) s := by
  cases e with
  | unknownCode code =>
    rw [undecodableStep_unknownCode] at h
    cases hb : s.busy with
    | true => rw [hostCall_busy hb] at h; cases h
    | false => rw [hostCall_turnedAway hb] at h; cases h; rfl
  | empty | badLength | notAToken | notAFrame | unlistedCommand | badChecksum | badArgument => cases h

/-- A property that does not look at the waiting inputs and outlives a change of the environment's flags, a reply alone
and every instruction is kept by every step. -/
theorem step_keeps {P : State → Prop} (hinputs : ∀ s rest, P s → P { s with inputs := rest })
    (henvironment : ∀ s nm wp, P s → P { s with status := s.status.withFlags nm wp })
    (hreply : ∀ s r, P s → P (deliver r s)) (hexec : ∀ i s t, P s → exec i s = .next t → P t) {s t : State} (hs : P s)
    (h : step s = .next t) : P t := by
  unfold step at h
  split at h
  case h_1 =>
    cases h
    exact hs
  case h_2 nm wp rest _ =>
    unfold environmentStep at h
    split at h
    · cases h
    · cases h
      exact henvironment _ nm wp (hinputs s rest hs)
  case h_3 rest _ =>
    split at h
    case h_1 i _ => exact hexec i _ t (hinputs s rest hs) h
    case h_2 e _ =>
      rw [undecodableStep_next h]
      exact hreply _ _ (hinputs s rest hs)

end Sys2Proof.Machine
end

section
/-! `initialize` whatever the bus answers: its two ends (43_init_fsm.md R213, R214), with what each leaves in the
registers and on the lines, and its first event (R203). -/

namespace Sys2Proof.Machine

/-! ## What a procedure leaves as it was -/

/-- The procedure leaves what `f` sees of the state as it was. -/
def Preserves {α β : Type} (f : State → β) (m : Engine α) : Prop :=
  ∀ s : State, f (m s).2 = f s

/-- Of the transport side `f` sees at most the supply and the clock. -/
def SeesSupply {β : Type} (f : State → β) : Prop :=
  ∀ (s : State) (b : Bus), b.pwr = s.bus.pwr → b.clk = s.bus.clk → f (s.withBus b) = f s

section
variable {α β γ : Type} {f : State → γ}

theorem Preserves.bind {m : Engine α} {g : α → Engine β} (hm : Preserves f m) (hg : ∀ x, Preserves f (g x)) :
    Preserves f (m >>= g) :=
  fun s => (hg _ _).trans (hm s)

theorem Preserves.pure (x : α) : Preserves f (pure x : Engine α) :=
  fun _ => rfl

theorem Preserves.ite {c : Prop} [Decidable c] {m n : Engine α} (hm : Preserves f m) (hn : Preserves f n) :
    Preserves f (if c then m else n) := by
  split
  · exact hm
  · exact hn

theorem Preserves.onBus {m : Transport α} (hf : SeesSupply f) (h : Tame m) : Preserves f (onBus m) :=
  fun s => hf s _ (h.pwr s.bus) (h.clk s.bus)

theorem Preserves.under {m : Engine α} (hf : SeesSupply f) (t0 : Word) (h : Preserves f m) :
    Preserves f (underDeadline t0 m) :=
  fun s =>
    have hstart : f (s.withDeadlines (t0 :: s.bus.deadlines)) = f s :=
      hf s (s.bus.withDeadlines (t0 :: s.bus.deadlines)) rfl rfl
    have hback : f (underDeadline t0 m s).2 = f (m (s.withDeadlines (t0 :: s.bus.deadlines))).2 :=
      hf _ ((m (s.withDeadlines (t0 :: s.bus.deadlines))).2.bus.withDeadlines s.bus.deadlines) rfl rfl
    hback.trans ((h _).trans hstart)

end

/-! ## Up to the class -/

/-- What the classification leaves alone: the supply, the clock, and the geometry. -/
def State.supplyAndGeometry (s : State) : PowerLevel × ClockRate × Word × Word :=
  (s.bus.pwr, s.bus.clk, s.sectorCount, s.eraseBlockSectors)

theorem supplyAndGeometry_seesSupply : SeesSupply State.supplyAndGeometry := by
  intro s b hpwr hclk
  simp [State.supplyAndGeometry, hpwr, hclk]

theorem classifyBranch_preserves (t0 : Word) : Preserves State.supplyAndGeometry (classifyBranch t0) := by
  have hbus {α : Type} {m : Transport α} (h : Tame m) : Preserves State.supplyAndGeometry (onBus m) :=
    .onBus supplyAndGeometry_seesSupply h
  have hphase (p : Phase) : Preserves State.supplyAndGeometry (setPhase p) := fun _ => rfl
  exact (hbus (sendCommand_tame _ _)).bind fun _ => .ite
    ((hphase _).bind fun _ => hbus (classifySdv2_tame _))
    ((hbus (sendCommand_tame _ _)).bind fun _ => .ite
      ((hphase _).bind fun _ => hbus (classifyLegacy_tame _ _ _))
      ((hphase _).bind fun _ => hbus (classifyLegacy_tame _ _ _)))

theorem classify_preserves : Preserves State.supplyAndGeometry classify :=
  have hbus {α : Type} {m : Transport α} (h : Tame m) : Preserves State.supplyAndGeometry (onBus m) :=
    .onBus supplyAndGeometry_seesSupply h
  (hbus (sendCommand_tame _ _)).bind fun _ => .ite
    ((hbus startWait_tame).bind fun t0 => .under supplyAndGeometry_seesSupply t0 (classifyBranch_preserves t0))
    (.pure none)

theorem powerOn_pwr (waitMs : Nat) (b : Bus) : (powerOn waitMs b).2.pwr = .on := by
  simp only [powerOn, bind_apply, (delay_tame waitMs).pwr, setPwr_apply, (setCS_tame _).pwr, Bus.withPwr_pwr]

/-- R203: the supply is on and the clock slow. -/
theorem powerUp_supply (s : State) :
    (powerUp s).2.supplyAndGeometry = (.on, .slow, s.sectorCount, s.eraseBlockSectors) := by
  simp only [powerUp, bind_apply, onBus_apply, setPhase, idleClocks, State.supplyAndGeometry, State.withBus_bus,
    (fillBytes_tame _).pwr, (fillBytes_tame _).clk, setClk_apply, Bus.withClk_pwr, Bus.withClk_clk, Bus.heard_pwr,
    powerOn_pwr, State.withBus_sectorCount, State.withBus_eraseBlockSectors]

theorem initOpening_supply (s : State) :
    (initOpening s).2.supplyAndGeometry = (.on, .slow, s.sectorCount, s.eraseBlockSectors) := by
  have hclassify := (classify_preserves (powerUp s).2).trans (powerUp_supply s)
  simp only [initOpening, bind_apply, pure_apply]
  generalize classify (powerUp s).2 = p at hclassify ⊢
  exact hclassify

theorem initOpening_cardClass (s : State) : (initOpening s).2.cardClass = (initOpening s).1 := by
  simp only [initOpening, bind_apply, pure_apply, setClass]

/-! ## Behind it -/

/-- What the geometry update leaves alone. -/
def State.marks (s : State) : DriveStatus × Option CardClass × Phase × PowerLevel × ClockRate :=
  (s.status, s.cardClass, s.phase, s.bus.pwr, s.bus.clk)

theorem marks_seesSupply : SeesSupply State.marks := by
  intro s b hpwr hclk
  simp [State.marks, hpwr, hclk]

theorem updateSectorCount_preserves : Preserves State.marks updateSectorCount := by
  refine (Preserves.onBus marks_seesSupply readSectorCount_tame).bind fun got =>
    (Preserves.onBus marks_seesSupply deselect_tame).bind fun _ => ?_
  cases got with
  | none => exact .onBus marks_seesSupply (logEvent_tame _)
  | some v => exact fun _ => rfl

theorem updateEraseBlockSectors_preserves : Preserves State.marks updateEraseBlockSectors := by
  have hread : Preserves State.marks (fun s => (s.cardClass, s) : Engine (Option CardClass)) := fun _ => rfl
  refine hread.bind fun c => (Preserves.onBus marks_seesSupply (readEraseBlockSectors_tame c)).bind fun got =>
    (Preserves.onBus marks_seesSupply deselect_tame).bind fun _ => ?_
  cases got with
  | none => exact .onBus marks_seesSupply (logEvent_tame _)
  | some v => exact fun _ => rfl

theorem updateGeometry_preserves : Preserves State.marks updateGeometry :=
  updateSectorCount_preserves.bind fun _ => updateEraseBlockSectors_preserves

theorem initSucceeded_marks (s : State) :
    (initSucceeded s).2.marks = (s.status.clearNotInitialized, s.cardClass, .ready, s.bus.pwr, .fast) := by
  simp only [initSucceeded, bind_apply, updateGeometry_preserves _]
  rfl

theorem powerOff_pwr (b : Bus) : (powerOff b).2.pwr = .off :=
  (delay_tame _).pwr _

theorem powerOff_clk (b : Bus) : (powerOff b).2.clk = b.clk :=
  (delay_tame _).clk _

theorem initFailed_marks (s : State) :
    (initFailed s).2.marks = (s.status.setNotInitialized, s.cardClass, .failed, .off, s.bus.clk) := by
  simp only [initFailed, bind_apply, onBus_apply, setNotInitialized, setPhase, State.marks, State.withBus_status,
    State.withBus_cardClass, State.withBus_bus, powerOff_pwr, powerOff_clk]

theorem initFailed_geometry (s : State) : (initFailed s).2.sectorCount = s.sectorCount
    ∧ (initFailed s).2.eraseBlockSectors = s.eraseBlockSectors := ⟨rfl, rfl⟩

/-! ## The two ends -/

/-- The end of an `initialize` that classified a card (R213). -/
def State.Initialized (t : State) : Prop :=
  t.status.notInitialized = false ∧ t.phase = .ready ∧ t.cardClass ≠ none ∧ t.bus.pwr = .on ∧ t.bus.clk = .fast

/-- The end of one that did not (R214, R302), from `s`. -/
def State.FailedFrom (s t : State) : Prop :=
  t.status.notInitialized = true ∧ t.phase = .failed ∧ t.cardClass = none ∧ t.bus.pwr = .off ∧ t.bus.clk = .slow
    ∧ t.sectorCount = s.sectorCount ∧ t.eraseBlockSectors = s.eraseBlockSectors

theorem initSucceeded_initialized {s : State} (hk : s.cardClass ≠ none) (hpwr : s.bus.pwr = .on) :
    (initSucceeded s).2.Initialized := by
  have h := initSucceeded_marks s
  generalize (initSucceeded s).2 = t at h ⊢
  simp only [State.marks, Prod.mk.injEq] at h
  obtain ⟨hstatus, hclass, hphase, hp, hc⟩ := h
  exact ⟨by simp [hstatus], hphase, by rwa [hclass], hp.trans hpwr, hc⟩

theorem initFailed_failedFrom {s : State} (hk : s.cardClass = none) (hclk : s.bus.clk = .slow) :
    s.FailedFrom (initFailed s).2 := by
  have h := initFailed_marks s
  obtain ⟨hcount, herase⟩ := initFailed_geometry s
  generalize (initFailed s).2 = t at h hcount herase ⊢
  simp only [State.marks, Prod.mk.injEq] at h
  obtain ⟨hstatus, hclass, hphase, hp, hc⟩ := h
  exact ⟨by simp [hstatus], hphase, hclass.trans hk, hp, hc.trans hclk, hcount, herase⟩

/-- The class that stands behind the opening says which end it comes to. -/
theorem initBody_ends (s : State) : (initBody s).2.Initialized ∨ s.FailedFrom (initBody s).2 := by
  have hsupply := initOpening_supply s
  have hclass := initOpening_cardClass s
  rw [initBody_apply]
  generalize initOpening s = p at hsupply hclass ⊢
  obtain ⟨ty, t⟩ := p
  simp only [State.supplyAndGeometry, Prod.mk.injEq] at hsupply hclass
  obtain ⟨hpwr, hclk, hcount, herase⟩ := hsupply
  have hpwr' : (onBus deselect t).2.bus.pwr = .on := (deselect_tame.pwr _).trans hpwr
  have hclk' : (onBus deselect t).2.bus.clk = .slow := (deselect_tame.clk _).trans hclk
  cases ty with
  | some k => exact .inl (initSucceeded_initialized (s := (onBus deselect t).2) (by simp [hclass]) hpwr')
  | none =>
    obtain ⟨h1, h2, h3, h4, h5, h6, h7⟩ := initFailed_failedFrom (s := (onBus deselect t).2) hclass hclk'
    exact .inr ⟨h1, h2, h3, h4, h5, h6.trans hcount, h7.trans herase⟩

/-! ## Its first event -/

/-- `initialize` behind its power-up. -/
def initBehindPowerUp : Engine Unit := do
  let ty ← classify
  onBus (setScratch (.noteTy ty))
  setClass ty
  onBus deselect
  match ty with
  | some _ => initSucceeded
  | none => initFailed

theorem initBody_eq : initBody = powerUp >>= fun _ => initBehindPowerUp := rfl

theorem initBehindPowerUp_prepares : Prepares initBehindPowerUp :=
  classify_prepares.bind fun ty => (Prepares.tame (setScratch_tame _)).bind fun _ =>
    (setClass_prepares _).bind fun _ => (Prepares.tame deselect_tame).bind fun _ => by
      cases ty with
      | none => exact initFailed_prepares
      | some k => exact initSucceeded_prepares

theorem powerOn_starts (waitMs : Nat) (b : Bus) : (setPwr .on b).2.Follows (powerOn waitMs b).2 :=
  ((setCS_tame .high).bind fun _ => delay_tame waitMs).follows _

/-- What of the power-up is behind `powerOn`. -/
theorem powerUp_starts (s : State) : (powerOn s.powerOnWaitMs s.bus).2.Follows (powerUp s).2.bus := by
  have hrest : Prepares (do onBus (setClk .slow); onBus idleClocks; setPhase .probing) :=
    (Prepares.onBus (setClk_follows _)).bind fun _ => (Prepares.tame (fillBytes_tame _)).bind fun _ =>
      setPhase_prepares _
  have h := (hrest.keeps (onBus (powerOn s.powerOnWaitMs) s).2).bus
  simp only [bind_apply] at h
  simp only [powerUp, bind_apply]
  exact h

/-- The first event an `initialize` adds is its `PWR(ON)` (R203). -/
theorem initBody_starts (s : State) : ∃ newer, (initBody s).2.bus.trace = newer ++ .pwr .on :: s.bus.trace := by
  have hbehind := (initBehindPowerUp_prepares.keeps (powerUp s).2).bus
  obtain ⟨newer, htrace, -⟩ := ((powerOn_starts s.powerOnWaitMs s.bus).trans (powerUp_starts s)).trans hbehind
  exact ⟨newer, by rw [initBody_eq, bind_apply, htrace]; rfl⟩

/-! ## `initialize` past its admission -/

/-- What is known of the state `u` that an `initialize` accepted in `s` leaves before its reply. -/
structure State.InitializesTo (s u : State) : Prop where
  prepared : State.Prepared { s with busy := true } u
  ends : u.Initialized ∨ s.FailedFrom u
  ended : s.bus.Ended u.bus
  starts : ∃ newer, u.bus.trace = newer ++ .pwr .on :: s.bus.trace

theorem initBody_initializesTo (s : State) : s.InitializesTo (initBody { s with busy := true }).2 :=
  ⟨initBody_prepares.keeps _, initBody_ends { s with busy := true }, initBody_ended { s with busy := true },
    initBody_starts { s with busy := true }⟩

/-- An `initialize` that comes to a next state is a reply alone (R298), or has run to one of its ends and answers the
status there. -/
theorem exec_initialize_cases {drv : Nat} {s t : State} (h : exec (.initializeCard drv) s = .next t) :
    (∃ r, t = deliver r s) ∨ ∃ u, s.InitializesTo u ∧ t = deliver (.status u.status) u := by
  obtain ⟨-, ⟨-, rfl⟩ | ⟨-, u, hu, rfl⟩⟩ := exec_initialize_next drv s t h
  · exact .inl ⟨_, rfl⟩
  · exact .inr ⟨u, hu ▸ initBody_initializesTo s, rfl⟩

/-- With a power-on wait that can end (R137) it runs. -/
theorem exec_initialize_runs {s : State} (hidle : s.busy = false) (hwait : s.powerOnWaitMs < 2 ^ 32) :
    ∃ u, s.InitializesTo u ∧ exec (.initializeCard 0) s = .next (deliver (.status u.status) u) := by
  refine ⟨_, initBody_initializesTo s, ?_⟩
  show waitCall (firstFailure [driveTest 0]) (fun _ => .status badDriveStatus) s.powerOnWaitMs initOperation s = _
  rw [waitCall_ends ((canExpire_iff _).2 hwait), driveTest_zero_admits, hostCall_admitted _ _ s hidle, runOperation,
    initOperation_body]

/-- Settles O52: it runs (`exec_initialize_runs`), ends deselected, and at one of its two ends. -/
theorem initializeOutcome : Obligations.InitializeOutcome := by
  intro s hidle hwait
  obtain ⟨u, hu, hexec⟩ := exec_initialize_runs hidle hwait
  obtain ⟨hcs, -⟩ := hu.ended
  exact ⟨_, hexec, rfl, rfl, hcs, hu.ends⟩

/-- Settles O47: no difference of two samples reaches such a wait (`canExpire_iff`). -/
theorem initializeNeverEnds : Obligations.InitializeNeverEnds := by
  intro s hidle hwait
  have hnever : canExpire s.powerOnWaitMs = false := by
    rw [Bool.eq_false_iff, Ne, canExpire_iff]
    omega
  show waitCall (firstFailure [driveTest 0]) (fun _ => .status badDriveStatus) s.powerOnWaitMs initOperation s = _
  simp [waitCall, hidle, driveTest_zero_admits, hnever]

/-- Settles O19: either a reply alone, or what `initialize` leaves alone whatever the bus answers
(`initBody_prepares`). -/
theorem initializeFrame : Obligations.InitializeFrame := by
  intro drv s t h
  obtain ⟨r, rfl⟩ | ⟨u, hu, rfl⟩ := exec_initialize_cases h
  · exact ⟨rfl, rfl, rfl, rfl, rfl, rfl⟩
  · have hk := hu.prepared
    exact ⟨hk.noMedia, hk.writeProtected, hk.mem, hk.inputs, hk.powerOnWaitMs, hk.resultCodes⟩

end Sys2Proof.Machine
end

section
/-! The invariants (10_state.md R26, R28, R29, R40; 70_reset_and_hazards.md R323; 60_exceptions.md R300): they hold
right after reset, and every step keeps them, whatever the bus answers (`step_keeps`). -/

namespace Sys2Proof.Machine

/-! ## The machine at rest -/

/-- What the invariant speaks of. -/
theorem State.AtRest.congr {s t : State} (h : s.AtRest) (hidle : t.busy = false) (hphase : t.phase = s.phase)
    (hready : t.status.notInitialized = s.status.notInitialized) (hclass : t.cardClass = s.cardClass)
    (hpwr : t.bus.pwr = s.bus.pwr) (hclk : t.bus.clk = s.bus.clk) (hdeadlines : t.bus.deadlines = s.bus.deadlines)
    (hmem : t.mem.wf = true) : t.AtRest where
  idle := hidle
  resting := hphase ▸ h.resting
  ready_iff := by rw [hphase, hready]; exact h.ready_iff
  class_iff := by rw [hclass, hready]; exact h.class_iff
  ready_lines hr := by rw [hpwr, hclk]; exact h.ready_lines (hphase ▸ hr)
  failed_lines hf := by rw [hpwr, hclk]; exact h.failed_lines (hphase ▸ hf)
  deadlines := hdeadlines.trans h.deadlines
  memory := hmem

/-- A reply alone (R28). -/
theorem State.AtRest.deliver {s : State} (h : s.AtRest) (r : Reply) : (deliver r s).AtRest :=
  h.congr rfl rfl rfl rfl rfl rfl rfl h.memory

theorem Bus.Follows.deadlines {b c : Bus} (h : b.Follows c) : c.deadlines = b.deadlines := by
  obtain ⟨-, -, -, -, -, hdeadlines⟩ := h
  exact hdeadlines

/-- What writes no register of the engine's keeps the rest, once the engine is idle again. -/
theorem State.AtRest.steady {lo hi : Nat} {s t : State} (h : s.AtRest) (hst : s.Steady lo hi t)
    (hidle : t.busy = false) : t.AtRest :=
  h.congr hidle hst.phase (congrArg DriveStatus.notInitialized hst.status) hst.cardClass hst.pwr hst.clk
    hst.bus.deadlines (hst.mem h.memory).1

/-- `s` with `busy` set is what an operation runs from (R28). -/
theorem runOperation_atRest {lo hi : Nat} {s : State} {op : Engine Reply} (h : s.AtRest) (hop : Steady lo hi op) :
    (runOperation op s).AtRest := by
  have hk := hop.keeps { s with busy := true }
  exact h.congr rfl hk.phase (congrArg DriveStatus.notInitialized hk.status) hk.cardClass hk.pwr hk.clk
    hk.bus.deadlines (hk.mem h.memory).1

/-- Either end of `initialize` is one of rest, where no deadline is running and memory is in canonical form. -/
theorem State.atRest_of_ends {s t : State} (hends : t.Initialized ∨ s.FailedFrom t) (hidle : t.busy = false)
    (hdeadlines : t.bus.deadlines = []) (hmem : t.mem.wf = true) : t.AtRest := by
  obtain ⟨hready, hphase, hclass, hpwr, hclk⟩ | ⟨hready, hphase, hclass, hpwr, hclk, -⟩ := hends <;>
    exact ⟨hidle, by simp [hphase, Phase.resting], by simp [hphase, hready], by simp [hclass, hready],
      by simp [hphase, hpwr, hclk], by simp [hphase, hpwr, hclk], hdeadlines, hmem⟩

theorem exec_initialize_atRest {drv : Nat} {s t : State} (hs : s.AtRest) (h : exec (.initializeCard drv) s = .next t) :
    t.AtRest := by
  obtain ⟨r, rfl⟩ | ⟨u, hu, rfl⟩ := exec_initialize_cases h
  · exact hs.deliver r
  · exact State.atRest_of_ends (t := deliver (.status u.status) u) hu.ends rfl
      (hu.prepared.bus.deadlines.trans hs.deadlines) (hu.prepared.mem ▸ hs.memory)

theorem exec_atRest (i : Instr) (s t : State) (hs : s.AtRest) (h : exec i s = .next t) : t.AtRest := by
  cases hi : i.isHost with
  | false =>
    obtain ⟨op, hop, hexec⟩ := exec_wire i hi
    obtain rfl := Host.Outcome.next.inj ((hexec s).symm.trans h)
    have hk := hop.keeps s
    exact (hs.steady hk (hk.busy.trans hs.idle)).congr (hk.busy.trans hs.idle) rfl rfl rfl rfl rfl rfl
      (hk.mem hs.memory).1
  | true =>
    by_cases hinit : ∃ drv, i = .initializeCard drv
    · obtain ⟨drv, rfl⟩ := hinit
      exact exec_initialize_atRest hs h
    · obtain ⟨-, ⟨r, rfl⟩ | ⟨op, hop, -, rfl⟩⟩ := exec_host_next i s t hi (not_exists.1 hinit) h
      · exact hs.deliver r
      · exact runOperation_atRest hs hop

/-- Settles O13: `step_keeps` over every instruction (`exec_atRest`), of which `initialize` alone writes the registers
the invariant ties together, and leaves them at one of its two ends (`exec_initialize_cases`). -/
theorem stepKeepsAtRest : Obligations.StepKeepsAtRest := fun _ _ hs h =>
  step_keeps (P := State.AtRest) (fun _ _ h => h.congr h.idle rfl rfl rfl rfl rfl rfl h.memory)
    (fun _ _ _ h => h.congr h.idle rfl rfl rfl rfl rfl rfl h.memory) (fun _ r h => h.deliver r) exec_atRest hs h

/-! ## The lines -/

/-- A line driven since holds what it was driven to; one not driven still agrees with the older history. -/
theorem State.LinesAgree.follows {s t : State} (hs : s.LinesAgree) (h : s.bus.Follows t.bus) : t.LinesAgree := by
  obtain ⟨newer, htrace, hcs, hpwr, hclk, -⟩ := h
  refine ⟨fun l hl => ?_, fun l hl => ?_, fun r hr => ?_⟩
  · rw [htrace, lastCs_append] at hl
    rw [hcs]
    cases hn : lastCs newer with
    | some l' => simpa [hn] using hl
    | none => exact hs.cs l (by simpa [hn] using hl)
  · rw [htrace, lastPwr_append] at hl
    rw [hpwr]
    cases hn : lastPwr newer with
    | some l' => simpa [hn] using hl
    | none => exact hs.pwr l (by simpa [hn] using hl)
  · rw [htrace, lastClk_append] at hr
    rw [hclk]
    cases hn : lastClk newer with
    | some r' => simpa [hn] using hr
    | none => exact hs.clk r (by simpa [hn] using hr)

/-- Settles O14: what a step adds to the history, the lines follow (`step_follows`). -/
theorem stepKeepsLinesAgree : Obligations.StepKeepsLinesAgree := fun s t hs h => hs.follows (step_follows s t h)

/-! ## The tick stream -/

section
variable {l : List Word} {s t : State} {op : Engine Reply}

theorem deliver_takesFrom (r : Reply) (h : s.bus.TakesFrom l) : (deliver r s).bus.TakesFrom l :=
  h.unsampled rfl rfl rfl

theorem runOperation_takesFrom (hop : Clocked op) (h : s.bus.TakesFrom l) : (runOperation op s).bus.TakesFrom l :=
  deliver_takesFrom _ (hop { s with busy := true } l h)

theorem wireCall_takesFrom (hop : Clocked op) (hs : s.bus.TakesFrom l) (h : wireCall op s = .next t) :
    t.bus.TakesFrom l := by
  cases h
  exact hop s l hs

/-- An operation that comes to a next state was turned away or run. -/
theorem hostCall_next_cases {adm : Option Result} {turnedAway : Result → Reply}
    (h : hostCall adm turnedAway op s = .next t) : (∃ r, t = deliver (turnedAway r) s) ∨ t = runOperation op s := by
  unfold hostCall at h
  split at h
  · cases h
  · split at h <;> cases h
    · exact .inl ⟨_, rfl⟩
    · exact .inr rfl

theorem bufferCall_next_cases {adm : Option Result} {buf : HostBuf} {count : Nat}
    (h : bufferCall adm buf count op s = .next t) : (∃ r, t = deliver (.result r) s) ∨ t = runOperation op s := by
  unfold bufferCall at h
  split at h
  · cases h
  · split at h
    · cases h
      exact .inl ⟨_, rfl⟩
    · split at h <;> cases h
      exact .inr rfl

theorem hostCall_takesFrom {adm : Option Result} {turnedAway : Result → Reply} (hop : Clocked op)
    (hs : s.bus.TakesFrom l) (h : hostCall adm turnedAway op s = .next t) : t.bus.TakesFrom l := by
  obtain ⟨r, rfl⟩ | rfl := hostCall_next_cases h
  · exact deliver_takesFrom _ hs
  · exact runOperation_takesFrom hop hs

theorem bufferCall_takesFrom {adm : Option Result} {buf : HostBuf} {count : Nat} (hop : Clocked op)
    (hs : s.bus.TakesFrom l) (h : bufferCall adm buf count op s = .next t) : t.bus.TakesFrom l := by
  obtain ⟨r, rfl⟩ | rfl := bufferCall_next_cases h
  · exact deliver_takesFrom _ hs
  · exact runOperation_takesFrom hop hs

theorem plainCommand_takesFrom {c : CommandCode} {arg : Word} (hs : s.bus.TakesFrom l)
    (h : plainCommand c arg s = .next t) : t.bus.TakesFrom l :=
  wireCall_takesFrom ((command_clocked c arg).bind fun _ => .pure _) hs h

theorem tailCommand_takesFrom {α : Type} {c : CommandCode} {arg : Word} {test : Byte → Bool} {tail : Transport α}
    (ht : Ticks tail) (hs : s.bus.TakesFrom l) (h : tailCommand c arg test tail s = .next t) : t.bus.TakesFrom l :=
  wireCall_takesFrom ((command_clocked c arg).bind fun _ => .ite ((Clocked.onBus ht).bind fun _ => .pure _) (.pure _))
    hs h

theorem token_takesFrom {m : Engine Bool} (hm : Clocked m) (hs : s.bus.TakesFrom l)
    (h : wireCall (tokenReply m) s = .next t) : t.bus.TakesFrom l :=
  wireCall_takesFrom (hm.bind fun _ => .pure _) hs h

end

theorem initOperation_clocked : Clocked initOperation := fun s l h => by
  have hbody := initBody_clocked s l h
  rw [initOperation_body]
  generalize initBody s = p at hbody ⊢
  exact hbody

theorem exec_takesFrom (l : List Word) (i : Instr) (s t : State) (hs : s.bus.TakesFrom l) (h : exec i s = .next t) :
    t.bus.TakesFrom l := by
  cases i with
  | initializeCard => exact hostCall_takesFrom initOperation_clocked hs (waitCall_next h)
  | read => exact bufferCall_takesFrom (readOperation_clocked _ _ _) hs h
  | write => exact bufferCall_takesFrom (writeOperation_clocked _ _ _) hs h
  | ioctlTrim => exact hostCall_takesFrom (trimOperation_clocked _ _) hs h
  | ioctlGetCid => exact hostCall_takesFrom (query_clocked cidBody_ticks) hs h
  | ioctlGetOcr => exact hostCall_takesFrom (query_clocked ocrBody_ticks) hs h
  | ioctlGetSdStatus => exact hostCall_takesFrom (query_clocked sdStatusBody_ticks) hs h
  | status | ioctlGetCardClass => exact hostCall_takesFrom (answer_clocked _) hs h
  | sync => exact hostCall_takesFrom (adm := none) (turnedAway := .result) (answer_clocked fun _ => .result .ok) hs h
  | sectorCount =>
    exact hostCall_takesFrom (adm := none) (turnedAway := .result) (answer_clocked fun s => .word s.sectorCount) hs h
  | sectorSize =>
    exact hostCall_takesFrom (adm := none) (turnedAway := .result) (answer_clocked fun s => .word s.sectorSize) hs h
  | eraseBlockSectors =>
    exact hostCall_takesFrom (adm := none) (turnedAway := .result) (answer_clocked fun s => .word s.eraseBlockSectors)
      hs h
  | cmd8 => exact tailCommand_takesFrom readR7_ticks hs h
  | cmd58 => exact tailCommand_takesFrom readOcr_ticks hs h
  | acmd13 => exact tailCommand_takesFrom (fillBytes_ticks 1) hs h
  | cmd0 | cmd1 | cmd9 | cmd10 | cmd12 | cmd16 | cmd17 | cmd18 | acmd23 | cmd24 | cmd25 | cmd32 | cmd33 | cmd38 | acmd41
  | cmd55 => exact plainCommand_takesFrom hs h
  | tokStartData use =>
    cases use with
    | receive dst len => exact token_takesFrom (receiveTo_clocked dst len) hs h
    | transmit src => exact token_takesFrom (transmitFrom_clocked src _) hs h
  | tokMultiWrite src => exact token_takesFrom (transmitFrom_clocked src _) hs h
  | tokStopTran => exact token_takesFrom (.onBus sendStop_ticks) hs h

/-- Settles O15: `step_keeps` over every instruction (`exec_takesFrom`), each of whose procedures takes its samples from
the stream (`Clocked`). -/
theorem stepKeepsTickStream : Obligations.StepKeepsTickStream := fun l _ _ hs h =>
  step_keeps (P := fun s => s.bus.TakesFrom l) (fun _ _ h => h) (fun _ _ _ h => h) (fun _ r h => deliver_takesFrom r h)
    (exec_takesFrom l) hs h

end Sys2Proof.Machine
end

section
/-! How a host operation shows in the history (70_reset_and_hazards.md R323; 60_exceptions.md R303) and in the host's
memory (10_state.md R42). -/

namespace Sys2Proof.Machine

/-! ## Before the first `initialize` -/

/-- An operation that only answers, or is turned away, comes to a reply alone. -/
theorem hostCall_answer_next {adm : Option Result} {turnedAway : Result → Reply} {f : State → Reply} {s t : State}
    (h : hostCall adm turnedAway (answer f) s = .next t) : ∃ r, t = deliver r s := by
  obtain ⟨r, rfl⟩ | rfl := hostCall_next_cases h
  · exact ⟨_, rfl⟩
  · exact ⟨f { s with busy := true }, rfl⟩

theorem hostCall_closed {adm : Option Result} {turnedAway : Result → Reply} {op : Engine Reply} {s t : State}
    (hadm : adm.isSome = true) (h : hostCall adm turnedAway op s = .next t) : ∃ r, t = deliver r s := by
  obtain ⟨r, rfl⟩ := Option.isSome_iff_exists.1 hadm
  unfold hostCall at h
  split at h <;> cases h
  exact ⟨_, rfl⟩

theorem bufferCall_closed {adm : Option Result} {buf : HostBuf} {count : Nat} {op : Engine Reply} {s t : State}
    (hadm : adm.isSome = true) (h : bufferCall adm buf count op s = .next t) : ∃ r, t = deliver r s := by
  obtain ⟨r, rfl⟩ := Option.isSome_iff_exists.1 hadm
  unfold bufferCall at h
  split at h <;> cases h
  exact ⟨_, rfl⟩

/-- A test that fails turns an operation away, whatever the tests before and behind it say (R297). -/
theorem firstFailure_isSome {tests : List (Bool × Result)} {r : Result} (h : (true, r) ∈ tests) :
    (firstFailure tests).isSome = true := by
  induction tests with
  | nil => cases h
  | cons test rest ih =>
    obtain ⟨failed, r'⟩ := test
    cases failed with
    | true => rfl
    | false => exact ih (by simpa using h)

section
variable {s : State} (h : s.status.notInitialized = true)
include h

theorem readyTest_closed : readyTest s = (true, .notReady) := by
  rw [readyTest, h]

theorem admitIoctl_closed (drv : Nat) : (admitIoctl drv s).isSome = true :=
  firstFailure_isSome (r := .notReady) (by simp [readyTest_closed h])

theorem admitRead_closed (drv count : Nat) : (admitRead drv count s).isSome = true :=
  firstFailure_isSome (r := .notReady) (by simp [readyTest_closed h])

theorem admitWrite_closed (drv count : Nat) : (admitWrite drv count s).isSome = true :=
  firstFailure_isSome (r := .notReady) (by simp [readyTest_closed h])

/-- While not initialized every host operation but `initialize` comes to a reply alone: the gate is closed to those that
reach the bus, and the others only answer. -/
theorem exec_closed (i : Instr) {t : State} (hi : i.isHost = true) (hinit : ∀ drv, i ≠ .initializeCard drv)
    (hexec : exec i s = .next t) : ∃ r, t = deliver r s := by
  cases i with
  | initializeCard drv => exact absurd rfl (hinit drv)
  | read => exact bufferCall_closed (admitRead_closed h _ _) hexec
  | write => exact bufferCall_closed (admitWrite_closed h _ _) hexec
  | ioctlTrim | ioctlGetCid | ioctlGetOcr | ioctlGetSdStatus => exact hostCall_closed (admitIoctl_closed h _) hexec
  | status | ioctlGetCardClass => exact hostCall_answer_next hexec
  | sync => exact hostCall_answer_next (adm := none) (turnedAway := .result) (f := fun _ => .result .ok) hexec
  | sectorCount =>
    exact hostCall_answer_next (adm := none) (turnedAway := .result) (f := fun s => .word s.sectorCount) hexec
  | sectorSize =>
    exact hostCall_answer_next (adm := none) (turnedAway := .result) (f := fun s => .word s.sectorSize) hexec
  | eraseBlockSectors =>
    exact hostCall_answer_next (adm := none) (turnedAway := .result) (f := fun s => .word s.eraseBlockSectors) hexec
  | cmd0 | cmd1 | cmd8 | cmd9 | cmd10 | cmd12 | acmd13 | cmd16 | cmd17 | cmd18 | acmd23 | cmd24 | cmd25 | cmd32 | cmd33
  | cmd38 | acmd41 | cmd55 | cmd58 | tokStartData | tokMultiWrite | tokStopTran => cases hi

end

/-! ## The first event is `PWR(ON)` -/

theorem State.StartsWithPowerOn.deliver {s : State} (h : s.StartsWithPowerOn) (r : Reply) :
    (deliver r s).StartsWithPowerOn :=
  ⟨h.silent, h.first⟩

/-- Once the first event stands, whatever follows keeps it first. -/
theorem State.StartsWithPowerOn.follows {s t : State} (h : s.StartsWithPowerOn) (hne : s.bus.trace ≠ [])
    (ht : s.bus.Follows t.bus) : t.StartsWithPowerOn := by
  obtain ⟨newer, htrace, -⟩ := ht
  refine ⟨fun hnil => ?_, fun _ => ?_⟩
  · simp [htrace, hne] at hnil
  · rw [htrace, List.getLast?_append_of_ne_nil _ hne, h.first hne]

theorem exec_initialize_startsWithPowerOn {drv : Nat} {s t : State} (hs : s.StartsWithPowerOn)
    (h : exec (.initializeCard drv) s = .next t) : t.StartsWithPowerOn := by
  obtain ⟨r, rfl⟩ | ⟨u, hu, rfl⟩ := exec_initialize_cases h
  · exact hs.deliver r
  · obtain ⟨newer, htrace⟩ := hu.starts
    refine ⟨fun hnil => ?_, fun _ => ?_⟩
    · simp [htrace] at hnil
    · rw [deliver_bus, Bus.withScratch_trace, htrace, List.getLast?_append_of_ne_nil _ (List.cons_ne_nil _ _)]
      cases hold : s.bus.trace with
      | nil => rfl
      | cons e older => rw [List.getLast?_cons_cons, ← hold, hs.first (by simp [hold])]

theorem exec_host_startsWithPowerOn {i : Instr} {s t : State} (hi : i.isHost = true) (hs : s.StartsWithPowerOn)
    (h : exec i s = .next t) : t.StartsWithPowerOn := by
  by_cases hinit : ∃ drv, i = .initializeCard drv
  · obtain ⟨drv, rfl⟩ := hinit
    exact exec_initialize_startsWithPowerOn hs h
  · by_cases hnil : s.bus.trace = []
    · obtain ⟨r, rfl⟩ := exec_closed (hs.silent hnil) i hi (not_exists.1 hinit) h
      exact hs.deliver r
    · exact hs.follows hnil (exec_follows i s t h)

/-- Settles O16: behind the closed gate a reply alone (`exec_closed`); with an empty history the gate is closed, so that
the first event is the one an `initialize` begins with (`State.InitializesTo.starts`). -/
theorem historyStartsWithPowerOn : Obligations.HistoryStartsWithPowerOn := by
  refine ⟨rfl, fun i s t hi hinit hclosed h => ?_, fun i s t hi hs h => exec_host_startsWithPowerOn hi hs h⟩
  obtain ⟨r, rfl⟩ := exec_closed hclosed i hi hinit h
  rfl

/-- Settles O12: the registers of `State.resetWith`, and a history in which there is no event and no sample. -/
theorem resetInvariants : Obligations.ResetInvariants := by
  have hrest : State.reset.AtRest := by
    refine ⟨rfl, rfl, ⟨nofun, nofun⟩, ⟨fun _ => rfl, fun _ => rfl⟩, nofun, nofun, rfl, reset_memory_wf⟩
  exact ⟨hrest, ⟨nofun, nofun, nofun⟩, ⟨fun _ => rfl, fun h => absurd rfl h⟩, ⟨List.nil_prefix, nofun⟩⟩

/-! ## What a host operation leaves behind on the bus and in memory -/

theorem HostNext.ends {lo hi : Nat} {s t : State} (h : HostNext lo hi s t) :
    (t.bus.trace = s.bus.trace ∧ t.bus.cs = s.bus.cs) ∨ s.bus.EndedHere t.bus := by
  obtain ⟨-, ⟨r, rfl⟩ | ⟨op, -, hends, rfl⟩⟩ := h
  · exact .inl ⟨rfl, rfl⟩
  · exact .inr (hends { s with busy := true })

/-- Settles O21: `initialize` ends as `exec_initialize_cases` says, every other host operation with its deselect
(`HostNext.ends`). -/
theorem hostOperationsEndDeselected : Obligations.HostOperationsEndDeselected := by
  intro i s t hi h
  by_cases hinit : ∃ drv, i = .initializeCard drv
  · obtain ⟨drv, rfl⟩ := hinit
    obtain ⟨r, rfl⟩ | ⟨u, hu, rfl⟩ := exec_initialize_cases h
    · exact .inl ⟨rfl, rfl⟩
    · obtain ⟨hcs, newer, htrace, hend⟩ := hu.ended
      exact .inr ⟨hcs, newer, htrace, hend, fun hne => absurd rfl (hne drv)⟩
  · obtain hsame | ⟨hcs, newer, htrace, hend⟩ := (exec_host_next i s t hi (not_exists.1 hinit) h).ends
    · exact .inl hsame
    · exact .inr ⟨hcs, newer, htrace, by rwa [endsDeselected_dropWhile hend], fun _ => hend⟩

theorem HostNext.mem {lo hi : Nat} {s t : State} (h : HostNext lo hi s t) (hm : s.mem.wf = true) :
    t.mem.wf = true ∧ ∀ a, a < lo ∨ hi ≤ a → t.mem.read a = s.mem.read a := by
  obtain ⟨-, ⟨r, rfl⟩ | ⟨op, hop, -, rfl⟩⟩ := h
  · exact ⟨hm, fun _ _ => rfl⟩
  · exact (hop.keeps { s with busy := true }).mem hm

theorem exec_initialize_mem {drv : Nat} {s t : State} (h : exec (.initializeCard drv) s = .next t) : t.mem = s.mem := by
  obtain ⟨r, rfl⟩ | ⟨u, hu, rfl⟩ := exec_initialize_cases h
  · rfl
  · exact hu.prepared.mem

/-- Memory stays canonical, and is stored to at most from `storeLo` up to below `storeHi`. -/
theorem exec_mem (i : Instr) (s t : State) (hm : s.mem.wf = true) (h : exec i s = .next t) :
    t.mem.wf = true ∧ ∀ a, a < storeLo i ∨ storeHi i ≤ a → t.mem.read a = s.mem.read a := by
  cases hi : i.isHost with
  | false =>
    obtain ⟨op, hop, hexec⟩ := exec_wire i hi
    obtain rfl := Host.Outcome.next.inj ((hexec s).symm.trans h)
    exact (hop.keeps s).mem hm
  | true =>
    by_cases hinit : ∃ drv, i = .initializeCard drv
    · obtain ⟨drv, rfl⟩ := hinit
      rw [exec_initialize_mem h]
      exact ⟨hm, fun _ _ => rfl⟩
    · exact (exec_host_next i s t hi (not_exists.1 hinit) h).mem hm

/-- Settles O20: outside the instruction's range memory reads as before (`exec_mem`); with no range that is everywhere,
and canonical memories that read alike are equal (`Memory.ext`). -/
theorem memoryFrame : Obligations.MemoryFrame := by
  intro i s t hm h
  obtain ⟨hwf, hread⟩ := exec_mem i s t hm h
  simp only [storeLo, storeHi] at hread
  cases hrange : storeRange i with
  | some p => simpa only [hrange] using hread
  | none =>
    simp only [hrange, Nat.zero_le, or_true, true_imp_iff] at hread
    exact Memory.ext _ _ hwf hm hread

end Sys2Proof.Machine
end

section
/-! The environment's two flags (60_exceptions.md R296; 20_memory.md R74): an instruction run with the flags set to
other values comes to the same, but for the flags themselves. -/

namespace Sys2Proof.Machine

/-! ## A state and an outcome with the flags set -/

/-- A next state as it is with the environment's flags set, where the reply carries a status in that too. -/
def State.flagged (nm wp : Bool) (t : State) : State :=
  { t with
    status := t.status.withFlags nm wp
    reply := t.reply.map (Reply.withFlags nm wp) }

theorem deliver_withFlags (nm wp : Bool) (r : Reply) (s : State) :
    deliver (r.withFlags nm wp) (s.withFlags nm wp) = (deliver r s).flagged nm wp := rfl

/-- The procedure reads neither flag, but to hand them over. -/
def FlagBlind (nm wp : Bool) (op : Engine Reply) : Prop :=
  ∀ s : State, op (s.withFlags nm wp) = ((op s).1.withFlags nm wp, (op s).2.withFlags nm wp)

/-- The procedure's reply carries no status. -/
def StatusFree (op : Engine Reply) : Prop :=
  ∀ (s : State) (nm wp : Bool), (op s).1.withFlags nm wp = (op s).1

theorem StatusFree.pure {r : Reply} (h : ∀ nm wp, r.withFlags nm wp = r) : StatusFree (pure r) := fun _ => h

theorem StatusFree.bind {α : Type} {m : Engine α} {f : α → Engine Reply} (hf : ∀ x, StatusFree (f x)) :
    StatusFree (m >>= f) :=
  fun _ => hf _ _

theorem StatusFree.ite {c : Prop} [Decidable c] {m n : Engine Reply} (hm : StatusFree m) (hn : StatusFree n) :
    StatusFree (if c then m else n) := by
  split
  · exact hm
  · exact hn

section
variable {nm wp : Bool}

/-- What leaves the status register alone and reads it not. -/
theorem Steady.flagBlind {lo hi : Nat} {op : Engine Reply} (h : Steady lo hi op) (hr : StatusFree op) :
    FlagBlind nm wp op := fun s => by
  rw [State.withFlags, h.status, hr, ← (h.keeps s).status]
  rfl

theorem answer_flagBlind {f : State → Reply} (h : ∀ s, f (s.withFlags nm wp) = (f s).withFlags nm wp) :
    FlagBlind nm wp (answer f) := fun s => by
  rw [answer, h]
  rfl

theorem initOperation_flagBlind : FlagBlind nm wp initOperation := fun s => by
  rw [initOperation_body, initBody_prepares.flags, initOperation_body]
  generalize initBody s = p
  rfl

/-! ## The frames of the instructions -/

variable {op : Engine Reply} (s : State)

theorem runOperation_withFlags (hop : FlagBlind nm wp op) :
    runOperation op (s.withFlags nm wp) = (runOperation op s).flagged nm wp := by
  have hrun : op { s.withFlags nm wp with busy := true } = _ := hop { s with busy := true }
  rw [runOperation, hrun, deliver_withFlags, runOperation]

theorem wireCall_withFlags (hop : FlagBlind nm wp op) :
    wireCall op (s.withFlags nm wp) = mapNext (State.flagged nm wp) (wireCall op s) := by
  rw [wireCall, hop s]
  rfl

theorem hostCall_withFlags {adm : Option Result} {turnedAway : Result → Reply} (hop : FlagBlind nm wp op)
    (ht : ∀ r, adm = some r → (turnedAway r).withFlags nm wp = turnedAway r) :
    hostCall adm turnedAway op (s.withFlags nm wp) = mapNext (State.flagged nm wp) (hostCall adm turnedAway op s) := by
  cases hb : s.busy with
  | true => rw [hostCall_busy hb, hostCall_busy (s := s.withFlags nm wp) hb]; rfl
  | false =>
    cases adm with
    | some r =>
      rw [hostCall_turnedAway hb, hostCall_turnedAway (s := s.withFlags nm wp) hb, mapNext, ← deliver_eq_returning,
        ← deliver_eq_returning, ← deliver_withFlags, ht r rfl]
    | none =>
      rw [hostCall_admitted _ _ s hb, hostCall_admitted _ _ (s.withFlags nm wp) hb, runOperation_withFlags s hop]
      rfl

theorem bufferCall_withFlags {adm : Option Result} {buf : HostBuf} {count : Nat} (hop : FlagBlind nm wp op) :
    bufferCall adm buf count op (s.withFlags nm wp) =
      mapNext (State.flagged nm wp) (bufferCall adm buf count op s) := by
  by_cases hshort : adm = none ∧ buf.len < count * Config.sectorSize
  · obtain ⟨rfl, hlen⟩ := hshort
    cases hb : s.busy <;> simp [bufferCall, hb, hlen, mapNext, State.withFlags]
  · have hhost (u : State) : bufferCall adm buf count op u = hostCall adm .result op u := by
      cases adm with
      | some r => rfl
      | none => simp [bufferCall, hostCall, show ¬buf.len < count * Config.sectorSize by simpa using hshort]
    rw [hhost, hhost, hostCall_withFlags s hop fun _ _ => rfl]

theorem waitCall_withFlags {turnedAway : Result → Reply} {waitMs : Nat} (hop : FlagBlind nm wp op) :
    waitCall none turnedAway waitMs op (s.withFlags nm wp) =
      mapNext (State.flagged nm wp) (waitCall none turnedAway waitMs op s) := by
  cases hends : canExpire waitMs with
  | true => rw [waitCall_ends hends, waitCall_ends hends, hostCall_withFlags s hop (by simp)]
  | false => cases hb : s.busy <;> simp [waitCall, hb, hends, mapNext, State.withFlags]

end

/-! ## The instructions -/

theorem closeBlockIO_statusFree (remaining : Nat) : StatusFree (closeBlockIO remaining) :=
  .bind fun _ => .pure fun _ _ => rfl

theorem readOperation_statusFree (buf : HostBuf) (sector : Word) (count : Nat) :
    StatusFree (readOperation buf sector count) := by
  rw [readOperation_eq]
  exact .bind closeBlockIO_statusFree

theorem writeOperation_statusFree (buf : HostBuf) (sector : Word) (count : Nat) :
    StatusFree (writeOperation buf sector count) := by
  rw [writeOperation_eq]
  exact .bind closeBlockIO_statusFree

theorem trimOperation_statusFree (st ed : Word) : StatusFree (trimOperation st ed) := by
  rw [trimOperation_eq]
  exact .bind closeBlockIO_statusFree

theorem query_statusFree (body : Transport (Option (List Byte))) : StatusFree (query body) := by
  refine .bind fun got => .bind fun _ => ?_
  cases got <;> exact .pure fun _ _ => rfl

section
variable (nm wp : Bool) (s : State)

theorem queryCall_withFlags {body : Transport (Option (List Byte))} (hb : Tame body) (drv : Nat) :
    queryCall drv body (s.withFlags nm wp) = mapNext (State.flagged nm wp) (queryCall drv body s) :=
  hostCall_withFlags s ((query_steady 0 0 hb).flagBlind (query_statusFree body)) fun _ _ => rfl

theorem plainCommand_withFlags (c : CommandCode) (arg : Word) :
    plainCommand c arg (s.withFlags nm wp) = mapNext (State.flagged nm wp) (plainCommand c arg s) :=
  wireCall_withFlags s ((plainCommand_steady 0 0 c arg).flagBlind (.bind fun _ => .pure fun _ _ => rfl))

theorem tailCommand_withFlags {α : Type} {tail : Transport α} (ht : Tame tail) (c : CommandCode) (arg : Word)
    (test : Byte → Bool) :
    tailCommand c arg test tail (s.withFlags nm wp) =
      mapNext (State.flagged nm wp) (tailCommand c arg test tail s) :=
  wireCall_withFlags s ((tailCommand_steady 0 0 c arg test ht).flagBlind
    (.bind fun _ => .ite (.bind fun _ => .pure fun _ _ => rfl) (.pure fun _ _ => rfl)))

theorem token_withFlags {lo hi : Nat} {m : Engine Bool} (hm : Steady lo hi m) :
    wireCall (tokenReply m) (s.withFlags nm wp) = mapNext (State.flagged nm wp) (wireCall (tokenReply m) s) :=
  wireCall_withFlags s ((tokenReply_steady hm).flagBlind (.bind fun _ => .pure fun _ _ => rfl))

theorem admitWrite_withFlags (drv count : Nat) (hwp : wp = s.status.writeProtected) :
    admitWrite drv count (s.withFlags nm wp) = admitWrite drv count s := by
  subst hwp
  rfl

end

/-- Settles O22: every frame hands the flags on (`hostCall_withFlags` and the like); of the admission tests only that of
`write` reads one (`admitWrite_withFlags`), and only `initialize` and `status` reply with them. -/
theorem environmentFlagsNotTested : Obligations.EnvironmentFlagsNotTested := by
  intro i s nm wp hdrv hwrite
  show exec i (s.withFlags nm wp) = mapNext (State.flagged nm wp) (exec i s)
  cases i with
  | initializeCard drv =>
    obtain rfl := hdrv drv (.inl rfl)
    exact waitCall_withFlags s (turnedAway := fun _ => .status badDriveStatus) initOperation_flagBlind
  | status drv =>
    obtain rfl := hdrv drv (.inr rfl)
    exact hostCall_withFlags s (adm := none) (turnedAway := fun _ => .status badDriveStatus)
      (answer_flagBlind fun _ => rfl) nofun
  | read drv buf sector count =>
    exact bufferCall_withFlags s ((readOperation_steady buf sector count).flagBlind (readOperation_statusFree _ _ _))
  | write drv buf sector count =>
    show bufferCall (admitWrite drv count (s.withFlags nm wp)) buf count (writeOperation buf sector count) _ = _
    rw [admitWrite_withFlags nm wp s drv count (hwrite drv buf sector count rfl)]
    exact bufferCall_withFlags s
      ((writeOperation_steady 0 0 buf sector count).flagBlind (writeOperation_statusFree _ _ _))
  | ioctlTrim drv st ed =>
    exact hostCall_withFlags s ((trimOperation_steady 0 0 st ed).flagBlind (trimOperation_statusFree st ed))
      fun _ _ => rfl
  | ioctlGetCid drv => exact queryCall_withFlags nm wp s cidBody_tame drv
  | ioctlGetOcr drv => exact queryCall_withFlags nm wp s ocrBody_tame drv
  | ioctlGetSdStatus drv => exact queryCall_withFlags nm wp s sdStatusBody_tame drv
  | ioctlGetCardClass drv => exact hostCall_withFlags s (answer_flagBlind fun _ => rfl) fun _ _ => rfl
  | sync =>
    exact hostCall_withFlags s (adm := none) (turnedAway := .result)
      (answer_flagBlind (f := fun _ => .result .ok) fun _ => rfl) nofun
  | sectorCount =>
    exact hostCall_withFlags s (adm := none) (turnedAway := .result)
      (answer_flagBlind (f := fun s => .word s.sectorCount) fun _ => rfl) nofun
  | sectorSize =>
    exact hostCall_withFlags s (adm := none) (turnedAway := .result)
      (answer_flagBlind (f := fun s => .word s.sectorSize) fun _ => rfl) nofun
  | eraseBlockSectors =>
    exact hostCall_withFlags s (adm := none) (turnedAway := .result)
      (answer_flagBlind (f := fun s => .word s.eraseBlockSectors) fun _ => rfl) nofun
  | cmd8 => exact tailCommand_withFlags nm wp s readR7_tame _ _ _
  | cmd58 => exact tailCommand_withFlags nm wp s readOcr_tame _ _ _
  | acmd13 => exact tailCommand_withFlags nm wp s (fillBytes_tame 1) _ _ _
  | cmd0 | cmd1 | cmd9 | cmd10 | cmd12 | cmd16 | cmd17 | cmd18 | acmd23 | cmd24 | cmd25 | cmd32 | cmd33 | cmd38 | acmd41
  | cmd55 => exact plainCommand_withFlags nm wp s _ _
  | tokStartData use =>
    cases use with
    | receive dst len => exact token_withFlags nm wp s (receiveTo_steady dst len)
    | transmit src => exact token_withFlags nm wp s (transmitFrom_steady 0 0 src _)
  | tokMultiWrite src => exact token_withFlags nm wp s (transmitFrom_steady 0 0 src _)
  | tokStopTran => exact token_withFlags nm wp s (.onBus 0 0 sendStop_tame)

end Sys2Proof.Machine
end

section
/-! Admission (60_exceptions.md R296 to R298; 45_block_io.md R255; 46_control_surface.md R277): the tests in their
order, and what stands behind them. -/

namespace Sys2Proof.Machine

/-! ## The first test that fails -/

section
variable (s : State) {drv count : Nat}

theorem admit_badDrive (hd : drv ≠ 0) : admitRead drv count s = some .invalidParameter
    ∧ admitWrite drv count s = some .invalidParameter ∧ admitIoctl drv s = some .invalidParameter := by
  simp [admitRead, admitWrite, admitIoctl, firstFailure, driveTest, hd]

theorem admit_zeroCount :
    admitRead 0 0 s = some .invalidParameter ∧ admitWrite 0 0 s = some .invalidParameter := ⟨rfl, rfl⟩

theorem admitIoctl_notReady (h : s.status.notInitialized = true) : admitIoctl 0 s = some .notReady := by
  simp [admitIoctl, firstFailure, driveTest, readyTest, h]

theorem admit_notReady (h : s.status.notInitialized = true) (hc : count ≠ 0) :
    admitRead 0 count s = some .notReady ∧ admitWrite 0 count s = some .notReady := by
  simp [admitRead, admitWrite, firstFailure, driveTest, countTest, readyTest, h, hc]

theorem admitWrite_protected (h : s.status.notInitialized = false) (hp : s.status.writeProtected = true)
    (hc : count ≠ 0) : admitWrite 0 count s = some .writeProtect := by
  simp [admitWrite, firstFailure, driveTest, countTest, readyTest, protectTest, h, hp, hc]

end

/-! ## Turned away -/

section
variable {s : State} (hidle : s.busy = false) {drv : Nat} {r : Result}
include hidle

theorem bufferCall_turnedAway {buf : HostBuf} {count : Nat} {op : Engine Reply} :
    bufferCall (some r) buf count op s = .next (s.returning (.result r) s.bus) := by
  simp [bufferCall, hidle, deliver_eq_returning]

theorem exec_read_turnedAway {count : Nat} (buf : HostBuf) (sector : Word) (h : admitRead drv count s = some r) :
    exec (.read drv buf sector count) s = .next (s.returning (.result r) s.bus) := by
  show bufferCall (admitRead drv count s) buf count (readOperation buf sector count) s = _
  rw [h, bufferCall_turnedAway hidle]

theorem exec_write_turnedAway {count : Nat} (buf : HostBuf) (sector : Word) (h : admitWrite drv count s = some r) :
    exec (.write drv buf sector count) s = .next (s.returning (.result r) s.bus) := by
  show bufferCall (admitWrite drv count s) buf count (writeOperation buf sector count) s = _
  rw [h, bufferCall_turnedAway hidle]

/-- The five ioctls share one test (R277). -/
theorem exec_ioctls_turnedAway (st ed : Word) (h : admitIoctl drv s = some r) :
    exec (.ioctlTrim drv st ed) s = .next (s.returning (.result r) s.bus)
      ∧ exec (.ioctlGetCid drv) s = .next (s.returning (.bytes r none) s.bus)
      ∧ exec (.ioctlGetOcr drv) s = .next (s.returning (.bytes r none) s.bus)
      ∧ exec (.ioctlGetSdStatus drv) s = .next (s.returning (.bytes r none) s.bus)
      ∧ exec (.ioctlGetCardClass drv) s = .next (s.returning (.cardClass r none) s.bus) := by
  have hcall (turnedAway : Result → Reply) (op : Engine Reply) :
      hostCall (admitIoctl drv s) turnedAway op s = .next (s.returning (turnedAway r) s.bus) := by
    rw [h, hostCall_turnedAway hidle]
  exact ⟨hcall _ _, hcall _ _, hcall _ _, hcall _ _, hcall _ _⟩

end

/-! ## Past the tests: `Ok` or `Error` -/

theorem runOperation_close_reply (transfer : Engine Nat) (s : State) :
    (runOperation (transfer >>= closeBlockIO) s).reply = some (.result .ok)
      ∨ (runOperation (transfer >>= closeBlockIO) s).reply = some (.result .error) := by
  simp only [runOperation, deliver_reply, bind_apply, closeBlockIO, pure_apply]
  split
  · exact .inl rfl
  · exact .inr rfl

theorem runOperation_query_reply (body : Transport (Option (List Byte))) (s : State) :
    (∃ data, (runOperation (query body) s).reply = some (.bytes .ok (some data)))
      ∨ (runOperation (query body) s).reply = some (.bytes .error none) := by
  simp only [runOperation, deliver_reply, bind_apply, query]
  cases (onBus body { s with busy := true }).1 with
  | some data => exact .inl ⟨data, rfl⟩
  | none => exact .inr rfl

section
variable {s : State} (ho : s.isOpen = true)
include ho

theorem exec_trim_open (st ed : Word) : ∃ t, exec (.ioctlTrim 0 st ed) s = .next t
    ∧ (t.reply = some (.result .ok) ∨ t.reply = some (.result .error)) :=
  ⟨_, exec_trim_admitted st ed s ho, runOperation_close_reply _ s⟩

theorem queryCall_open (body : Transport (Option (List Byte))) : ∃ t, queryCall 0 body s = .next t
    ∧ ((∃ data, t.reply = some (.bytes .ok (some data))) ∨ t.reply = some (.bytes .error none)) := by
  obtain ⟨hidle, hready⟩ := s.isOpen_iff.1 ho
  refine ⟨_, ?_, runOperation_query_reply body s⟩
  rw [queryCall, admitIoctl_open s hready, hostCall_admitted _ _ s hidle]

theorem exec_getCardClass_open :
    exec (.ioctlGetCardClass 0) s = .next (s.returning (.cardClass .ok (some s.cardClass)) s.bus) := by
  obtain ⟨hidle, hready⟩ := s.isOpen_iff.1 ho
  show hostCall (admitIoctl 0 s) _ (answer fun s => .cardClass .ok (some s.cardClass)) s = _
  rw [admitIoctl_open s hready, hostCall_answer _ _ s hidle]

theorem exec_transfers_open (buf : HostBuf) (sector : Word) {count : Nat} (hc : count ≠ 0)
    (hl : count * 512 ≤ buf.len) :
    (∃ t, exec (.read 0 buf sector count) s = .next t
      ∧ (t.reply = some (.result .ok) ∨ t.reply = some (.result .error)))
    ∧ (s.status.writeProtected = false → ∃ t, exec (.write 0 buf sector count) s = .next t
      ∧ (t.reply = some (.result .ok) ∨ t.reply = some (.result .error))) :=
  ⟨⟨_, exec_read_admitted s buf sector count ho hc hl, runOperation_close_reply _ s⟩,
    fun hp => ⟨_, exec_write_admitted s buf sector count ho hp hc hl, runOperation_close_reply _ s⟩⟩

theorem exec_queries_open : ∀ i ∈ [Instr.ioctlGetCid 0, .ioctlGetOcr 0, .ioctlGetSdStatus 0], ∃ t, exec i s = .next t
    ∧ ((∃ data, t.reply = some (.bytes .ok (some data))) ∨ t.reply = some (.bytes .error none)) := by
  intro i hi
  simp only [List.mem_cons, List.not_mem_nil, or_false] at hi
  rcases hi with rfl | rfl | rfl
  · exact queryCall_open ho cidBody
  · exact queryCall_open ho ocrBody
  · exact queryCall_open ho sdStatusBody

end

/-- Settles O23: each test by the lemma that names it as the first to fail; past them the reply of the operation's close
(`runOperation_close_reply`, `runOperation_query_reply`). -/
theorem admissionOrder : Obligations.AdmissionOrder := by
  intro s drv count buf sector st ed hidle
  refine ⟨fun hd => ?_, ?_, ?_, ?_⟩
  · obtain ⟨hread, hwrite, hioctl⟩ := admit_badDrive s (count := count) hd
    exact ⟨exec_read_turnedAway hidle buf sector hread, exec_write_turnedAway hidle buf sector hwrite,
      exec_ioctls_turnedAway hidle st ed hioctl⟩
  · rintro rfl rfl
    obtain ⟨hread, hwrite⟩ := admit_zeroCount s
    exact ⟨exec_read_turnedAway hidle buf sector hread, exec_write_turnedAway hidle buf sector hwrite⟩
  · rintro rfl hclosed
    refine ⟨fun hc => ?_, exec_ioctls_turnedAway hidle st ed (admitIoctl_notReady s hclosed)⟩
    obtain ⟨hread, hwrite⟩ := admit_notReady s hclosed hc
    exact ⟨exec_read_turnedAway hidle buf sector hread, exec_write_turnedAway hidle buf sector hwrite⟩
  · rintro rfl hready
    have ho : s.isOpen = true := s.isOpen_iff.2 ⟨hidle, hready⟩
    exact ⟨fun hc hp => exec_write_turnedAway hidle buf sector (admitWrite_protected s hready hp hc),
      exec_transfers_open ho buf sector, exec_trim_open ho st ed, exec_queries_open ho, exec_getCardClass_open ho⟩

/-- Settles O24: the drive test is the only one, and comes before the power-on wait is looked at. -/
theorem badDriveIndex : Obligations.BadDriveIndex := by
  intro s drv hidle hd
  have hadm : firstFailure [driveTest drv] = some .invalidParameter := by simp [firstFailure, driveTest, hd]
  constructor
  · show waitCall (firstFailure [driveTest drv]) (fun _ => .status badDriveStatus) s.powerOnWaitMs initOperation s = _
    simp [waitCall, hidle, hadm, deliver_eq_returning, badDriveStatus]
  · show hostCall (firstFailure [driveTest drv]) (fun _ => .status badDriveStatus) (answer fun s => .status s.status) s
      = _
    rw [hadm, hostCall_turnedAway hidle, badDriveStatus]

theorem bufferCall_short {s : State} {buf : HostBuf} {count : Nat} (op : Engine Reply) (hidle : s.busy = false)
    (hl : buf.len < count * 512) : bufferCall none buf count op s = .refused .bufferTooShort := by
  simp [bufferCall, hidle, Config.sectorSize, hl]

/-- Settles O25: both are admitted, and the buffer is looked at then (`bufferCall_short`). -/
theorem shortBufferRefused : Obligations.ShortBufferRefused := by
  intro s buf sector count ho hc hl
  obtain ⟨hidle, hready⟩ := s.isOpen_iff.1 ho
  refine ⟨?_, fun hp => ?_⟩
  · show bufferCall (admitRead 0 count s) buf count (readOperation buf sector count) s = _
    rw [admitRead_open s count hready hc, bufferCall_short _ hidle hl]
  · show bufferCall (admitWrite 0 count s) buf count (writeOperation buf sector count) s = _
    rw [admitWrite_open s count hready hp hc, bufferCall_short _ hidle hl]

/-- Settles O29: either side of the gate by its own lemma. -/
theorem getCardClassReturnsClass : Obligations.GetCardClassReturnsClass := by
  intro s hidle
  cases hready : s.status.notInitialized with
  | true =>
    obtain ⟨-, -, -, -, hclass⟩ := exec_ioctls_turnedAway hidle 0 0 (admitIoctl_notReady s hready)
    exact hclass
  | false => exact exec_getCardClass_open (s.isOpen_iff.2 ⟨hidle, hready⟩)

end Sys2Proof.Machine
end

section
/-! From every state, whatever the bus answers, a wire command, a packet, `read` and `write` complete as one of their
conversations (41_command_engine.md R150 to R157; 42_block_transfer.md R190 to R197; 45_block_io.md R250 to R259). -/

namespace Sys2Proof.Machine

/-! ## Wire commands -/

/-- The instruction completes from every state as one transaction of the command code `c` with the argument `arg`, and
the bytes that follow its R1 unframed. -/
def Completes (i : Instr) (c : CommandCode) (arg : Word) : Prop :=
  ∀ s : State, ∃ (t : State) (r : CommandRun) (tail : List Byte), exec i s = .next t ∧ r.valid c = true
    ∧ tail.length = tailLength i r.resp ∧ t.reply = some (.response r.resp) ∧ t.bus.cs = r.level
    ∧ t.bus.history = s.bus.history ++ (r.talk c arg).events ++ (fillTalk tail).events

theorem Completes.ofPlain {i : Instr} {c : CommandCode} {arg : Word} (hexec : ∀ s, exec i s = plainCommand c arg s)
    (hlength : ∀ resp, tailLength i resp = 0) : Completes i c arg := by
  intro s
  obtain ⟨r, b, hr, h⟩ := sendCommand_went c arg s.bus
  refine ⟨{ s.withBus b with reply := some (.response r.resp) }, r, [], ?_, hr, (hlength r.resp).symm, rfl, h.cs, ?_⟩
  · simp [hexec, plainCommand, wireCall, h.run]
  · exact h.history.trans (List.append_nil _).symm

/-- `n` bytes follow an R1 that passes `test`, and `op` reads them. -/
theorem Completes.ofTail {α : Type} {i : Instr} {c : CommandCode} {arg : Word} {test : Byte → Bool} {op : Transport α}
    {n : Nat} (hexec : ∀ s, exec i s = tailCommand c arg test op s)
    (hlength : ∀ resp, tailLength i resp = if test resp then n else 0)
    (hop : ∀ b : Bus, ∃ (tail : List Byte) (x : α) (d : Bus), tail.length = n ∧ Went op b (fillTalk tail) x b.cs d) :
    Completes i c arg := by
  intro s
  obtain ⟨r, b, hr, h⟩ := sendCommand_went c arg s.bus
  cases ht : test r.resp with
  | true =>
    obtain ⟨tail, x, d, hl, h'⟩ := hop b
    refine ⟨{ s.withBus d with reply := some (.response r.resp) }, r, tail, ?_, hr, by rw [hlength, if_pos ht, hl], rfl,
      h'.cs.trans h.cs, ?_⟩
    · simp [hexec, tailCommand, wireCall, h.run, ht, h'.run, State.withBus]
    · exact h'.history.trans (by rw [h.history])
  | false =>
    refine ⟨{ s.withBus b with reply := some (.response r.resp) }, r, [], ?_, hr, by simp [hlength, ht], rfl, h.cs, ?_⟩
    · simp [hexec, tailCommand, wireCall, h.run, ht]
    · exact h.history.trans (List.append_nil _).symm

theorem readR7_went (b : Bus) :
    ∃ (tail : List Byte) (x : List Byte) (d : Bus), tail.length = 4 ∧ Went readR7 b (fillTalk tail) x b.cs d := by
  obtain ⟨data, c, hl, h⟩ := burstRead_went 4 b
  exact ⟨data, data, _, hl, (h.andThen ((setScratch_went (.noteR7 data) c).andThen (.pure data _))).congr rfl h.cs⟩

theorem readOcr_went (b : Bus) :
    ∃ (tail : List Byte) (x : List Byte) (d : Bus), tail.length = 4 ∧ Went readOcr b (fillTalk tail) x b.cs d := by
  obtain ⟨data, c, hl, h⟩ := burstRead_went 4 b
  exact ⟨data, data, _, hl, (h.andThen ((setScratch_went (.noteOcr data) c).andThen (.pure data _))).congr rfl h.cs⟩

theorem discardOne_went (b : Bus) :
    ∃ (tail : List Byte) (x : Unit) (d : Bus), tail.length = 1 ∧ Went (fillBytes 1) b (fillTalk tail) x b.cs d := by
  obtain ⟨data, c, hl, h⟩ := fillBytes_went 1 b
  exact ⟨data, (), c, hl, h⟩

/-- Settles O31: sixteen commands are the plain transaction alone, bytes follow the R1 of CMD8, CMD58 and ACMD13; a
transaction completes by `sendCommand_went`. -/
theorem everyCommandIsARun : Obligations.EveryCommandIsARun := by
  show ∀ (i : Instr) (c : CommandCode) (arg : Word), commandOf i = some (c, arg) → Completes i c arg
  intro i c arg h
  cases i with
  | cmd8 => cases h; exact .ofTail (fun _ => rfl) tailLength_cmd8 readR7_went
  | cmd58 => cases h; exact .ofTail (fun _ => rfl) tailLength_cmd58 readOcr_went
  | acmd13 => cases h; exact .ofTail (fun _ => rfl) tailLength_acmd13 discardOne_went
  | cmd0 | cmd1 | cmd9 | cmd10 | cmd12 | cmd16 | cmd17 | cmd18 | acmd23 | cmd24 | cmd25 | cmd32 | cmd33 | cmd38 | acmd41
  | cmd55 => cases h; exact .ofPlain (fun _ => rfl) fun _ => rfl
  | initializeCard | status | read | write | sync | sectorCount | sectorSize | eraseBlockSectors | ioctlTrim
  | ioctlGetCid | ioctlGetOcr | ioctlGetSdStatus | ioctlGetCardClass | tokStartData | tokMultiWrite | tokStopTran =>
    cases h

/-! ## Packets -/

/-- A transport procedure that went so, run by the engine as a token. -/
theorem Went.token {m : Transport Bool} {s : State} {c : Bus} {k : Talk} {x : Bool} {l : CsLevel}
    (h : Went m s.bus k x l c) :
    wireCall (tokenReply (onBus m)) s = .next { s.withBus c with reply := some (.token x) } :=
  wireCall_tokenReply (by rw [onBus_apply, h.run])

/-- What is received is stored, or nothing is (R190). -/
theorem Went.receiveTo {s : State} {c : Bus} {k : Talk} {got : Option (List Byte)} {l : CsLevel} {len : Nat}
    (h : Went (receiveBlock len) s.bus k got l c) (dst : Nat) :
    Machine.receiveTo dst len s =
      (got.isSome, { s with bus := c, mem := (got.map (s.mem.writeBytes dst)).getD s.mem }) := by
  rw [Machine.receiveTo, bind_apply, onBus_apply, h.run]
  cases got with
  | none => rfl
  | some data => rfl

/-- The 512 bytes sent are those of the buffer (R193). -/
theorem Went.transmitFrom {s : State} {c : Bus} {k : Talk} {ok : Bool} {l : CsLevel} {src : Nat} {token : Byte}
    (h : Went (transmitBlock (s.mem.readBytes src 512) token) s.bus k ok l c) :
    Machine.transmitFrom src token s = (ok, s.withBus c) := by
  rw [Machine.transmitFrom, bind_apply, bufRead, onBus_apply]
  show ((transmitBlock (s.mem.readBytes src 512) token s.bus).1,
    s.withBus (transmitBlock (s.mem.readBytes src 512) token s.bus).2) = _
  rw [h.run]

/-- A packet behind either start token. -/
theorem transmitToken_went (src : Nat) (token : Byte) (s : State) (ht : token ≠ Config.tokenStop) :
    ∃ (t : State) (r : Transmission), wireCall (tokenReply (transmitFrom src token)) s = .next t ∧ r.valid = true
      ∧ t.bus.history = s.bus.history ++ (r.talk token (s.mem.readBytes src 512)).events ∧ t.bus.cs = s.bus.cs
      ∧ t.reply = some (.token r.ok) := by
  obtain ⟨r, c, hr, h⟩ := transmitBlock_went (s.mem.readBytes src 512) token s.bus (Memory.readBytes_length ..) ht
  exact ⟨{ s.withBus c with reply := some (.token r.ok) }, r, wireCall_tokenReply h.transmitFrom, hr, h.history, h.cs,
    rfl⟩

/-- Settles O35: each form by how its procedure goes (`receiveBlock_went`, `transmitBlock_went`, `sendStop_went`). -/
theorem everyPacketIsARun : Obligations.EveryPacketIsARun := by
  intro s dst len src
  obtain ⟨r, c, hr, h⟩ := receiveBlock_went len s.bus
  obtain ⟨p, d, hp, hstop⟩ := sendStop_went s.bus
  exact ⟨⟨_, r, wireCall_tokenReply (h.receiveTo dst), hr, h.history, h.cs, rfl, rfl⟩,
    transmitToken_went src Config.tokenStart s (by decide), transmitToken_went src Config.tokenMulti s (by decide),
    ⟨_, p, hstop.token, hp, hstop.history, hstop.cs, rfl⟩⟩

end Sys2Proof.Machine
end

section
/-! From every state that admits them, whatever the bus answers, `read` and `write` complete as one of their
conversations (20_memory.md R67, R79; 45_block_io.md R250 to R259, R265). -/

namespace Sys2Proof.Machine

/-- From `s` the procedure of the engine answers `x` and leaves `t`, the history grown by the events of `k`. -/
structure Goes {α : Type} (m : Engine α) (s : State) (k : Talk) (x : α) (t : State) : Prop where
  run : m s = (x, t)
  trace : t.bus.trace = k.events.reverse ++ s.bus.trace

theorem Goes.bind {α β : Type} {m : Engine α} {f : α → Engine β} {s t u : State} {k l : Talk} {x : α} {y : β}
    (hm : Goes m s k x t) (hf : Goes (f x) t l y u) : Goes (m >>= f) s (k.append l) y u where
  run := by rw [bind_apply, hm.run, hf.run]
  trace := by rw [hf.trace, hm.trace]; simp [Talk.append]

theorem Goes.pure {α : Type} (x : α) (s : State) : Goes (pure x) s (Talk.join []) x s := ⟨rfl, rfl⟩

theorem Goes.congr {α : Type} {m : Engine α} {s t : State} {k l : Talk} {x : α} (h : Goes m s k x t) (hk : k = l) :
    Goes m s l x t :=
  hk ▸ h

theorem Goes.iteTrue {α : Type} {p : Prop} [Decidable p] {m n : Engine α} {s t : State} {k : Talk} {x : α} (h : p)
    (hm : Goes m s k x t) : Goes (if p then m else n) s k x t := by
  rwa [if_pos h]

theorem Goes.iteFalse {α : Type} {p : Prop} [Decidable p] {m n : Engine α} {s t : State} {k : Talk} {x : α}
    (h : ¬p) (hn : Goes n s k x t) : Goes (if p then m else n) s k x t := by
  rwa [if_neg h]

theorem Went.goes {α : Type} {m : Transport α} {s : State} {c : Bus} {k : Talk} {x : α} {l : CsLevel}
    (h : Went m s.bus k x l c) : Goes (onBus m) s k x (s.withBus c) :=
  ⟨by rw [onBus_apply, h.run], h.trace⟩

/-- What the engine reads of itself comes before a procedure unseen. -/
theorem Goes.afterReadClass {α : Type} {f : Option CardClass → Engine α} {s t : State} {k : Talk} {x : α}
    (h : Goes (f s.cardClass) s k x t) : Goes (readClass >>= f) s k x t :=
  ⟨h.run, h.trace⟩

/-- So does its note of the progress (R30). -/
theorem Goes.afterNote {α : Type} {f : Unit → Engine α} {s t : State} {k : Talk} {x : α} {count off : Nat}
    (h : Goes (f ()) (noteProgress count off s).2 k x t) : Goes (noteProgress count off >>= f) s k x t :=
  ⟨h.run, h.trace⟩

/-- A last procedure without events of its own. -/
theorem Goes.andThen {α β : Type} {m : Engine α} {f : α → Engine β} {s t u : State} {k : Talk} {x : α} {y : β}
    (hm : Goes m s k x t) (hf : Goes (f x) t (Talk.join []) y u) : Goes (m >>= f) s k y u :=
  (hm.bind hf).congr (Talk.append_nil k)

/-- A transfer of `s` and the close behind it, as a whole operation. -/
theorem Goes.closed {transfer : Engine Nat} {s t : State} {k : Talk} {remaining : Nat}
    (h : Goes transfer { s with busy := true } k remaining t) : ∃ (y : Byte) (u : State),
      runOperation (transfer >>= closeBlockIO) s = u ∧ u.mem = t.mem
        ∧ u.bus.history = s.bus.history ++ (k.append (deselectTalk y)).events
        ∧ u.reply = some (.result (if remaining = 0 then .ok else .error)) := by
  obtain ⟨y, c, hd⟩ := deselect_went t.bus
  have hclose : Goes (closeBlockIO remaining) t (deselectTalk y) (.result (if remaining = 0 then .ok else .error))
      (t.withBus c) := hd.goes.andThen (.pure _ _)
  obtain ⟨hrun, htrace⟩ := h.bind hclose
  refine ⟨y, _, rfl, ?_⟩
  rw [runOperation, hrun]
  refine ⟨rfl, ?_, rfl⟩
  show c.trace.reverse = _
  have htrace : c.trace = _ := htrace
  rw [htrace]
  simp [Bus.history]

/-- Behind an accepted command comes what hangs on it. -/
theorem Went.accepted {α : Type} {c : CommandCode} {arg : Word} {p : CommandRun} {s t : State} {b : Bus} {l : CsLevel}
    {k : Talk} {x y : α} {body : Engine α} (h : Went (sendCommand c arg) s.bus (p.talk c arg) p.resp l b)
    (ha : p.accepted = true) (hb : Goes body (s.withBus b) k x t) :
    Goes (onBus (sendCommand c arg) >>= fun r => if acceptedR1 r then body else Pure.pure y) s
      ((p.talk c arg).append k) x t :=
  h.goes.bind (.iteTrue ha hb)

/-- A rejected command is all there is. -/
theorem Went.rejected {α : Type} {c : CommandCode} {arg : Word} {p : CommandRun} {s : State} {b : Bus} {l : CsLevel}
    {y : α} {body : Engine α} (h : Went (sendCommand c arg) s.bus (p.talk c arg) p.resp l b) (ha : p.accepted = false) :
    Goes (onBus (sendCommand c arg) >>= fun r => if acceptedR1 r then body else Pure.pure y) s (p.talk c arg) y
      (s.withBus b) :=
  h.goes.andThen (.iteFalse (Bool.eq_false_iff.1 ha) (.pure y _))

/-! ## read -/

/-- An accepted command, the blocks and CMD12 where it is due make a run. -/
theorem ReadRun.valid_of_accepted {count : Nat} {command : CommandRun} {blocks : List Reception}
    {stop : Option CommandRun} (y : Byte) (hcommand : command.valid (transferCommand 17 18 count) = true)
    (ha : command.accepted = true) (hblocks : blocks.all (Reception.valid Config.sectorSize) = true)
    (hfit : BlocksFit (fun x => x.data.isSome) count blocks) (hstop : stop.all (CommandRun.valid (cmd 12)) = true)
    (hdue : stop.isSome = (count != 1)) : (⟨command, blocks, stop, y⟩ : ReadRun).valid count = true := by
  obtain ⟨hlen, hinit, hlast⟩ := hfit
  have hlast : (blocks.getLast?.any fun x => x.data.isNone || blocks.length == count) = true := by simpa using hlast
  simp only [ReadRun.valid, hcommand, ha, hblocks, hstop, hdue, hlen, hinit, hlast, decide_true, Bool.true_and,
    Bool.and_true, if_true, beq_self_eq_true]

/-- So does a rejected command alone. -/
theorem ReadRun.valid_of_rejected {count : Nat} {command : CommandRun} (y : Byte)
    (hcommand : command.valid (transferCommand 17 18 count) = true) (ha : command.accepted = false) :
    (⟨command, [], none, y⟩ : ReadRun).valid count = true := by
  rw [ReadRun.valid, hcommand, ha]
  rfl

/-- R251, whatever the bus answers. -/
theorem readSingle_goes (base : Nat) (a : Word) (s : State) : ∃ (r : ReadRun) (t : State), r.valid 1 = true
    ∧ Goes (readSingle base a) s (Talk.join [r.command.talk (cmd 17) a, Talk.join (r.blocks.map Reception.talk)])
        (1 - (r.blocks.filterMap Reception.data).length) t
    ∧ t.mem = s.mem.writeBytes base r.stored := by
  obtain ⟨command, c, hc, hcommand⟩ := sendCommand_went (cmd 17) a s.bus
  cases ha : command.accepted with
  | true =>
    obtain ⟨x, t, hx, hrun, hmem, htrace⟩ := receiveTo_went base Config.sectorSize (s.withBus c)
    have hblock : Goes (receiveTo base Config.sectorSize) (s.withBus c) x.talk x.data.isSome t := ⟨hrun, htrace⟩
    have hsingle : Goes (readSingle base a) s ((command.talk (cmd 17) a).append x.talk)
        (if x.data.isSome then 0 else 1) t := hcommand.accepted ha (hblock.andThen (.pure _ t))
    refine ⟨⟨command, [x], none, 0⟩, t, ReadRun.valid_of_accepted 0 hc ha (by simpa using hx) (.single (.inr rfl)) rfl
      rfl, ?_, ?_⟩
    · cases hd : x.data <;> simpa [hd, Talk.join_cons] using hsingle
    · cases hd : x.data <;> simpa [ReadRun.stored, hd, Memory.writeBytes] using hmem
  | false =>
    exact ⟨⟨command, [], none, 0⟩, s.withBus c, ReadRun.valid_of_rejected 0 hc ha,
      (hcommand.rejected ha).congr (by simp [Talk.join_cons]), rfl⟩

/-- CMD12 ends the transfer, its R1 not examined (R253). -/
theorem readEnd_goes {s : State} {d : Bus} {p : CommandRun} {l : CsLevel} (remaining : Nat)
    (h : Went (sendCommand (cmd 12) 0) s.bus (p.talk (cmd 12) 0) p.resp l d) :
    Goes (onBus (sendCommand (cmd 12) 0) >>= fun _ => pure remaining) s (p.talk (cmd 12) 0) remaining (s.withBus d) :=
  h.goes.andThen (.pure _ _)

/-- R252, R253, whatever the bus answers. -/
theorem readMultiple_goes (base count : Nat) (a : Word) (s : State) (hm : s.mem.wf = true) (hc0 : count ≠ 0)
    (hc1 : count ≠ 1) : ∃ (r : ReadRun) (t : State), r.valid count = true
      ∧ Goes (readMultiple base count a) s (r.multipleTalk a) (count - (r.blocks.filterMap Reception.data).length) t
      ∧ t.mem = s.mem.writeBytes base r.stored := by
  obtain ⟨command, c, hc, hcommand⟩ := sendCommand_went (cmd 18) a s.bus
  have hc : command.valid (transferCommand 17 18 count) = true := by rwa [transferCommand, if_neg hc1]
  cases ha : command.accepted with
  | true =>
    obtain ⟨blocks, t, hblocks, hfit, hrun, hmem, htrace⟩ :=
      readBlocks_went base count 0 (noteProgress count 0 (s.withBus c)).2 hm hc0
    have hloop : Goes (readBlocks base count 0) (noteProgress count 0 (s.withBus c)).2
        (Talk.join (blocks.map Reception.talk)) (count - (blocks.filterMap Reception.data).length) t := ⟨hrun, htrace⟩
    obtain ⟨p, d, hp, hstop⟩ := sendCommand_went (cmd 12) 0 t.bus
    exact ⟨⟨command, blocks, some p, 0⟩, t.withBus d, ReadRun.valid_of_accepted 0 hc ha hblocks hfit hp (by simp [hc1]),
      (hcommand.accepted ha (.afterNote (hloop.bind (readEnd_goes _ hstop)))).congr
        (by simp [ReadRun.multipleTalk, Talk.join_cons]), hmem⟩
  | false =>
    exact ⟨⟨command, [], none, 0⟩, s.withBus c, ReadRun.valid_of_rejected 0 hc ha,
      (hcommand.rejected ha).congr (by simp [ReadRun.multipleTalk, Talk.join_cons]), rfl⟩

/-- Either transfer, but for its close; `valid` does not look at the byte that the close will add. -/
theorem readTransfer_goes (buf : HostBuf) (sector : Word) (count : Nat) (s : State) (hm : s.mem.wf = true)
    (hc0 : count ≠ 0) : ∃ (r : ReadRun) (k : Talk) (t : State), r.valid count = true
      ∧ Goes (readTransfer buf sector count) s k (count - (r.blocks.filterMap Reception.data).length) t
      ∧ t.mem = s.mem.writeBytes buf.base r.stored
      ∧ ∀ y, ({ r with release := y }).talk count (addr s.cardClass sector) = k.append (deselectTalk y) := by
  by_cases hc1 : count = 1
  · subst hc1
    obtain ⟨r, t, hr, h, hmem⟩ := readSingle_goes buf.base (addr s.cardClass sector) s
    exact ⟨r, _, t, hr, .afterReadClass (.iteTrue rfl h), hmem, fun y => ({ r with release := y }).talk_single _ hr⟩
  · obtain ⟨r, t, hr, h, hmem⟩ := readMultiple_goes buf.base count (addr s.cardClass sector) s hm hc0 hc1
    exact ⟨r, _, t, hr, .afterReadClass (.iteFalse hc1 h), hmem,
      fun y => ({ r with release := y }).talk_multiple _ hc1⟩

theorem ReadRun.result_eq {count : Nat} (r : ReadRun) (h : r.valid count = true) :
    r.result count = if count - (r.blocks.filterMap Reception.data).length = 0 then .ok else .error := by
  by_cases hc : count = 1
  · subst hc
    exact r.result_single h
  · exact r.result_multiple hc h

/-- R67: what is stored is whole blocks, no more than were asked for. -/
theorem ReadRun.stored_length {count : Nat} (r : ReadRun) (h : r.valid count = true) :
    r.stored.length = (r.blocks.filterMap Reception.data).length * 512
      ∧ (r.blocks.filterMap Reception.data).length ≤ count := by
  simp only [ReadRun.valid, Bool.and_eq_true] at h
  obtain ⟨⟨⟨⟨-, hblocks⟩, -⟩, -⟩, hfit⟩ := h
  refine ⟨data_flatten_length r.blocks hblocks, (List.length_filterMap_le ..).trans ?_⟩
  cases ha : r.command.accepted with
  | true =>
    simp only [ha, if_true, Bool.and_eq_true, decide_eq_true_eq] at hfit
    exact hfit.1.1
  | false =>
    simp only [ha, Bool.false_eq_true, if_false, List.isEmpty_iff] at hfit
    simp [hfit]

/-- R265: `Ok` is all the bytes asked for. -/
theorem ReadRun.result_ok_iff {count : Nat} (r : ReadRun) (h : r.valid count = true) :
    r.result count = .ok ↔ r.stored.length = count * 512 := by
  obtain ⟨hlen, -⟩ := r.stored_length h
  rw [ReadRun.result, hlen, Nat.mul_left_inj (by decide)]
  split <;> simp [*]

/-- Settles O37: the transfer goes as a run (`readTransfer_goes`), its close adds a byte (`Goes.closed`). -/
theorem everyReadIsARun : Obligations.EveryReadIsARun := by
  intro s buf sector count ho hm hc0 hl
  obtain ⟨r, k, t, hr, h, hmem, htalk⟩ := readTransfer_goes buf sector count { s with busy := true } hm hc0
  obtain ⟨y, u, hrun, humem, hhistory, hreply⟩ := h.closed
  have hq : ({ r with release := y } : ReadRun).valid count = true := hr
  obtain ⟨hlen, hle⟩ := ReadRun.stored_length _ hq
  exact ⟨u, { r with release := y }, (exec_read_admitted s buf sector count ho hc0 hl).trans (congrArg _ hrun), hq,
    hhistory.trans (by rw [← htalk]), humem.trans hmem,
    hreply.trans (congrArg (fun x => some (Reply.result x)) (ReadRun.result_eq _ hq).symm),
    hlen.trans_le (Nat.mul_le_mul_right 512 hle), by rw [hlen, Nat.mul_mod_left], ReadRun.result_ok_iff _ hq⟩

/-! ## write -/

/-- An accepted command, the blocks and the stop token where it is due make a run. -/
theorem WriteRun.valid_of_accepted {sd : Bool} {count : Nat} {declare : Option CommandRun} {command : CommandRun}
    {blocks : List Transmission} {stop : Option StopRun} (y : Byte)
    (hdeclare : declare.isSome = (sd && count != 1)) (hdeclareValid : declare.all (CommandRun.valid (acmd 23)) = true)
    (hcommand : command.valid (transferCommand 24 25 count) = true) (ha : command.accepted = true)
    (hblocks : blocks.all Transmission.valid = true) (hfit : BlocksFit Transmission.ok count blocks)
    (hstop : stop.all StopRun.valid = true) (hdue : stop.isSome = (count != 1)) :
    (⟨declare, command, blocks, stop, y⟩ : WriteRun).valid sd count = true := by
  obtain ⟨hlen, hinit, hlast⟩ := hfit
  simp only [WriteRun.valid, hdeclare, hdeclareValid, hcommand, ha, hblocks, hstop, hdue, hlen, hinit, hlast,
    decide_true, Bool.true_and, Bool.and_true, if_true, beq_self_eq_true]

/-- So does a rejected command with nothing behind it. -/
theorem WriteRun.valid_of_rejected {sd : Bool} {count : Nat} {declare : Option CommandRun} {command : CommandRun}
    (y : Byte) (hdeclare : declare.isSome = (sd && count != 1))
    (hdeclareValid : declare.all (CommandRun.valid (acmd 23)) = true)
    (hcommand : command.valid (transferCommand 24 25 count) = true) (ha : command.accepted = false) :
    (⟨declare, command, [], none, y⟩ : WriteRun).valid sd count = true := by
  rw [WriteRun.valid, hdeclare, hdeclareValid, hcommand, ha, beq_self_eq_true]
  rfl

/-- R256, whatever the bus answers. -/
theorem writeSingle_goes (sd : Bool) (base : Nat) (a : Word) (s : State) : ∃ (r : WriteRun) (t : State),
    r.valid sd 1 = true ∧ Goes (writeSingle base a) s
      (Talk.join [r.command.talk (cmd 24) a, blocksTalk s.mem Config.tokenStart base r.blocks])
      (1 - (r.blocks.filter Transmission.ok).length) t := by
  obtain ⟨command, c, hc, hcommand⟩ := sendCommand_went (cmd 24) a s.bus
  cases ha : command.accepted with
  | true =>
    obtain ⟨x, d, hx, hrun, htrace⟩ := transmitFrom_went base Config.tokenStart (s.withBus c) (by decide)
    have hblock : Goes (transmitFrom base Config.tokenStart) (s.withBus c)
        (x.talk Config.tokenStart (s.mem.readBytes base Config.sectorSize)) x.ok ((s.withBus c).withBus d) :=
      ⟨hrun, htrace⟩
    have hsingle : Goes (writeSingle base a) s ((command.talk (cmd 24) a).append
        (x.talk Config.tokenStart (s.mem.readBytes base Config.sectorSize))) (if x.ok then 0 else 1)
        ((s.withBus c).withBus d) := hcommand.accepted ha (hblock.andThen (.pure _ _))
    refine ⟨⟨none, command, [x], none, 0⟩, (s.withBus c).withBus d, WriteRun.valid_of_accepted 0 (by simp) rfl hc
      ha (by simpa using hx) (.single (.inr rfl)) rfl rfl, ?_⟩
    cases hok : x.ok <;> simpa [hok, blocksTalk, Talk.join_cons] using hsingle
  | false =>
    exact ⟨⟨none, command, [], none, 0⟩, s.withBus c, WriteRun.valid_of_rejected 0 (by simp) rfl hc ha,
      (hcommand.rejected ha).congr (by simp [blocksTalk, Talk.join_cons])⟩

/-- R257, whatever the bus answers. -/
theorem declareErase_goes (c : Option CardClass) (count : Nat) (s : State) : ∃ (d : Option CommandRun) (b : Bus),
    d.isSome = isSdFamily c ∧ d.all (CommandRun.valid (acmd 23)) = true
      ∧ Goes (declareErase c count) s (Talk.join (d.toList.map (CommandRun.talk (acmd 23) (eraseCountArg count)))) ()
        (s.withBus b) := by
  cases hsd : isSdFamily c with
  | true =>
    obtain ⟨p, b, hp, h⟩ := sendCommand_went (acmd 23) (eraseCountArg count) s.bus
    exact ⟨some p, b, rfl, hp, .iteTrue hsd ((h.goes.andThen (.pure () _)).congr (by simp))⟩
  | false => exact ⟨none, s.bus, rfl, rfl, .iteFalse (Bool.eq_false_iff.1 hsd) (.pure () s)⟩

/-- What is left when the stop token has failed or has not (R258). -/
theorem writeEnd_goes {s : State} {d : Bus} {p : StopRun} {l : CsLevel} (remaining : Nat)
    (h : Went sendStop s.bus p.talk p.ok l d) :
    Goes (onBus sendStop >>= fun ok => pure (if ok then remaining else 1)) s p.talk (if p.ok then remaining else 1)
      (s.withBus d) :=
  h.goes.andThen (.pure _ _)

/-- R257, R258, whatever the bus answers. -/
theorem writeMultiple_goes (base count : Nat) (c : Option CardClass) (a : Word) (s : State) (hc0 : count ≠ 0)
    (hc1 : count ≠ 1) : ∃ (r : WriteRun) (t : State), r.valid (isSdFamily c) count = true
      ∧ Goes (writeMultiple base count c a) s (r.multipleTalk s.mem base count a) (r.remaining count) t := by
  obtain ⟨declare, b, hdeclare, hdeclareValid, herase⟩ := declareErase_goes c count s
  obtain ⟨command, d, hc, hcommand⟩ := sendCommand_went (cmd 25) a (s.withBus b).bus
  have hc : command.valid (transferCommand 24 25 count) = true := by rwa [transferCommand, if_neg hc1]
  have hdeclare : declare.isSome = (isSdFamily c && count != 1) := by simp [hdeclare, hc1]
  cases ha : command.accepted with
  | true =>
    obtain ⟨blocks, e, hblocks, hfit, hrun, htrace⟩ :=
      writeBlocks_went base count 0 (noteProgress count 0 ((s.withBus b).withBus d)).2 hc0
    have hloop : Goes (writeBlocks base count 0) (noteProgress count 0 ((s.withBus b).withBus d)).2
        (blocksTalk s.mem Config.tokenMulti base blocks) (count - (blocks.filter Transmission.ok).length)
        ((noteProgress count 0 ((s.withBus b).withBus d)).2.withBus e) := ⟨hrun, htrace⟩
    obtain ⟨p, f, hp, hstop⟩ := sendStop_went e
    exact ⟨⟨declare, command, blocks, some p, 0⟩, _,
      WriteRun.valid_of_accepted 0 hdeclare hdeclareValid hc ha hblocks hfit hp (by simp [hc1]),
      (herase.bind (hcommand.accepted ha (.afterNote (hloop.bind (writeEnd_goes _ hstop))))).congr
        (by simp [WriteRun.multipleTalk, Talk.join_append, Talk.join_cons])⟩
  | false =>
    exact ⟨⟨declare, command, [], none, 0⟩, _, WriteRun.valid_of_rejected 0 hdeclare hdeclareValid hc ha,
      (herase.bind (hcommand.rejected ha)).congr
        (by simp [WriteRun.multipleTalk, blocksTalk, Talk.join_append, Talk.join_cons])⟩

/-- Either transfer, but for its close; `valid` does not look at the byte that the close will add. -/
theorem writeTransfer_goes (buf : HostBuf) (sector : Word) (count : Nat) (s : State) (hc0 : count ≠ 0) :
    ∃ (r : WriteRun) (k : Talk) (t : State) (remaining : Nat), r.valid (isSdFamily s.cardClass) count = true
      ∧ Goes (writeTransfer buf sector count) s k remaining t
      ∧ r.result count = (if remaining = 0 then .ok else .error)
      ∧ ∀ y, ({ r with release := y }).talk s.mem buf.base count (addr s.cardClass sector)
          = k.append (deselectTalk y) := by
  by_cases hc1 : count = 1
  · subst hc1
    obtain ⟨r, t, hr, h⟩ := writeSingle_goes (isSdFamily s.cardClass) buf.base (addr s.cardClass sector) s
    exact ⟨r, _, t, _, hr, .afterReadClass (.iteTrue rfl h), r.result_single _ hr,
      fun y => ({ r with release := y }).talk_single _ _ _ _ hr⟩
  · obtain ⟨r, t, hr, h⟩ := writeMultiple_goes buf.base count s.cardClass (addr s.cardClass sector) s hc0 hc1
    exact ⟨r, _, t, _, hr, .afterReadClass (.iteFalse hc1 h), r.result_multiple hc1 hr,
      fun y => ({ r with release := y }).talk_multiple _ _ _ hc1⟩

/-- Settles O39: the transfer goes as a run (`writeTransfer_goes`), its close adds a byte (`Goes.closed`). -/
theorem everyWriteIsARun : Obligations.EveryWriteIsARun := by
  intro s buf sector count ho hp hc0 hl
  obtain ⟨r, k, t, remaining, hr, h, hresult, htalk⟩ :=
    writeTransfer_goes buf sector count { s with busy := true } hc0
  obtain ⟨y, u, hrun, -, hhistory, hreply⟩ := h.closed
  exact ⟨u, { r with release := y }, (exec_write_admitted s buf sector count ho hp hc0 hl).trans (congrArg _ hrun), hr,
    hhistory.trans (by rw [← htalk]), hreply.trans (congrArg (fun x => some (Reply.result x)) hresult.symm)⟩

end Sys2Proof.Machine
end

section
/-! `initialize` of a card that it classifies, for every way the bus can answer it (43_init_fsm.md R202 to R215). -/

namespace Sys2Proof.Machine

/-- A run whose classification names a class goes on, behind its opening, at the fast clock with the geometry (R213,
R215). -/
theorem InitRun.talk_of_some {powerOnMs : Nat} {r : InitRun} {k : CardClass} {g : GeometryRun}
    (hv : r.valid powerOnMs = true) (hc : r.classify.cardClass = some k) (hg : r.geometry = some g) :
    g.valid k = true ∧ r.talk = r.opening.append ((lineTalk (.clk .fast)).append (g.talk k)) := by
  simp only [InitRun.valid, hc, hg, Bool.and_eq_true] at hv
  obtain ⟨-, hgv, -⟩ := hv
  exact ⟨hgv, by simp [InitRun.talk, hc, hg, Talk.join_cons]⟩

/-- What the spec says of the sector count `v` and the draws `n` behind the decode, of a state whose count was `v₀` and
whose draws were `n₀` (R235, log 5). -/
def SectorsDecoded (g : GeometryRun) (v₀ : Word) (n₀ : Nat) (v : Word) (n : Nat) : Prop :=
  match g.csd.data with
  | none => v = v₀ ∧ n = n₀
  | some csd => sectorsStated csd = true → v = sectorsValue csd ∧ n = n₀

/-- R202, R213, R215: a classification with a class clears `NotInitialized`, runs fast, and decodes the geometry. -/
theorem initOperation_succeeds (s : State) (r : InitRun) (k : CardClass) (g : GeometryRun)
    (hv : r.valid s.powerOnWaitMs = true) (hc : r.classify.cardClass = some k) (hg : r.geometry = some g) :
    ∃ (v : Word) (n : Nat), SectorsDecoded g s.sectorCount s.bus.draws v n
      ∧ Does initOperation s r.talk (.status s.status.clearNotInitialized)
        { s with
          status := s.status.clearNotInitialized
          cardClass := some k
          phase := .ready
          sectorCount := v
          eraseBlockSectors := (g.erase.value k).getD s.eraseBlockSectors
          bus := { s.bus with pwr := .on, clk := .fast, draws := n } } := by
  obtain ⟨hgv, hk⟩ := InitRun.talk_of_some hv hc hg
  obtain ⟨ph, opening⟩ := opening_does s r hv
  obtain ⟨v, n, hn, hd⟩ := initSucceeded_does k g hgv
    { s with phase := ph, cardClass := some k, bus := { s.bus with pwr := .on, clk := .slow } } rfl
  refine ⟨v, n, hn, ?_⟩
  rw [initOperation_eq, hk]
  refine opening _ _ _ _ ?_
  simp only [hc]
  have hreply := Does.read (fun s => Reply.status s.status) (fun _ _ => rfl)
  exact Does.congr (Does.bind hd (hreply _)) (Talk.append_nil _)

/-- Settles O46: the operation's succeeding end (`initOperation_succeeds`) through the shared call
(`exec_initialize_run`). -/
theorem initializeSucceeds : Obligations.InitializeSucceeds := by
  intro s r k g hb hv hc hg
  obtain ⟨v, n, hn, hd⟩ := initOperation_succeeds { s with busy := true } r k g hv hc hg
  exact ⟨v, n, hn, exec_initialize_run hb hv hd⟩

end Sys2Proof.Machine
end

section
/-! The tick (60_exceptions.md R300; 40_transport.md R137): what the difference of two samples tells, which samples the
model draws itself, and how much time they span. -/

namespace Sys2Proof.Machine

/-! ## The difference of two samples -/

/-- Settles O56: what is added to a sample is how far the next lies behind it. -/
theorem deadlineAcrossWrap : Obligations.DeadlineAcrossWrap := by
  intro t0 elapsed T
  rw [pastDeadline, BitVec.add_comm, BitVec.add_sub_cancel]

theorem ticksHold_iff (v : Word) (later : List Word) : ticksHold v later = true ↔ elapsedFrom v later < 2 ^ 32 :=
  decide_eq_true_iff

/-- A first part of samples that keep R300 (a) keeps it too. -/
theorem ticksHold_of_append {v : Word} {l m : List Word} (h : ticksHold v (l ++ m) = true) : ticksHold v l = true := by
  rw [ticksHold_iff, elapsedFrom_append] at *
  omega

/-- On a tick that keeps R300 (a) the difference of two samples is the time between them. -/
theorem sub_toNat_of_ticksHold {v : Word} {l : List Word} (h : ticksHold v l = true) :
    (l.getLastD v - v).toNat = elapsedFrom v l := by
  rw [sub_eq_elapsedFrom, Nat.mod_eq_of_lt ((ticksHold_iff v l).1 h)]

/-- The sample behind others, as the last of them all. -/
theorem getLastD_append_singleton (v w : Word) (l : List Word) : (l ++ [w]).getLastD v = w := by
  simp

/-- On such a tick a deadline once passed stays passed. -/
theorem pastDeadline_of_ticksHold {v w u : Word} {T : Nat} {l m : List Word}
    (h : ticksHold v (l ++ w :: (m ++ [u])) = true) (hw : pastDeadline v T w = true) : pastDeadline v T u = true := by
  have h : ticksHold v ((l ++ [w]) ++ (m ++ [u])) = true := by simpa using h
  have hwv := sub_toNat_of_ticksHold (ticksHold_of_append h)
  have huv := sub_toNat_of_ticksHold h
  rw [← List.append_assoc, getLastD_append_singleton, List.append_assoc, elapsedFrom_append] at huv
  rw [getLastD_append_singleton] at hwv
  rw [pastDeadline, decide_eq_true_iff] at *
  omega

/-- Settles O51: the difference is `sub_toNat_of_ticksHold`, a deadline stays passed by `pastDeadline_of_ticksHold`. -/
theorem differenceIsElapsed : Obligations.DifferenceIsElapsed := by
  intro v between w later h
  refine ⟨?_, fun u hu T hw => ?_⟩
  · have hw : ticksHold v ((between ++ [w]) ++ later) = true := by simpa using h
    rw [← sub_toNat_of_ticksHold (ticksHold_of_append hw), getLastD_append_singleton]
  · obtain ⟨l, m, rfl⟩ := List.append_of_mem hu
    refine pastDeadline_of_ticksHold (l := between) (m := l) (ticksHold_of_append (m := m) ?_) hw
    simpa using h

/-! ## The free samples -/

/-- A sample that lies `n` behind the last. -/
theorem add_sub_toNat (tick v : Word) : tick + BitVec.ofNat 32 (v - tick).toNat = v := by
  rw [BitVec.ofNat_toNat, BitVec.setWidth_eq, BitVec.add_comm, BitVec.sub_add_cancel]

/-- A sample keeps R300 (a) for the deadlines that run iff there is room for it. -/
theorem lt_roomLeft_iff_of_sub (starts : List Word) (tick v : Word) :
    (v - tick).toNat < roomLeft starts tick ↔ ∀ t ∈ starts, (tick - t).toNat + (v - tick).toNat < 2 ^ 32 :=
  (lt_roomLeft_iff starts tick _).trans (and_iff_right (v - tick).isLt)

theorem tickBehind_range (starts : List Word) (tick v : Word) :
    (∃ advance : Word, tickBehind starts tick advance.toNat = v) ↔ (v - tick).toNat < roomLeft starts tick := by
  constructor
  · rintro ⟨advance, rfl⟩
    rw [tickBehind_sub]
    exact Nat.mod_lt _ (roomLeft_pos starts tick)
  · intro h
    exact ⟨v - tick, by rw [tickBehind, Nat.mod_eq_of_lt h, add_sub_toNat]⟩

/-- The time that has passed behind a wait's start, at a sample that keeps (a) for it. -/
theorem pastDeadline_iff_of_lt {t0 tick v : Word} {T : Nat} (h : sinceStart t0 tick + (v - tick).toNat < 2 ^ 32) :
    pastDeadline t0 T v = true ↔ T ≤ sinceStart t0 tick + (v - tick).toNat := by
  rw [← sinceStart_add t0 tick v h]
  exact decide_eq_true_iff

theorem tickPast_range (t0 : Word) (T : Nat) (starts : List Word) (tick v : Word)
    (hroom : T - sinceStart t0 tick < roomLeft (t0 :: starts) tick) :
    (∃ advance : Word, tickPast t0 T starts tick advance.toNat = v)
      ↔ T ≤ sinceStart t0 tick + (v - tick).toNat ∧ (v - tick).toNat < roomLeft (t0 :: starts) tick := by
  have hlt := (lt_roomLeft_iff (t0 :: starts) tick _).1 hroom
  constructor
  · rintro ⟨advance, rfl⟩
    have h0 := hlt.2 t0 (.head _)
    obtain ⟨n, hn, hT, -, hkeep⟩ := tickPast_sub t0 T starts tick advance.toNat (by omega)
    rw [hn]
    exact ⟨hT, hkeep hroom⟩
  · rintro ⟨hT, hv⟩
    have hlong := (v - tick).isLt
    refine ⟨BitVec.ofNat 32 ((v - tick).toNat - (T - sinceStart t0 tick)), ?_⟩
    rw [tickPast, if_pos hroom, BitVec.toNat_ofNat, Nat.mod_eq_of_lt (by omega), Nat.mod_eq_of_lt (by omega),
      Nat.add_sub_cancel' (by omega), add_sub_toNat]

/-- Settles O48: the room that R300 (a) leaves (`lt_roomLeft_iff`) is the range of both draws (`tickBehind_range`,
`tickPast_range`); the deadline has passed in every case (`pastDeadline_tickPast`). -/
theorem freeSampleRange : Obligations.FreeSampleRange := by
  refine ⟨fun b hb => by simp only [now, hb]; rfl, fun starts tick v => ?_, fun t0 T starts tick v hex => ?_,
    fun t0 T starts tick advance hT => ?_⟩
  · rw [tickBehind_range, lt_roomLeft_iff_of_sub]
  · obtain ⟨u, hpast, hu⟩ := hex
    have hnear := hu t0 (.head _)
    rw [pastDeadline_iff_of_lt hnear] at hpast
    have hroom : T - sinceStart t0 tick < roomLeft (t0 :: starts) tick :=
      lt_of_le_of_lt (by omega) ((lt_roomLeft_iff_of_sub (t0 :: starts) tick u).2 hu)
    rw [tickPast_range t0 T starts tick v hroom, ← lt_roomLeft_iff_of_sub]
    refine and_congr_left fun hv => ?_
    exact (pastDeadline_iff_of_lt ((lt_roomLeft_iff_of_sub _ _ _).1 hv t0 (.head _))).symm
  · obtain ⟨n, hn, -, hlt, -⟩ := tickPast_sub t0 T starts tick advance.toNat hT
    exact ⟨pastDeadline_tickPast t0 T starts tick advance.toNat hT, by rw [hn]; exact hlt⟩

/-! ## The span of the free samples -/

/-- A wait keeps R300 (a) for its own deadline. -/
theorem delay_samplesHold (T : Nat) (b : Bus) (hT : T < 2 ^ 32) (hb : b.ticks = []) : b.SamplesHold (delay T b).2 := by
  obtain ⟨v, c, hc, hv, h⟩ := started (w := 0) b hb fun t0 => .under t0 (.bounded fun n =>
    delayLoop_runs t0 T (.head _) (lastSample_own T hT) n)
  exact samplesHold_started hc hv h

theorem waitReady_samplesHold (T : Nat) (b : Bus) (hT : T < 2 ^ 32) (hb : b.ticks = []) :
    b.SamplesHold (waitReady T b).2 := by
  obtain ⟨v, c, hc, hv, h⟩ := started (w := 0) b hb fun t0 => .under t0 (.bounded fun n =>
    readyLoop_runs t0 T (.head _) (lastSample_own T hT) n)
  exact samplesHold_started hc hv h

theorem awaitToken_samplesHold (b : Bus) (hb : b.ticks = []) : b.SamplesHold (awaitToken b).2 := by
  obtain ⟨v, c, hc, hv, h⟩ := started (w := 0) b hb fun t0 => .bind (.under t0 (.bounded fun n =>
    tokenLoop_runs (.head _) n)) fun tok => (setScratch_runs (.noteTok tok)).bind fun _ => .pure tok
  exact samplesHold_started hc hv h

/-- A whole classification keeps it too, or a first part of it, which leaves no more than the 500 ms of a ready wait. -/
theorem classifyIdle_samplesHold (s : State) (hb : s.bus.ticks = []) (hs : s.bus.deadlines = []) : ∃ start later,
    (classifyIdle s).2.bus.samples = s.bus.samples ++ start :: later
      ∧ (ticksHold start later = true ∨ ∃ early, early <+: later ∧ ticksHold start early = true
          ∧ 2 ^ 32 ≤ elapsedFrom start early + 500) := by
  obtain ⟨v, c, hc, hv, h⟩ := started (w := 500) s.bus hb fun t0 => .under t0 (hs ▸ branchTransport_runs t0)
  rw [classifyIdle_bus]
  obtain ⟨n, ⟨-, l, hl, -, rfl⟩, hlt⟩ | ⟨early, rest, hl, hlt, hle⟩ := h
  · rw [hv] at hlt
    exact ⟨v, l, by rw [hl, hc]; simp, .inl ((ticksHold_iff v l).2 (by omega))⟩
  · rw [hv, sinceStart, BitVec.sub_self] at hlt hle
    exact ⟨v, early ++ rest, by rw [hl, hc]; simp, .inr ⟨early, List.prefix_append .., (ticksHold_iff v early).2
      (by simpa using hlt), by simpa using hle⟩⟩

/-- Settles O49: each span begins with the sample of its deadline (`started`). -/
theorem freeSamplesHold : Obligations.FreeSamplesHold :=
  ⟨delay_samplesHold, waitReady_samplesHold, awaitToken_samplesHold, classifyIdle_samplesHold⟩

end Sys2Proof.Machine
end

section
/-! A wait loop that ran out of its second is followed by no command (43_init_fsm.md R206, R207, R209 to R211), on a
tick that keeps 60_exceptions.md R300 (a). -/

namespace Sys2Proof.Machine

/-- A lost loop ends with the sample that found its deadline passed (R206, R209). -/
theorem LoopRun.ticks_of_lost {r : LoopRun} (c : CommandCode) (arg : Word) (h : r.won = none) :
    ∃ polls, (r.talk c arg).ticks = polls ++ [r.last] := by
  refine ⟨(Talk.join (r.polls.map fun p => Talk.join [nowTalk p.1, p.2.talk c arg])).ticks, ?_⟩
  simp [LoopRun.talk, h, Talk.join_ticks, nowTalk]

theorem LoopRun.expired_of_lost {r : LoopRun} {c : CommandCode} {t0 : Word} (hv : r.valid c t0 = true)
    (h : r.won = none) : pastDeadline t0 Config.tInitMs r.last = true := by
  simp only [LoopRun.valid, h, Bool.and_eq_true, beq_iff_eq] at hv
  simpa using hv.2

/-- A timed command begins with the sample that is tested (R207, R210). -/
theorem TimedRun.ticks_eq (r : TimedRun) (c : CommandCode) (arg : Word) :
    ∃ rest, (r.talk c arg).ticks = r.sample :: rest :=
  ⟨_, rfl⟩

theorem TimedRun.unsent_of_expired {r : TimedRun} {c : CommandCode} {t0 : Word} (hv : r.valid c t0 = true)
    (h : pastDeadline t0 Config.tInitMs r.sample = true) : r.command = none := by
  simp only [TimedRun.valid, h, Bool.and_eq_true, beq_iff_eq] at hv
  simpa using hv.1

/-- Behind a lost loop the command is not sent, whatever samples came before and after. -/
theorem TimedRun.unsent_of_lost {loop : LoopRun} {r : TimedRun} {c d : CommandCode} {t0 a e : Word}
    {before after : List Word} (hloop : loop.valid c t0 = true) (hr : r.valid d t0 = true) (hlost : loop.won = none)
    (h : ticksHold t0 (before ++ ((loop.talk c a).ticks ++ ((r.talk d e).ticks ++ after))) = true) :
    r.command = none := by
  obtain ⟨polls, hpolls⟩ := LoopRun.ticks_of_lost c a hlost
  obtain ⟨rest, hrest⟩ := r.ticks_eq d e
  rw [hpolls, hrest] at h
  refine TimedRun.unsent_of_expired hr (pastDeadline_of_ticksHold (l := before ++ polls) (m := [])
    (ticksHold_of_append (m := rest ++ after) ?_) (LoopRun.expired_of_lost hloop hlost))
  simpa using h

/-- Settles O50: either branch is a loop and a timed command behind it (`TimedRun.unsent_of_lost`). -/
theorem expiredDeadlineStaysExpired : Obligations.ExpiredDeadlineStaysExpired := by
  intro r t0 probe branch hv hidle hticks
  simp only [ClassifyRun.valid, hidle, Option.all_some, Bool.and_eq_true] at hv
  obtain ⟨-, -, hbranch⟩ := hv
  cases branch with
  | echoWrong r7 => trivial
  | sdv2 r7 loop ocrCmd ocr =>
    intro hlost
    simp only [BranchRun.valid, Bool.and_eq_true, beq_iff_eq] at hbranch
    obtain ⟨⟨⟨⟨-, hloop⟩, htimed⟩, hocr⟩, -⟩ := hbranch
    have hunsent : ocrCmd.command = none := TimedRun.unsent_of_lost
      (before := (probe.talk (cmd 8) 0x000001AA).ticks ++ (fillTalk r7).ticks) (a := Config.hcsArg) (e := 0)
      (after := ((ocr.toList.map fillTalk).map Talk.ticks).flatten) hloop htimed hlost
      (by simpa [BranchRun.talk, Talk.join_ticks] using hticks)
    exact ⟨hunsent, by simpa [TimedRun.ok, hunsent] using hocr⟩
  | legacy probe' loop lengthCmd =>
    intro hlost
    simp only [BranchRun.valid, Bool.and_eq_true] at hbranch
    obtain ⟨⟨-, hloop⟩, htimed⟩ := hbranch
    exact TimedRun.unsent_of_lost
      (before := (probe.talk (cmd 8) 0x000001AA).ticks ++ (probe'.talk (acmd 41) 0).ticks) (a := 0)
      (e := Config.blockLenArg) (after := []) hloop htimed hlost
      (by simpa [BranchRun.talk, Talk.join_ticks] using hticks)

end Sys2Proof.Machine
end

section
/-! The fields of the CSD as bit ranges of its 128-bit register (44_geometry.md R234, R238, R239; 45_block_io.md R261).
A field is the low bits of a byte, the high bits of one, or both with whole bytes between. -/

namespace Sys2Proof.Machine

section Ranges
variable {w : Nat} (x : BitVec w)

/-- A range of bits in two parts, the second above the first. -/
theorem toNat_extractLsb'_add (start m n : Nat) : (x.extractLsb' start (m + n)).toNat =
    (x.extractLsb' start m).toNat + (x.extractLsb' (start + m) n).toNat <<< m := by
  simp only [BitVec.extractLsb'_toNat, Nat.shiftLeft_eq, Nat.shiftRight_eq_div_pow]
  rw [Nat.pow_add, Nat.mod_mul, Nat.mul_comm (2 ^ m), Nat.div_div_eq_div_mul, ← Nat.pow_add]

/-- The high bits of a byte. -/
theorem toNat_byte_shiftRight (start k n : Nat) (h : k + n = 8) :
    (x.extractLsb' start 8 >>> k).toNat = (x.extractLsb' (start + k) n).toNat := by
  simp only [BitVec.toNat_ushiftRight, BitVec.extractLsb'_toNat, Nat.shiftRight_eq_div_pow]
  rw [← h, Nat.pow_add, Nat.mod_mul_right_div_self, Nat.div_div_eq_div_mul, ← Nat.pow_add]

/-- The low bits of a byte. -/
theorem toNat_byte_and (start n : Nat) (mask : Byte) (hn : n ≤ 8) (hmask : mask.toNat = 2 ^ n - 1) :
    (x.extractLsb' start 8 &&& mask).toNat = (x.extractLsb' start n).toNat := by
  rw [BitVec.toNat_and, hmask, Nat.and_two_pow_sub_one_eq_mod, BitVec.extractLsb'_toNat, BitVec.extractLsb'_toNat,
    Nat.mod_mod_of_dvd _ (Nat.pow_dvd_pow 2 hn)]

/-- A range within a byte. -/
theorem extractLsb'_byte (start k n : Nat) (h : k + n ≤ 8) :
    (x.extractLsb' start 8).extractLsb' k n = x.extractLsb' (start + k) n := by
  refine BitVec.eq_of_getLsbD_eq fun i hi => ?_
  simp only [BitVec.getLsbD_extractLsb', hi, Nat.add_assoc, show k + i < 8 by omega, decide_true, Bool.true_and]

end Ranges

/-- Bits 2 to 6 of a byte. -/
theorem byte_middle (b : Byte) : ((b &&& 0x7C) >>> 2).toNat = (b.extractLsb' 2 5).toNat := by
  revert b
  decide

/-- Bit 6 of a byte. -/
theorem byte_bit6 (b : Byte) : ((b &&& 0x40) != 0) = b.getLsbD 6 := by
  revert b
  decide

/-- Byte `k` of a register laid out most significant byte first. -/
theorem byteAt_layout (reg : BitVec 128) {k : Nat} (hk : k < 16) :
    byteAt ((List.range 16).map fun k => reg.extractLsb' (120 - 8 * k) 8) k = reg.extractLsb' (120 - 8 * k) 8 := by
  simp [byteAt, List.getD, hk]

/-- Settles O53: each extraction by its bytes (`byteAt_layout`), each byte by its part of the range. -/
theorem csdFieldsAreBitRanges : Obligations.CsdFieldsAreBitRanges := by
  rintro reg csd rfl
  refine ⟨?_, ?_, ?_, ?_, ?_, ?_, ?_, ?_, ?_⟩
  · rw [csdStructure, byteAt_layout reg (by decide), toNat_byte_shiftRight reg 120 6 2 rfl]
  · rw [readBlLen, byteAt_layout reg (by decide), toNat_byte_and reg 80 4 _ (by decide) rfl]
  · rw [cSizeV1, byteAt_layout reg (by decide), byteAt_layout reg (by decide), byteAt_layout reg (by decide),
      toNat_byte_shiftRight reg 56 6 2 rfl, toNat_byte_and reg 72 2 _ (by decide) rfl,
      toNat_extractLsb'_add reg 62 10 2, toNat_extractLsb'_add reg 62 2 8]
  · rw [cSizeV2, byteAt_layout reg (by decide), byteAt_layout reg (by decide), byteAt_layout reg (by decide),
      toNat_byte_and reg 64 6 _ (by decide) rfl, toNat_extractLsb'_add reg 48 16 6, toNat_extractLsb'_add reg 48 8 8]
  · rw [cSizeMult, byteAt_layout reg (by decide), byteAt_layout reg (by decide),
      toNat_byte_shiftRight reg 40 7 1 rfl, toNat_byte_and reg 48 2 _ (by decide) rfl,
      toNat_extractLsb'_add reg 47 1 2, Nat.add_comm]
  · rw [eraseBlkEn, byteAt_layout reg (by decide), byte_bit6, BitVec.getLsbD_extractLsb']
    rfl
  · rw [sectorSizeSd, byteAt_layout reg (by decide), byteAt_layout reg (by decide),
      toNat_byte_shiftRight reg 32 7 1 rfl, toNat_byte_and reg 40 6 _ (by decide) rfl,
      toNat_extractLsb'_add reg 39 1 6, Nat.add_comm]
  · rw [eraseGrpSize, byteAt_layout reg (by decide), byte_middle, extractLsb'_byte reg 40 2 5 (by decide)]
  · rw [eraseGrpMult, byteAt_layout reg (by decide), byteAt_layout reg (by decide),
      toNat_byte_shiftRight reg 32 5 3 rfl, toNat_byte_and reg 40 2 _ (by decide) rfl,
      toNat_extractLsb'_add reg 37 3 2, Nat.add_comm]

end Sys2Proof.Machine
end

section
/-! The numbering of the Results (00_scope.md section 4, D3): which maps are numberings, and that no step changes the
machine's own, or its power-on wait. -/

namespace Sys2Proof.Machine

/-- A one-to-one map from the five Results as a numbering. -/
def numberingOf (f : Result → Nat) (h : ∀ r r', f r = f r' → r = r') : ResultCodes where
  ok := f .ok
  error := f .error
  writeProtect := f .writeProtect
  notReady := f .notReady
  invalidParameter := f .invalidParameter
  oneToOne :=
    (show [Result.ok, .error, .writeProtect, .notReady, .invalidParameter].Nodup by decide).map fun r r' => h r r'

theorem code_numberingOf (f : Result → Nat) (h : ∀ r r', f r = f r' → r = r') (r : Result) :
    r.code (numberingOf f h) = f r := by
  cases r <;> rfl

/-- The numberings are the one-to-one maps. -/
theorem resultCodes_iff_injective (f : Result → Nat) :
    (∃ c : ResultCodes, ∀ r, r.code c = f r) ↔ ∀ r r', f r = f r' → r = r' := by
  constructor
  · rintro ⟨c, hc⟩ r r' h
    rw [← hc, ← hc] at h
    exact (Result.code_inj c r r').1 h
  · exact fun h => ⟨numberingOf f h, code_numberingOf f h⟩

/-- In one numbering the number tells the Result. -/
theorem resultCode_eq_iff {s t : State} (h : s.resultCodes = t.resultCodes) :
    s.resultCode = t.resultCode ↔ s.reply.bind Reply.outcome = t.reply.bind Reply.outcome := by
  rw [State.resultCode, State.resultCode, h]
  exact (Option.map_injective fun r r' => (Result.code_inj t.resultCodes r r').1).eq_iff

/-- From `s` to `t` the two open parameters are the same. -/
def State.SameParameters (s t : State) : Prop :=
  t.resultCodes = s.resultCodes ∧ t.powerOnWaitMs = s.powerOnWaitMs

theorem exec_sameParameters {i : Instr} {s t : State} (h : exec i s = .next t) : s.SameParameters t := by
  by_cases hinit : ∃ drv, i = .initializeCard drv
  · obtain ⟨drv, rfl⟩ := hinit
    obtain ⟨-, -, -, -, hwait, hcodes⟩ := initializeFrame drv s t h
    exact ⟨hcodes, hwait⟩
  · obtain ⟨-, -, -, -, -, -, -, -, hwait, hcodes, -⟩ :=
      onlyInitializeWritesRegisters i s t (fun drv hi => hinit ⟨drv, hi⟩) h
    exact ⟨hcodes, hwait⟩

theorem step_sameParameters {s t : State} (h : step s = .next t) : s.SameParameters t :=
  step_keeps (P := s.SameParameters) (fun _ _ hs => hs) (fun _ _ _ hs => hs) (fun _ _ hs => hs)
    (fun _ _ _ hs hexec => ⟨(exec_sameParameters hexec).1.trans hs.1, (exec_sameParameters hexec).2.trans hs.2⟩)
    ⟨rfl, rfl⟩ h

/-- Settles O58: the numberings are the one-to-one maps, one of them tells the Results apart, and `step` keeps it. -/
theorem resultNumbering : Obligations.ResultNumbering :=
  ⟨resultCodes_iff_injective, fun _ _ h => resultCode_eq_iff h, fun _ _ h => step_sameParameters h⟩

end Sys2Proof.Machine
end
